-- ==== Sys2Proof/Word.lean ====
section
/-! DEFINITION. The two sizes of value the machine handles (00_scope.md R8): bytes and shorts. -/

namespace Sys2Proof

/-- A byte, 0..255 (R8). -/
abbrev Byte := BitVec 8

/-- A short, 0..65535 (R8): a 16-bit value, an address, the program counter. -/
abbrev Short := BitVec 16

end Sys2Proof
end

