-- ==== Sys2Proof/Config.lean ====
section
/-! DEFINITION. The parameters of 00_scope.md R7, and the one free value of the model. -/

namespace Sys2Proof.Config

/-- `RAM_PAGES` (R7, R32). -/
def ramPages : Nat := 16

/-- `RAM_PAGE_SIZE` (R7, R32). -/
def ramPageSize : Nat := 65536

/-- The whole backing buffer, 1,048,576 bytes (R32). -/
def bufferSize : Nat := ramPages * ramPageSize

/-- `STACK_SIZE`, the buffer bytes of one stack (R7, R21). -/
def stackSize : Nat := 256

/-- `DEV_SIZE` (R7, R31). -/
def devSize : Nat := 256

/-- `DEV_ENABLE`, the port of the enable byte (R7, R30). -/
def devEnable : Nat := 0x0F

/-- `RESET_VECTOR`, the conventional first entry and the place of the ROM image (R7, R61, R301). -/
def resetVector : Short := 0x0100

/-- The longest ROM file that fits (R302; 93_implementation_defined.md U13). -/
def romMax : Nat := 65280

/-- FREE VALUE (notes/assumptions/2.md): the byte a `DeviceIn` returns where the host's script does not say.
What a device returns is outside the core (R4 (d), R240 "the value is whatever the host returns"). It is applied to
`State.freeCount`. It has no body: nothing can be proved of its values. -/
opaque deviceByte : Nat → Byte

end Sys2Proof.Config
end

