-- ==== Sys2Proof/Syntax.lean ====
section
/-! DEFINITION. The instruction set as syntax: one constructor per row of spec/opcode_table.json. -/

namespace Sys2Proof

/-- The three mode bits of an instruction byte with a non-zero base opcode (30_encoding.md R80, R86): short (bit 5),
return (bit 6), keep (bit 7). Every combination is a defined instruction. -/
structure Mode where
  short : Bool
  ret : Bool
  keep : Bool
  deriving DecidableEq, Repr

/-- The mode of an instruction byte with all three bits clear. -/
def Mode.plain : Mode := ⟨false, false, false⟩

/-- The instructions (30_encoding.md R84, R85). The eight of the immediate family carry the bytes that follow the opcode
(R82); the 31 others carry their mode bits. -/
inductive Instr where
  | brk
  | jci (off : Short)
  | jmi (off : Short)
  | jsi (off : Short)
  | lit (v : Byte)
  | lit2 (v : Short)
  | litr (v : Byte)
  | lit2r (v : Short)
  | inc (m : Mode)
  | pop (m : Mode)
  | nip (m : Mode)
  | swp (m : Mode)
  | rot (m : Mode)
  | dup (m : Mode)
  | ovr (m : Mode)
  | equ (m : Mode)
  | neq (m : Mode)
  | gth (m : Mode)
  | lth (m : Mode)
  | jmp (m : Mode)
  | jcn (m : Mode)
  | jsr (m : Mode)
  | sth (m : Mode)
  | ldz (m : Mode)
  | stz (m : Mode)
  | ldr (m : Mode)
  | str (m : Mode)
  | lda (m : Mode)
  | sta (m : Mode)
  | dei (m : Mode)
  | deo (m : Mode)
  | add (m : Mode)
  | sub (m : Mode)
  | mul (m : Mode)
  | div (m : Mode)
  | and (m : Mode)
  | ora (m : Mode)
  | eor (m : Mode)
  | sft (m : Mode)
  deriving DecidableEq, Repr

end Sys2Proof
end

