-- ==== Sys2Proof/WellFormed.lean ====
section
/-! DEFINITION. Well-formedness of an instruction. -/

namespace Sys2Proof

/-- Every term of `Instr` is a well-formed instruction: the spec restricts no combination of mode bits (30_encoding.md
R86) and reserves no encoding (R88), and an immediate is a byte or a short by its type (R82). So there is no check an
instruction could fail; what a byte sequence can fail is `decode` (it can end too early). -/
def Instr.wellFormed (i : Instr) : Bool :=
  match i with
  | .brk => true
  | .jci _ | .jmi _ | .jsi _ => true
  | .lit _ | .lit2 _ | .litr _ | .lit2r _ => true
  | .inc _ | .pop _ | .nip _ | .swp _ | .rot _ | .dup _ | .ovr _ => true
  | .equ _ | .neq _ | .gth _ | .lth _ => true
  | .jmp _ | .jcn _ | .jsr _ | .sth _ => true
  | .ldz _ | .stz _ | .ldr _ | .str _ | .lda _ | .sta _ => true
  | .dei _ | .deo _ => true
  | .add _ | .sub _ | .mul _ | .div _ | .and _ | .ora _ | .eor _ | .sft _ => true

end Sys2Proof
end

