-- ==== Sys2Proof/Decode.lean ====
section
/-! DEFINITION. The decoder (30_encoding.md R80 to R89), total on bytes, and the encoder. Also the byte-order helpers
(20_memory.md R53), which everything that lays a short out in bytes uses. -/

namespace Sys2Proof

/-! ### Byte order: the high byte first, everywhere (R53) -/

/-- `v[15:8]`. -/
def hiByte (v : Short) : Byte := v.extractLsb' 8 8

/-- `v[7:0]`. -/
def loByte (v : Short) : Byte := v.extractLsb' 0 8

/-- `(h << 8) | l`. -/
def joinBytes (h l : Byte) : Short := h ++ l

/-! ### Fields of the opcode byte (R80) -/

/-- Bits 4:3 of the base opcode: the column of R84's table. -/
def opGroup (ins : Byte) : Fin 4 := ⟨ins.toNat / 8 % 4, Nat.mod_lt _ (by decide)⟩

/-- Bits 2:0 of the base opcode: the row of R84's table. -/
def opIndex (ins : Byte) : Fin 8 := ⟨ins.toNat % 8, Nat.mod_lt _ (by decide)⟩

/-- The high three bits as a number, `ins >> 5` (R89). -/
def highField (ins : Byte) : Fin 8 := ⟨ins.toNat / 32 % 8, Nat.mod_lt _ (by decide)⟩

/-- The mode bits: bit 5 short, bit 6 return, bit 7 keep (R80, R130). -/
def modeField (ins : Byte) : Mode := ⟨ins.getLsbD 5, ins.getLsbD 6, ins.getLsbD 7⟩

/-! ### The opcode map (R84, R85) -/

/-- The immediate family, op = 0: the whole byte selects the instruction (R85). `b1` and `b2` are the bytes after the
opcode byte. -/
def decodeImmediate (high : Fin 8) (b1 b2 : Byte) : Instr :=
  match high with
  | 0 => .brk
  | 1 => .jci (joinBytes b1 b2)
  | 2 => .jmi (joinBytes b1 b2)
  | 3 => .jsi (joinBytes b1 b2)
  | 4 => .lit b1
  | 5 => .lit2 (joinBytes b1 b2)
  | 6 => .litr b1
  | 7 => .lit2r (joinBytes b1 b2)

/-- The instruction that starts with opcode byte `ins` and whose following bytes, where it has any, are `b1` and `b2`.
Total: all 256 values of the opcode byte are instructions (R88, R89). -/
def decodeBytes (ins b1 b2 : Byte) : Instr :=
  -- op = 8 * group + index
  match opGroup ins, opIndex ins with
  | 0, 0 => decodeImmediate (highField ins) b1 b2
  | 0, 1 => .inc (modeField ins)
  | 0, 2 => .pop (modeField ins)
  | 0, 3 => .nip (modeField ins)
  | 0, 4 => .swp (modeField ins)
  | 0, 5 => .rot (modeField ins)
  | 0, 6 => .dup (modeField ins)
  | 0, 7 => .ovr (modeField ins)
  | 1, 0 => .equ (modeField ins)
  | 1, 1 => .neq (modeField ins)
  | 1, 2 => .gth (modeField ins)
  | 1, 3 => .lth (modeField ins)
  | 1, 4 => .jmp (modeField ins)
  | 1, 5 => .jcn (modeField ins)
  | 1, 6 => .jsr (modeField ins)
  | 1, 7 => .sth (modeField ins)
  | 2, 0 => .ldz (modeField ins)
  | 2, 1 => .stz (modeField ins)
  | 2, 2 => .ldr (modeField ins)
  | 2, 3 => .str (modeField ins)
  | 2, 4 => .lda (modeField ins)
  | 2, 5 => .sta (modeField ins)
  | 2, 6 => .dei (modeField ins)
  | 2, 7 => .deo (modeField ins)
  | 3, 0 => .add (modeField ins)
  | 3, 1 => .sub (modeField ins)
  | 3, 2 => .mul (modeField ins)
  | 3, 3 => .div (modeField ins)
  | 3, 4 => .and (modeField ins)
  | 3, 5 => .ora (modeField ins)
  | 3, 6 => .eor (modeField ins)
  | 3, 7 => .sft (modeField ins)

/-- How many bytes follow the opcode byte (R81): one for LIT and LITr, two for the other members of the immediate
family but BRK, none for every other instruction. -/
def immediateCount (ins : Byte) : Nat :=
  if ins = 0x80 ∨ ins = 0xC0 then 1
  else if ins = 0xA0 ∨ ins = 0xE0 ∨ ins = 0x20 ∨ ins = 0x40 ∨ ins = 0x60 then 2
  else 0

/-- Why a byte sequence holds no instruction at its start: it ends too early. No byte is refused for its value (R88). -/
inductive DecodeError where
  /-- The sequence is empty. -/
  | noOpcode
  /-- The bytes that follow the opcode byte (R81) are not all there. -/
  | missingImmediate
  deriving DecidableEq, Repr

/-- The instruction at the start of a byte sequence, and the bytes after it. -/
def decode (bytes : List Byte) : Except DecodeError (Instr × List Byte) :=
  match bytes with
  | [] => .error .noOpcode
  | ins :: rest =>
    match immediateCount ins, rest with
    | 0, rest => .ok (decodeBytes ins 0 0, rest)
    | 1, b1 :: rest => .ok (decodeBytes ins b1 0, rest)
    | 2, b1 :: b2 :: rest => .ok (decodeBytes ins b1 b2, rest)
    | _, _ => .error .missingImmediate

/-! ### The encoder -/

/-- The opcode byte with base opcode `op` and the mode bits `m` (R80). -/
def baseOpcode (op : Byte) (m : Mode) : Byte :=
  op ||| (if m.short then 0x20 else 0) ||| (if m.ret then 0x40 else 0) ||| (if m.keep then 0x80 else 0)

/-- The opcode byte of an instruction (R84, R85). -/
def Instr.opcode (i : Instr) : Byte :=
  match i with
  | .brk => 0x00
  | .jci _ => 0x20
  | .jmi _ => 0x40
  | .jsi _ => 0x60
  | .lit _ => 0x80
  | .lit2 _ => 0xA0
  | .litr _ => 0xC0
  | .lit2r _ => 0xE0
  | .inc m => baseOpcode 0x01 m
  | .pop m => baseOpcode 0x02 m
  | .nip m => baseOpcode 0x03 m
  | .swp m => baseOpcode 0x04 m
  | .rot m => baseOpcode 0x05 m
  | .dup m => baseOpcode 0x06 m
  | .ovr m => baseOpcode 0x07 m
  | .equ m => baseOpcode 0x08 m
  | .neq m => baseOpcode 0x09 m
  | .gth m => baseOpcode 0x0A m
  | .lth m => baseOpcode 0x0B m
  | .jmp m => baseOpcode 0x0C m
  | .jcn m => baseOpcode 0x0D m
  | .jsr m => baseOpcode 0x0E m
  | .sth m => baseOpcode 0x0F m
  | .ldz m => baseOpcode 0x10 m
  | .stz m => baseOpcode 0x11 m
  | .ldr m => baseOpcode 0x12 m
  | .str m => baseOpcode 0x13 m
  | .lda m => baseOpcode 0x14 m
  | .sta m => baseOpcode 0x15 m
  | .dei m => baseOpcode 0x16 m
  | .deo m => baseOpcode 0x17 m
  | .add m => baseOpcode 0x18 m
  | .sub m => baseOpcode 0x19 m
  | .mul m => baseOpcode 0x1A m
  | .div m => baseOpcode 0x1B m
  | .and m => baseOpcode 0x1C m
  | .ora m => baseOpcode 0x1D m
  | .eor m => baseOpcode 0x1E m
  | .sft m => baseOpcode 0x1F m

/-- The two bytes of a short in the order they stand in memory (R53). -/
def shortBytes (v : Short) : List Byte := [hiByte v, loByte v]

/-- The bytes that follow the opcode byte (R81, R82). -/
def Instr.immediates (i : Instr) : List Byte :=
  match i with
  | .jci off | .jmi off | .jsi off => shortBytes off
  | .lit v | .litr v => [v]
  | .lit2 v | .lit2r v => shortBytes v
  | _ => []

/-- The bytes of an instruction. -/
def encode (i : Instr) : List Byte := i.opcode :: i.immediates

/-! ### The word of an opcode-table row -/

/-- Byte `n` of the instruction whose `nbits` bits are `w`, the first byte in bits 7..0; bits above `nbits` are 0. -/
def tableByte (nbits w n : Nat) : Byte := BitVec.ofNat 8 (w % 2 ^ nbits / 256 ^ n)

/-- The instruction the decoder reads from a table row's word: three bytes are the longest instruction (R81). A word of
less than one byte holds no opcode. -/
def decodeTableWord (nbits w : Nat) : Option Instr :=
  match decode (if nbits < 8 then [] else [tableByte nbits w 0, tableByte nbits w 1, tableByte nbits w 2]) with
  | .ok (i, _) => some i
  | .error _ => none

end Sys2Proof
end

