-- ==== Sys2Proof/Machine/State.lean ====
section
/-! DEFINITION. The state of the machine as plain data (10_state.md), the reasons a step can stop, and the state after
reset. -/

namespace Sys2Proof.Machine

/-- Bytes by address: strictly rising addresses, no entry equal to `Memory.unlisted` (`Memory.wf`, Machine/Ops.lean).
One type for the backing buffer, the two stack buffers and the device page. -/
abbrev Memory := List Host.Cell

/-- A stack: its buffer of 256 bytes and its 8-bit depth pointer (R21). The dead bytes at and above the pointer keep
what was last written (R22). -/
structure Stack where
  dat : Memory
  ptr : Byte
  deriving DecidableEq, Repr

/-- The two stacks (R24). -/
inductive StackId where
  | wst
  | rst
  deriving DecidableEq, Repr

/-- The three faults of the machine (60_exceptions.md R271). The set is closed (R279). -/
inductive VmFault where
  | underflow
  | overflow
  | divideByZero
  deriving DecidableEq, Repr

/-- What `Eval` returns (10_state.md R37). -/
inductive EvalResult where
  | notStarted
  | broke
  | pcZero
  | disabled
  | fault (f : VmFault)
  deriving DecidableEq, Repr

/-- What the decoder holds while one instruction executes (R33): the fetched byte, the mode bits (from which `src` and
`dst` are read), the address of the byte after the opcode byte, and, in keep mode only, the keep cursor (R132). -/
structure Decoder where
  ins : Byte
  mode : Mode
  pc1 : Short
  kc : Option Byte
  deriving DecidableEq, Repr

/-- The callback an instruction waits in, with the popped values its rest needs (R38 (b)). -/
inductive Await where
  /-- DEI in byte mode: `DeviceIn(p)` (R240). -/
  | deiByte
  /-- DEI in short mode, the first call, `DeviceIn(port)` (R240). -/
  | deiHigh (port : Byte)
  /-- DEI in short mode, the second call; `hi` is what the first returned (R240). -/
  | deiLow (hi : Byte)
  /-- DEO in short mode, the first call, `DeviceOut(port, high)`; `lo` is still to be sent (R241). -/
  | deoHigh (port lo : Byte)
  /-- DEO in byte mode, or its last call in short mode (R241). -/
  | deoLast
  /-- `Halt` (R276). -/
  | halt (f : VmFault)
  deriving DecidableEq, Repr

/-- A live callback: the decoder state that survives it and which call it is (R33, R38 (b)). -/
structure Callback where
  dec : Decoder
  await : Await
  deriving DecidableEq, Repr

/-- A live activation of `Eval` (R25, R34): its own program counter, R140's `started`, and the callback it waits in
(`none`: the core runs it). -/
structure Activation where
  pc : Short
  started : Bool
  call : Option Callback
  deriving DecidableEq, Repr

/-- What `HostRead` and `HostWrite` reach (R36): the sixteen pages of the backing buffer, the stacks and the device page. -/
inductive Space where
  | page (p : Fin 16) (a : Short)
  | wstDat (i : Byte)
  | wstPtr
  | rstDat (i : Byte)
  | rstPtr
  | dev (port : Byte)
  deriving DecidableEq, Repr

/-- What the host does when it is the active agent (R36, R38). -/
inductive HostAction where
  /-- `HostRead(space, index)`. -/
  | read (sp : Space)
  /-- `HostWrite(space, index, byte)`. -/
  | write (sp : Space) (v : Byte)
  /-- `Eval(entry)`. -/
  | eval (entry : Short)
  /-- Return from the callback the host is in; `v` is the byte a `DeviceIn` returns, the other callbacks return nothing. -/
  | ret (v : Byte)
  /-- MODEL: nothing more in this step; the host goes on acting in the next one (notes/assumptions/1.md, 9.md). -/
  | pause
  deriving DecidableEq, Repr

/-- What the core tells the host (R36): its calls, the results of `Eval`, the answers of `HostRead`. -/
inductive Event where
  | deviceIn (port : Byte)
  | deviceOut (port value : Byte)
  | halt (instruction errorCode : Byte) (address : Short)
  | evalReturn (r : EvalResult)
  | hostRead (sp : Space) (v : Byte)
  deriving DecidableEq, Repr

/-- The state of the machine. The first five fields are the spec's; the last four are the model's own (INVENTORY.md,
`## State`). -/
structure State where
  /-- The backing buffer, 16 pages of 65536 bytes; page 0 is `Ram` (R32, R50). Byte `a` of page `p` has the key
  `p * 65536 + a`. -/
  mem : Memory
  /-- The working stack (R24). -/
  wst : Stack
  /-- The return stack (R24). -/
  rst : Stack
  /-- The device page (R31); byte 0x0F is the enable byte (R30). -/
  dev : Memory
  /-- The live activations, innermost first (R34). Only the innermost can be running. -/
  acts : List Activation
  /-- MODEL: what the host will do next (notes/assumptions/1.md). -/
  script : List HostAction
  /-- MODEL: how many free bytes have been used (notes/assumptions/2.md). -/
  freeCount : Nat
  /-- MODEL: what the core has told the host, newest first (notes/assumptions/5.md). -/
  log : List Event
  /-- MODEL: a fault has happened; never cleared (R278). -/
  faultSeen : Bool
  deriving DecidableEq, Repr

/-- Why a step has no next state although every instruction has a meaning. The machine's own faults (R271) are no such
reason: taking one is a next state (`raiseFault`). -/
inductive Fault where
  /-- Raised by `step` when no activation is live and the host's script says `ret`: there is no callback to return from,
  so it is no transaction of R36 (notes/assumptions/4.md). Safe: the model stops where no hardware behaviour exists. -/
  | returnWithoutCall
  deriving DecidableEq, Repr

/-- Why an instruction has no meaning here. -/
inductive Refusal where
  /-- Raised by `exec` for an instruction without a meaning yet; no arm does. Safe. -/
  | notModelled (mnemonic : String)
  deriving DecidableEq, Repr

/-- An empty stack with every buffer byte 0 (R39). -/
def Stack.empty : Stack := ⟨[], 0⟩

/-- The state after reset (R39, R300): both pointers 0, all stack bytes, all of the buffer and all of the device page 0
(so the enable byte is 0), no live activation. The model's own fields start empty (notes/assumptions/1.md, 2.md, 5.md). -/
def State.reset : State where
  mem := []
  wst := Stack.empty
  rst := Stack.empty
  dev := []
  acts := []
  script := []
  freeCount := 0
  log := []
  faultSeen := false

end Sys2Proof.Machine
end

