-- ==== Sys2Proof/Machine/Operands.lean ====
section
/-! DEFINITION. Mode resolution and operand arithmetic (40_primitives_decoder_loop.md R130, R131; 00_scope.md R9;
45_memory_ops.md R226). A data value is carried as a short; a byte is carried zero-extended. -/

namespace Sys2Proof

/-- The source stack: the working stack, with return mode the return stack (R131). -/
def Mode.src (m : Mode) : Machine.StackId := if m.ret then .rst else .wst

/-- The destination stack: the other one (R131). -/
def Mode.dst (m : Mode) : Machine.StackId := if m.ret then .wst else .rst

/-- The operand width in bits, `w` (R130). -/
def Mode.width (m : Mode) : Nat := if m.short then 16 else 8

/-- The operand width in bytes. -/
def Mode.bytes (m : Mode) : Nat := if m.short then 2 else 1

end Sys2Proof

namespace Sys2Proof.Machine

/-- A byte as a data value: zero-extended (R9). -/
def zext8 (b : Byte) : Short := b.setWidth 16

/-- `sext8(b)`, as a short (R9). -/
def sext8 (b : Byte) : Short := b.signExtend 16

/-- `trunc_w(v)` (R9). -/
def truncTo (m : Mode) (v : Short) : Short := if m.short then v else zext8 (loByte v)

/-! ### Effective addresses (R226) -/

/-- LDZ, STZ: the byte, zero-extended to 16 bits (R220, R221). -/
def eaZero (a : Byte) : Short := zext8 a

/-- LDR, STR: `(pc1 + sext8(o)) mod 65536` (R222, R223). -/
def eaRelative (pc1 : Short) (o : Byte) : Short := pc1 + sext8 o

/-- LDA, STA: the short itself (R224, R225). -/
def eaAbsolute (a : Short) : Short := a

/-! ### Jump targets -/

/-- `Jump(a)`: absolute in short mode, else the low byte as a signed offset (R134). -/
def jumpTarget (m : Mode) (pc1 a : Short) : Short := if m.short then a else pc1 + sext8 (loByte a)

/-- The address after a three-byte instruction whose opcode byte is at `pc1 - 1`: JSI's return address, and the base of
JCI, JMI and JSI (R161 to R163). -/
def afterImmediate2 (pc1 : Short) : Short := pc1 + 2

/-- The target of JCI, JMI and JSI: `(pc1 + 2 + off16) mod 65536` (R82). -/
def immediateTarget (pc1 off : Short) : Short := afterImmediate2 pc1 + off

/-! ### Arithmetic, bitwise, shift (47_arith.md). `a` is the deeper operand, `b` the top one. -/

/-- R180. -/
def aluInc (m : Mode) (a : Short) : Short := truncTo m (a + 1)

/-- R250. -/
def aluAdd (m : Mode) (a b : Short) : Short := truncTo m (a + b)

/-- R251. -/
def aluSub (m : Mode) (a b : Short) : Short := truncTo m (a - b)

/-- R252. -/
def aluMul (m : Mode) (a b : Short) : Short := truncTo m (a * b)

/-- R253: the unsigned floor quotient; asked for only where `b` is not 0. -/
def aluDiv (a b : Short) : Short := a / b

/-- R254. -/
def aluAnd (a b : Short) : Short := a &&& b

/-- R255. -/
def aluOra (a b : Short) : Short := a ||| b

/-- R256. -/
def aluEor (a b : Short) : Short := a ^^^ b

/-- R257: right by the low nibble of the control byte first, then left by the high nibble, truncated last. -/
def aluSft (m : Mode) (a : Short) (c : Byte) : Short :=
  truncTo m ((a >>> (c.toNat % 16)) <<< (c.toNat / 16))

end Sys2Proof.Machine
end

