-- ==== Sys2Proof/Machine/Flags.lean ====
section
/-! DEFINITION. The machine has no flags and no condition codes (10_state.md R28). What takes their place: the 8-bit
booleans that the comparisons push (43_compare.md R200 to R203) and the "non-zero" test of JCI and JCN (R161, R211). -/

namespace Sys2Proof.Machine

/-- True is 0x01, false is 0x00 (43_compare.md). -/
def boolByte (c : Bool) : Byte := if c then 0x01 else 0x00

/-- The condition of JCI and JCN: any of 0x01..0xFF (R161, R211). -/
def isTrue (c : Byte) : Bool := c != 0

/-- R200. `a` is the deeper operand. -/
def cmpEqu (a b : Short) : Byte := boolByte (a == b)

/-- R201. -/
def cmpNeq (a b : Short) : Byte := boolByte (a != b)

/-- R202: unsigned. -/
def cmpGth (a b : Short) : Byte := boolByte (b.ult a)

/-- R203: unsigned. -/
def cmpLth (a b : Short) : Byte := boolByte (a.ult b)

end Sys2Proof.Machine
end

