-- ==== Sys2Proof/Machine/Ops.lean ====
section
/-! DEFINITION. The named operations over memory, the stacks, the program counter and the host boundary: the stack
primitives (40_primitives_decoder_loop.md R120 to R134), memory access (20_memory.md), the host's turn (10_state.md R38),
and taking a fault (60_exceptions.md R270 to R277). -/

namespace Sys2Proof.Machine

/-! ### Memory -/

/-- What an address that is not listed reads as: every byte of the machine is 0 after reset (R39). -/
def Memory.unlisted : Byte := 0

/-- Read one byte. -/
def Memory.read (m : Memory) (a : Nat) : Byte :=
  match m with
  | [] => Memory.unlisted
  | (k, b) :: t => if k = a then b else Memory.read t a

/-- Write one byte, keeping the canonical form. -/
def Memory.write (m : Memory) (a : Nat) (v : Byte) : Memory :=
  match m with
  | [] => if v = Memory.unlisted then [] else [(a, v)]
  | (k, b) :: t =>
    if a < k then (if v = Memory.unlisted then (k, b) :: t else (a, v) :: (k, b) :: t)
    else if a = k then (if v = Memory.unlisted then t else (a, v) :: t)
    else (k, b) :: Memory.write t a v

/-- The canonical form, from address `lo` on: addresses strictly rising and below `size`, no entry as an unlisted
address reads. -/
def Memory.wfFrom (lo size : Nat) (m : Memory) : Bool :=
  match m with
  | [] => true
  | (k, b) :: t => decide (lo ≤ k) && decide (k < size) && b != Memory.unlisted && Memory.wfFrom (k + 1) size t

/-- The canonical form of a memory of `size` bytes. -/
def Memory.wf (size : Nat) (m : Memory) : Bool := Memory.wfFrom 0 size m

/-! ### Ram (R50, R55, R56): page 0 of the backing buffer -/

/-- The buffer's key of byte `a` of page `p` (R32). -/
def pageKey (p : Fin 16) (a : Short) : Nat := p.val * Config.ramPageSize + a.toNat

/-- The buffer's key of `Ram[a]` (R32, R52). -/
def ramKey (a : Short) : Nat := pageKey 0 a

/-- `Ram[a]`: `MemRead(a, 1)` (R55). -/
def State.memRead1 (s : State) (a : Short) : Byte := s.mem.read (ramKey a)

/-- `MemRead(a, 2)`: the second byte is at `(a + 1) mod 65536` (R52, R55). -/
def State.memRead2 (s : State) (a : Short) : Short := joinBytes (s.memRead1 a) (s.memRead1 (a + 1))

/-- `MemWrite(a, 1, v)` (R56). -/
def State.memWrite1 (s : State) (a : Short) (v : Byte) : State := { s with mem := s.mem.write (ramKey a) v }

/-- `MemWrite(a, 2, v)`: the high byte, then the low byte at `(a + 1) mod 65536` (R52, R56). -/
def State.memWrite2 (s : State) (a v : Short) : State := (s.memWrite1 a (hiByte v)).memWrite1 (a + 1) (loByte v)

/-! ### The stacks -/

/-- The stack named `k`. -/
def State.stack (s : State) (k : StackId) : Stack :=
  match k with
  | .wst => s.wst
  | .rst => s.rst

/-- Replace the stack named `k`. -/
def State.setStack (s : State) (k : StackId) (t : Stack) : State :=
  match k with
  | .wst => { s with wst := t }
  | .rst => { s with rst := t }

/-- The stack byte at index `i` (R21). -/
def Stack.byte (t : Stack) (i : Byte) : Byte := t.dat.read i.toNat

/-- The contents of a stack, deepest byte first: `dat[0] .. dat[ptr-1]` (R21). -/
def Stack.contents (t : Stack) : List Byte := (List.range t.ptr.toNat).map t.dat.read

/-- Store one byte at the pointer and advance it (the effect of R120 where it does not fault). -/
def Stack.put8 (t : Stack) (v : Byte) : Stack := ⟨t.dat.write t.ptr.toNat v, t.ptr + 1⟩

/-- Store one short, the high byte deeper (R23; the effect of R121 where it does not fault). -/
def Stack.put16 (t : Stack) (v : Short) : Stack := (t.put8 (hiByte v)).put8 (loByte v)

/-! ### The program counter of the innermost activation (R25) -/

/-- The program counter of the innermost activation; 0 where none is live (notes/assumptions/12.md). -/
def State.pc (s : State) : Short :=
  match s.acts with
  | [] => 0
  | a :: _ => a.pc

/-- Change the innermost activation. -/
def State.mapInner (s : State) (f : Activation → Activation) : State :=
  match s.acts with
  | [] => s
  | a :: rest => { s with acts := f a :: rest }

/-- `pc <- t` (R26). -/
def State.setPc (s : State) (t : Short) : State := s.mapInner fun a => { a with pc := t }

/-! ### The decoder's primitives

An instruction's pseudocode is a `Micro` program: it runs its statements in order, and a `raise` ends it with the effects
of the statements before it kept (R270, R274). -/

/-- What an executing instruction can change: the machine and its keep cursor (R33). -/
structure Local where
  st : State
  kc : Option Byte
  deriving DecidableEq, Repr

/-- How a piece of pseudocode ends: with a result, or by raising a fault; either way with the effects so far. -/
inductive Res (α : Type) where
  | ok (a : α) (l : Local)
  | raised (f : VmFault) (l : Local)
  deriving DecidableEq, Repr

/-- A piece of pseudocode with result `α`. -/
abbrev Micro (α : Type) := Local → Res α

/-- One statement, then the rest with its result; a fault raised by the statement ends both (R10, R270). -/
def andThen {α β : Type} (x : Micro α) (rest : α → Micro β) : Micro β := fun l =>
  match x l with
  | .ok a l' => rest a l'
  | .raised f l' => .raised f l'

/-- Nothing more to do. -/
def done {α : Type} (a : α) : Micro α := fun l => .ok a l

/-- The cursor of the pops: the keep cursor in keep mode, else the stored pointer of the source stack (R123, R132). -/
def Local.cursor (l : Local) (k : StackId) : Byte :=
  match l.kc with
  | some c => c
  | none => (l.st.stack k).ptr

/-- Move the cursor: the keep cursor in keep mode, else the stored pointer of the source stack (R123, R132). -/
def Local.setCursor (l : Local) (k : StackId) (c : Byte) : Local :=
  match l.kc with
  | some _ => { l with kc := some c }
  | none => { l with st := l.st.setStack k { l.st.stack k with ptr := c } }

/-- `Pop8()` from source stack `k` (R123). -/
def pop8 (k : StackId) : Micro Byte := fun l =>
  let c := l.cursor k
  if c = 0 then .raised .underflow l
  else .ok ((l.st.stack k).byte (c - 1)) (l.setCursor k (c - 1))

/-- `Pop16()` from source stack `k`: the deeper byte is the high byte (R124). -/
def pop16 (k : StackId) : Micro Short := fun l =>
  let c := l.cursor k
  if c.toNat ≤ 1 then .raised .underflow l
  else .ok (joinBytes ((l.st.stack k).byte (c - 2)) ((l.st.stack k).byte (c - 1))) (l.setCursor k (c - 2))

/-- `Pop()`: a short in short mode, else a byte (R125). -/
def popValue (m : Mode) : Micro Short :=
  if m.short then pop16 m.src else andThen (pop8 m.src) fun b => done (zext8 b)

/-- `Push8(S, v)`: always at the stored pointer (R120). -/
def push8 (k : StackId) (v : Byte) : Micro Unit := fun l =>
  if (l.st.stack k).ptr = 255 then .raised .overflow l
  else .ok () { l with st := l.st.setStack k ((l.st.stack k).put8 v) }

/-- `Push16(S, v)`: always at the stored pointer; nothing is written on Overflow (R121). -/
def push16 (k : StackId) (v : Short) : Micro Unit := fun l =>
  if (l.st.stack k).ptr.toNat ≥ 254 then .raised .overflow l
  else .ok () { l with st := l.st.setStack k ((l.st.stack k).put16 v) }

/-- `Push(S, v)`: a short in short mode, else the low byte (R122). -/
def pushValue (m : Mode) (k : StackId) (v : Short) : Micro Unit :=
  if m.short then push16 k v else push8 k (loByte v)

/-- `Peek(a)` (R129). -/
def peek (m : Mode) (a : Short) : Micro Short := fun l =>
  .ok (if m.short then l.st.memRead2 a else zext8 (l.st.memRead1 a)) l

/-- `Poke(a, v)` (R129). -/
def poke (m : Mode) (a v : Short) : Micro Unit := fun l =>
  .ok () { l with st := if m.short then l.st.memWrite2 a v else l.st.memWrite1 a (loByte v) }

/-- The program counter, as the instruction sees it. -/
def getPc : Micro Short := fun l => .ok l.st.pc l

/-- `pc <- t` (R10). -/
def putPc (t : Short) : Micro Unit := fun l => .ok () { l with st := l.st.setPc t }

/-- `Jump(a)` (R134). -/
def jump (m : Mode) (a : Short) : Micro Unit :=
  andThen getPc fun pc =>
  putPc (jumpTarget m pc a)

/-- `raise F` (R270). -/
def raise (f : VmFault) : Micro Unit := fun l => .raised f l

/-! ### The enable byte -/

/-- The enable byte lets the core fetch: non-zero means run (R30; notes/assumptions/10.md). The ONE place its polarity
stands in. -/
def State.enabled (s : State) : Bool := s.dev.read Config.devEnable != 0

/-! ### The host's turn (R36, R38) -/

/-- `HostRead` (R36). -/
def State.hostRead (s : State) (sp : Space) : Byte :=
  match sp with
  | .page p a => s.mem.read (pageKey p a)
  | .wstDat i => s.wst.byte i
  | .wstPtr => s.wst.ptr
  | .rstDat i => s.rst.byte i
  | .rstPtr => s.rst.ptr
  | .dev i => s.dev.read i.toNat

/-- `HostWrite` (R36). Every 8-bit pointer value is legal (R38 (d); 93_implementation_defined.md U10). -/
def State.hostWrite (s : State) (sp : Space) (v : Byte) : State :=
  match sp with
  | .page p a => { s with mem := s.mem.write (pageKey p a) v }
  | .wstDat i => { s with wst := { s.wst with dat := s.wst.dat.write i.toNat v } }
  | .wstPtr => { s with wst := { s.wst with ptr := v } }
  | .rstDat i => { s with rst := { s.rst with dat := s.rst.dat.write i.toNat v } }
  | .rstPtr => { s with rst := { s.rst with ptr := v } }
  | .dev i => { s with dev := s.dev.write i.toNat v }

/-- The core tells the host something. -/
def State.tell (s : State) (e : Event) : State := { s with log := e :: s.log }

/-- How a turn of the host ended. -/
inductive HostStop where
  /-- It called `Eval`: an activation was started and the core is active. -/
  | called
  /-- It returned from the callback it is in, with this byte. -/
  | returned (v : Byte)
  /-- It goes on acting in the next step. -/
  | paused
  /-- The script has nothing more. -/
  | silent
  deriving DecidableEq, Repr

/-- One turn of the host: it acts until it calls `Eval`, returns, pauses, or has nothing more to do. `Eval(entry)` starts an
activation whose first loop test is the core's (R140). -/
def hostRun (script : List HostAction) (s : State) : HostStop × State :=
  match script with
  | [] => (.silent, { s with script := [] })
  | .read sp :: rest => hostRun rest (s.tell (.hostRead sp (s.hostRead sp)))
  | .write sp v :: rest => hostRun rest (s.hostWrite sp v)
  | .eval entry :: rest => (.called, { s with script := rest, acts := ⟨entry, false, none⟩ :: s.acts })
  | .ret v :: rest => (.returned v, { s with script := rest })
  | .pause :: rest => (.paused, { s with script := rest })

/-- The host's turn inside a callback of the innermost activation: when it returns (or has nothing more to do, entry 2
of the log), `k` is what the core does next; the byte is absent where the script gave none. A host that calls `Eval` or
pauses leaves the activation waiting. -/
def hostTurn (k : Option Byte → State → State) (s : State) : State :=
  match hostRun s.script s with
  | (.called, t) => t
  | (.paused, t) => t
  | (.returned v, t) => k (some v) (t.mapInner fun a => { a with call := none })
  | (.silent, t) => k none (t.mapInner fun a => { a with call := none })

/-- Call the host: the innermost activation waits in callback `aw` while the host acts (R36, R38 (b)). -/
def callHost (d : Decoder) (aw : Await) (k : Option Byte → State → State) (s : State) : State :=
  hostTurn k (s.mapInner fun a => { a with call := some ⟨d, aw⟩ })

/-- The byte a `DeviceIn` returned: the script's, or a free value (notes/assumptions/2.md). -/
def inputByte (b : Option Byte) (s : State) : Byte × State :=
  match b with
  | some v => (v, s)
  | none => (Config.deviceByte s.freeCount, { s with freeCount := s.freeCount + 1 })

/-! ### The end of an activation, and taking a fault -/

/-- `Eval` returns `r` to its caller; the activation's program counter is discarded (R25, R37). -/
def State.endActivation (s : State) (r : EvalResult) : State :=
  { s with acts := s.acts.tail, log := .evalReturn r :: s.log }

/-- The error code of a fault (R271). -/
def VmFault.code (f : VmFault) : Byte :=
  match f with
  | .underflow => 1
  | .overflow => 2
  | .divideByZero => 3

/-- Taking a fault: the ONE trap entry of the machine (R272, R276). `Halt(ins, code, (pc1 - 1) mod 65536)` is called, the
host acts in it (R281), and the activation ends with `Fault(code)`. Nothing is saved in the core and no pc is set; there
is no return from it (R277). `faultSeen` is the record R278 asks a model to keep. -/
def raiseFault (d : Decoder) (f : VmFault) (s : State) : State :=
  callHost d (.halt f) (fun _ t => t.endActivation (.fault f))
    { s.tell (.halt d.ins f.code (d.pc1 - 1)) with faultSeen := true }

/-! ### Running an instruction's pseudocode -/

/-- The decoder's state when an instruction starts: `pc` is `pc1` (R27), and in keep mode the keep cursor is the source
stack's pointer (R132). -/
def startDecoder (ins : Byte) (m : Mode) (s : State) : Decoder :=
  ⟨ins, m, s.pc, if m.keep then some (s.stack m.src).ptr else none⟩

/-- Run pseudocode `p`; then `k` continues with its result, or the fault it raised is taken. -/
def deliverThen {α : Type} (d : Decoder) (p : Micro α) (k : α → Local → State) (s : State) : State :=
  match p ⟨s, d.kc⟩ with
  | .ok a l => k a l
  | .raised f l => raiseFault { d with kc := l.kc } f l.st

/-- Run pseudocode `p` to its end. -/
def deliver (d : Decoder) (p : Micro Unit) (s : State) : State := deliverThen d p (fun _ l => l.st) s

/-- The answer of a meaning whose instruction is the pseudocode `p`, run with the modes `m`. -/
def runMicro (i : Instr) (m : Mode) (p : Micro Unit) (s : State) : Host.Outcome State Fault Refusal :=
  .next (deliver (startDecoder i.opcode m s) p s)

end Sys2Proof.Machine
end

