-- ==== Sys2Proof/Machine/Arith.lean ====
section
/-! DEFINITION. Arithmetic, bitwise, shift (47_arith.md R250 to R259): the deeper operand is the left-hand one; results
are reduced to the operand width. -/

namespace Sys2Proof.Machine

/-- The shape of the two-operand instructions: `a b -- f a b`. -/
def combineWith (m : Mode) (f : Short → Short → Short) : Micro Unit :=
  andThen (popValue m) fun b =>
  andThen (popValue m) fun a =>
  pushValue m m.src (f a b)

/-- ADD, trunc_w(a + b) (R250). -/
def execAdd (m : Mode) (s : State) : Host.Outcome State Fault Refusal :=
  runMicro (.add m) m (combineWith m (aluAdd m)) s

/-- SUB, trunc_w(a - b) (R251). -/
def execSub (m : Mode) (s : State) : Host.Outcome State Fault Refusal :=
  runMicro (.sub m) m (combineWith m (aluSub m)) s

/-- MUL, trunc_w(a * b) (R252). -/
def execMul (m : Mode) (s : State) : Host.Outcome State Fault Refusal :=
  runMicro (.mul m) m (combineWith m (aluMul m)) s

/-- DIV, the unsigned floor quotient (R253). The divisor is tested after both pops and before the push. -/
def execDiv (m : Mode) (s : State) : Host.Outcome State Fault Refusal :=
  runMicro (.div m) m (
    andThen (popValue m) fun b =>
    andThen (popValue m) fun a =>
    if b = 0 then raise .divideByZero
    else pushValue m m.src (aluDiv a b)) s

/-- AND, bitwise and (R254). -/
def execAnd (m : Mode) (s : State) : Host.Outcome State Fault Refusal :=
  runMicro (.and m) m (combineWith m aluAnd) s

/-- ORA, bitwise inclusive or (R255). -/
def execOra (m : Mode) (s : State) : Host.Outcome State Fault Refusal :=
  runMicro (.ora m) m (combineWith m aluOra) s

/-- EOR, bitwise exclusive or (R256). -/
def execEor (m : Mode) (s : State) : Host.Outcome State Fault Refusal :=
  runMicro (.eor m) m (combineWith m aluEor) s

/-- SFT `a c8 -- r` (R257): the control byte is one byte in short mode too. -/
def execSft (m : Mode) (s : State) : Host.Outcome State Fault Refusal :=
  runMicro (.sft m) m (
    andThen (pop8 m.src) fun c =>
    andThen (popValue m) fun a =>
    pushValue m m.src (aluSft m a c)) s

end Sys2Proof.Machine
end

