-- ==== Sys2Proof/Machine/Compare.lean ====
section
/-! DEFINITION. Comparisons (43_compare.md R200 to R204): two operands of the operand width, the deeper one on the left;
the result is one byte, in short mode too. -/

namespace Sys2Proof.Machine

/-- The shape of the four comparisons: `a b -- c8`. -/
def compareWith (m : Mode) (f : Short → Short → Byte) : Micro Unit :=
  andThen (popValue m) fun b =>
  andThen (popValue m) fun a =>
  push8 m.src (f a b)

/-- EQU, equal (R200). -/
def execEqu (m : Mode) (s : State) : Host.Outcome State Fault Refusal :=
  runMicro (.equ m) m (compareWith m cmpEqu) s

/-- NEQ, not equal (R201). -/
def execNeq (m : Mode) (s : State) : Host.Outcome State Fault Refusal :=
  runMicro (.neq m) m (compareWith m cmpNeq) s

/-- GTH, greater than, unsigned (R202). -/
def execGth (m : Mode) (s : State) : Host.Outcome State Fault Refusal :=
  runMicro (.gth m) m (compareWith m cmpGth) s

/-- LTH, less than, unsigned (R203). -/
def execLth (m : Mode) (s : State) : Host.Outcome State Fault Refusal :=
  runMicro (.lth m) m (compareWith m cmpLth) s

end Sys2Proof.Machine
end

