-- ==== Sys2Proof/Machine/Control.lean ====
section
/-! DEFINITION. Control transfer and stash (44_control.md R210 to R214). When a meaning starts, pc is `pc1` (R27). -/

namespace Sys2Proof.Machine

/-- JMP `a --` (R210). -/
def execJmp (m : Mode) (s : State) : Host.Outcome State Fault Refusal :=
  runMicro (.jmp m) m (
    andThen (popValue m) fun a =>
    jump m a) s

/-- JCN `c8 a --` (R211): the condition is one byte in short mode too; both operands are popped either way. -/
def execJcn (m : Mode) (s : State) : Host.Outcome State Fault Refusal :=
  runMicro (.jcn m) m (
    andThen (popValue m) fun a =>
    andThen (pop8 m.src) fun c =>
    if isTrue c then jump m a else done ()) s

/-- JSR `a -- | ret16` (R212): `pc1` as a short on the other stack, then the jump. -/
def execJsr (m : Mode) (s : State) : Host.Outcome State Fault Refusal :=
  runMicro (.jsr m) m (
    andThen (popValue m) fun a =>
    andThen getPc fun pc1 =>
    andThen (push16 m.dst pc1) fun _ =>
    jump m a) s

/-- STH `a -- | a` (R213). -/
def execSth (m : Mode) (s : State) : Host.Outcome State Fault Refusal :=
  runMicro (.sth m) m (
    andThen (popValue m) fun a =>
    pushValue m m.dst a) s

end Sys2Proof.Machine
end

