-- ==== Sys2Proof/Machine/Device.lean ====
section
/-! DEFINITION. Device access (46_device.md R240 to R244). Every pop comes before the first callback (R136); in each
callback the host may change any state and start nested activations (10_state.md R38 (b)), and the instruction then
continues with its own popped values on the state the host left (R243). The core neither reads nor writes `Dev` here. -/

namespace Sys2Proof.Machine

/-- Call `DeviceIn(port)` (R36); `k` continues with what it returned. -/
def deviceIn (d : Decoder) (port : Byte) (aw : Await) (k : Option Byte → State → State) (s : State) : State :=
  callHost d aw k (s.tell (.deviceIn port))

/-- Call `DeviceOut(port, value)` (R36). -/
def deviceOut (d : Decoder) (port value : Byte) (aw : Await) (k : Option Byte → State → State) (s : State) : State :=
  callHost d aw k (s.tell (.deviceOut port value))

/-! ### What each callback returns to -/

/-- DEI in byte mode, after its callback: push the byte (R240). -/
def afterDeiByte (d : Decoder) (b : Option Byte) (s : State) : State :=
  match inputByte b s with
  | (v, t) => deliver d (push8 d.mode.src v) t

/-- DEI in short mode, after its second callback: push the short (R240). -/
def afterDeiLow (d : Decoder) (hi : Byte) (b : Option Byte) (s : State) : State :=
  match inputByte b s with
  | (lo, t) => deliver d (push16 d.mode.src (joinBytes hi lo)) t

/-- DEI in short mode, after its first callback: `DeviceIn((p + 1) mod 256)` (R240). -/
def afterDeiHigh (d : Decoder) (port : Byte) (b : Option Byte) (s : State) : State :=
  match inputByte b s with
  | (hi, t) => deviceIn d (port + 1) (.deiLow hi) (afterDeiLow d hi) t

/-- DEO after its last callback: the instruction is done (R241). -/
def afterDeoLast (_ : Option Byte) (s : State) : State := s

/-- DEO in short mode, after its first callback: `DeviceOut((p + 1) mod 256, v[7:0])` (R241). -/
def afterDeoHigh (d : Decoder) (port lo : Byte) (_ : Option Byte) (s : State) : State :=
  deviceOut d (port + 1) lo .deoLast afterDeoLast s

/-- What the core does when the callback `aw` returns. After `Halt` the activation ends: nothing resumes it (R277,
R281). -/
def resume (d : Decoder) (aw : Await) : Option Byte → State → State :=
  match aw with
  | .deiByte => afterDeiByte d
  | .deiHigh port => afterDeiHigh d port
  | .deiLow hi => afterDeiLow d hi
  | .deoHigh port lo => afterDeoHigh d port lo
  | .deoLast => afterDeoLast
  | .halt f => fun _ s => s.endActivation (.fault f)

/-! ### The instructions -/

/-- DEI `p8 -- v` (R240). -/
def execDei (m : Mode) (s : State) : Host.Outcome State Fault Refusal :=
  let d := startDecoder (Instr.dei m).opcode m s
  .next (deliverThen d (pop8 m.src) (fun p l =>
    let d := { d with kc := l.kc }
    if m.short then deviceIn d p (.deiHigh p) (afterDeiHigh d p) l.st
    else deviceIn d p .deiByte (afterDeiByte d) l.st) s)

/-- DEO `v p8 --` (R241). -/
def execDeo (m : Mode) (s : State) : Host.Outcome State Fault Refusal :=
  let d := startDecoder (Instr.deo m).opcode m s
  .next (deliverThen d (
      andThen (pop8 m.src) fun p =>
      andThen (popValue m) fun v =>
      done (p, v)) (fun pv l =>
    let d := { d with kc := l.kc }
    if m.short then deviceOut d pv.1 (hiByte pv.2) (.deoHigh pv.1 (loByte pv.2)) (afterDeoHigh d pv.1 (loByte pv.2)) l.st
    else deviceOut d pv.1 (loByte pv.2) .deoLast afterDeoLast l.st) s)

end Sys2Proof.Machine
end

