-- ==== Sys2Proof/Machine/Immediate.lean ====
section
/-! DEFINITION. The immediate family (41_immediate.md R160 to R168; modes by 40_primitives_decoder_loop.md R135: no keep
cursor, JCI pops from the working stack, JSI pushes to the return stack). When a meaning starts, the program counter is
`pc1`, the address of the byte after the opcode byte (R27). The immediate bytes were read there by the decoder. -/

namespace Sys2Proof.Machine

/-- BRK: no state change; the activation ends with `Break` (R160). -/
def execBrk (s : State) : Host.Outcome State Fault Refusal := .next (s.endActivation .broke)

/-- JCI (R161). The offset bytes are skipped where the jump is not taken. -/
def execJci (off : Short) (s : State) : Host.Outcome State Fault Refusal :=
  runMicro (.jci off) .plain (
    andThen (pop8 .wst) fun c =>
    andThen getPc fun pc1 =>
    putPc (if isTrue c then immediateTarget pc1 off else afterImmediate2 pc1)) s

/-- JMI (R162). -/
def execJmi (off : Short) (s : State) : Host.Outcome State Fault Refusal :=
  runMicro (.jmi off) .plain (
    andThen getPc fun pc1 =>
    putPc (immediateTarget pc1 off)) s

/-- JSI (R163): the push comes before the jump. -/
def execJsi (off : Short) (s : State) : Host.Outcome State Fault Refusal :=
  runMicro (.jsi off) .plain (
    andThen getPc fun pc1 =>
    andThen (push16 .rst (afterImmediate2 pc1)) fun _ =>
    putPc (immediateTarget pc1 off)) s

/-- The four LITs over a one-byte literal: skip it, then push (R164, R166). -/
def literalByte (k : StackId) (v : Byte) : Micro Unit :=
  andThen getPc fun pc1 =>
  andThen (putPc (pc1 + 1)) fun _ =>
  push8 k v

/-- The four LITs over a two-byte literal: skip it, then push (R165, R167). -/
def literalShort (k : StackId) (v : Short) : Micro Unit :=
  andThen getPc fun pc1 =>
  andThen (putPc (pc1 + 2)) fun _ =>
  push16 k v

/-- LIT (R164). -/
def execLit (v : Byte) (s : State) : Host.Outcome State Fault Refusal :=
  runMicro (.lit v) .plain (literalByte .wst v) s

/-- LIT2 (R165). -/
def execLit2 (v : Short) (s : State) : Host.Outcome State Fault Refusal :=
  runMicro (.lit2 v) ⟨true, false, false⟩ (literalShort .wst v) s

/-- LITr (R166). -/
def execLitr (v : Byte) (s : State) : Host.Outcome State Fault Refusal :=
  runMicro (.litr v) ⟨false, true, false⟩ (literalByte .rst v) s

/-- LIT2r (R167). -/
def execLit2r (v : Short) (s : State) : Host.Outcome State Fault Refusal :=
  runMicro (.lit2r v) ⟨true, true, false⟩ (literalShort .rst v) s

end Sys2Proof.Machine
end

