-- ==== Sys2Proof/Machine/LoadStore.lean ====
section
/-! DEFINITION. Loads and stores (45_memory_ops.md R220 to R226): the address is the top operand and has a fixed width;
the value has the operand width. All pops come before the access. -/

namespace Sys2Proof.Machine

/-- LDZ `a8 -- v` (R220). -/
def execLdz (m : Mode) (s : State) : Host.Outcome State Fault Refusal :=
  runMicro (.ldz m) m (
    andThen (pop8 m.src) fun a =>
    andThen (peek m (eaZero a)) fun v =>
    pushValue m m.src v) s

/-- STZ `v a8 --` (R221). -/
def execStz (m : Mode) (s : State) : Host.Outcome State Fault Refusal :=
  runMicro (.stz m) m (
    andThen (pop8 m.src) fun a =>
    andThen (popValue m) fun v =>
    poke m (eaZero a) v) s

/-- LDR `o8 -- v` (R222). -/
def execLdr (m : Mode) (s : State) : Host.Outcome State Fault Refusal :=
  runMicro (.ldr m) m (
    andThen (pop8 m.src) fun o =>
    andThen getPc fun pc1 =>
    andThen (peek m (eaRelative pc1 o)) fun v =>
    pushValue m m.src v) s

/-- STR `v o8 --` (R223). -/
def execStr (m : Mode) (s : State) : Host.Outcome State Fault Refusal :=
  runMicro (.str m) m (
    andThen (pop8 m.src) fun o =>
    andThen (popValue m) fun v =>
    andThen getPc fun pc1 =>
    poke m (eaRelative pc1 o) v) s

/-- LDA `a16 -- v` (R224). -/
def execLda (m : Mode) (s : State) : Host.Outcome State Fault Refusal :=
  runMicro (.lda m) m (
    andThen (pop16 m.src) fun a =>
    andThen (peek m (eaAbsolute a)) fun v =>
    pushValue m m.src v) s

/-- STA `v a16 --` (R225). -/
def execSta (m : Mode) (s : State) : Host.Outcome State Fault Refusal :=
  runMicro (.sta m) m (
    andThen (pop16 m.src) fun a =>
    andThen (popValue m) fun v =>
    poke m (eaAbsolute a) v) s

end Sys2Proof.Machine
end

