-- ==== Sys2Proof/Machine/Shuffle.lean ====
section
/-! DEFINITION. Stack shuffles (42_stack.md R180 to R187): all pops from `src`, all pushes to `src`, pc left at `pc1`. -/

namespace Sys2Proof.Machine

/-- INC `a -- a+1` (R180). -/
def execInc (m : Mode) (s : State) : Host.Outcome State Fault Refusal :=
  runMicro (.inc m) m (
    andThen (popValue m) fun a =>
    pushValue m m.src (aluInc m a)) s

/-- POP `a --` (R181). -/
def execPop (m : Mode) (s : State) : Host.Outcome State Fault Refusal :=
  runMicro (.pop m) m (
    andThen (popValue m) fun _ =>
    done ()) s

/-- NIP `a b -- b` (R182). -/
def execNip (m : Mode) (s : State) : Host.Outcome State Fault Refusal :=
  runMicro (.nip m) m (
    andThen (popValue m) fun b =>
    andThen (popValue m) fun _ =>
    pushValue m m.src b) s

/-- SWP `a b -- b a` (R183). -/
def execSwp (m : Mode) (s : State) : Host.Outcome State Fault Refusal :=
  runMicro (.swp m) m (
    andThen (popValue m) fun b =>
    andThen (popValue m) fun a =>
    andThen (pushValue m m.src b) fun _ =>
    pushValue m m.src a) s

/-- ROT `a b c -- b c a` (R184). -/
def execRot (m : Mode) (s : State) : Host.Outcome State Fault Refusal :=
  runMicro (.rot m) m (
    andThen (popValue m) fun c =>
    andThen (popValue m) fun b =>
    andThen (popValue m) fun a =>
    andThen (pushValue m m.src b) fun _ =>
    andThen (pushValue m m.src c) fun _ =>
    pushValue m m.src a) s

/-- DUP `a -- a a` (R185). -/
def execDup (m : Mode) (s : State) : Host.Outcome State Fault Refusal :=
  runMicro (.dup m) m (
    andThen (popValue m) fun a =>
    andThen (pushValue m m.src a) fun _ =>
    pushValue m m.src a) s

/-- OVR `a b -- a b a` (R186). -/
def execOvr (m : Mode) (s : State) : Host.Outcome State Fault Refusal :=
  runMicro (.ovr m) m (
    andThen (popValue m) fun b =>
    andThen (popValue m) fun a =>
    andThen (pushValue m m.src a) fun _ =>
    andThen (pushValue m m.src b) fun _ =>
    pushValue m m.src a) s

end Sys2Proof.Machine
end

