-- ==== Sys2Proof/Machine/Loop.lean ====
section
/-! DEFINITION. The parts of the `Eval` loop (40_primitives_decoder_loop.md R140 to R146), and the host's boot
(70_reset_and_hazards.md R302). -/

namespace Sys2Proof.Machine

/-- The test at the loop top, before every fetch: the result `Eval` returns where it stops there. The program counter is
tested first (R37, R140, R143). -/
def loopEnd (a : Activation) (s : State) : Option EvalResult :=
  if a.pc = 0 then some (if a.started then .pcZero else .notStarted)
  else if s.enabled then none
  else some (if a.started then .disabled else .notStarted)

/-- The instruction at address `pc`: its opcode byte and the two bytes after it, addresses wrapping at 16 bits (R57,
R141). Reading bytes an instruction does not have changes nothing (R60). -/
def State.fetch (s : State) (pc : Short) : Instr :=
  decodeBytes (s.memRead1 pc) (s.memRead1 (pc + 1)) (s.memRead1 (pc + 2))

/-- The opcode byte has been fetched: the program counter is `pc1` and the activation has started (R140, R141). -/
def State.beginInstr (s : State) : State := s.mapInner fun a => { a with pc := a.pc + 1, started := true }

/-- The host's turn between activations (R38 (a)). Nothing to do leaves the machine as it is (R291). -/
def hostIdle (s : State) : Host.Outcome State Fault Refusal :=
  match hostRun s.script s with
  | (.returned _, _) => .fault .returnWithoutCall
  | (.called, t) => .next t
  | (.paused, t) => .next t
  | (.silent, t) => .next t

/-- The bytes of an image, as the host's writes from address `a` of page 0 on. -/
def loadImage (image : List Byte) (a : Short) : List HostAction :=
  match image with
  | [] => []
  | b :: rest => .write (.page 0 a) b :: loadImage rest (a + 1)

/-- The host's boot (R302): the ROM to `Ram[0x0100...]`, a non-zero enable byte, `Eval(0x0100)`. A ROM that does not fit
is refused (93_implementation_defined.md U13). -/
def bootScript (rom : List Byte) : Option (List HostAction) :=
  if rom.length ≤ Config.romMax then
    some (loadImage rom Config.resetVector ++ [.write (.dev 0x0F) 1, .eval Config.resetVector])
  else none

end Sys2Proof.Machine
end

