-- ==== Sys2Proof/Machine/Step.lean ====
section
/-! DEFINITION. One step of the machine: one iteration of the `Eval` loop (R146), or one turn of the host where the host
is the active agent. -/

namespace Sys2Proof.Machine

/-- One step. No live activation: the host acts (R38 (a)). The innermost activation waits in a callback: the host acts
and, when it returns, the instruction is finished (R38 (b), R243). Else one loop iteration (R140). -/
def step (s : State) : Host.Outcome State Fault Refusal :=
  match s.acts with
  | [] => hostIdle s
  | a :: _ =>
    match a.call with
    | some c => .next (hostTurn (resume c.dec c.await) s)
    | none =>
      match loopEnd a s with
      | some r => .next (s.endActivation r)
      | none => exec (s.fetch a.pc) s.beginInstr

/-- `s` with an innermost activation that the core runs at a program counter other than 0, and a non-zero enable byte:
what a fetch needs (R140). A machine with no running activation gets one at 0x0100, as the host would start it (R302). -/
def State.readyToFetch (s : State) : State :=
  { s with
    acts :=
      match s.acts with
      | [] => [⟨Config.resetVector, false, none⟩]
      | ⟨pc, started, none⟩ :: rest => ⟨if pc = 0 then Config.resetVector else pc, started, none⟩ :: rest
      | ⟨pc, started, some c⟩ :: rest => ⟨Config.resetVector, false, none⟩ :: ⟨pc, started, some c⟩ :: rest
    dev := if s.enabled then s.dev else s.dev.write Config.devEnable 1 }

/-- `s` with the instruction of a table word stored where the next step fetches (notes/assumptions/3.md). -/
def State.withFetchWord (s : State) (nbits w : Nat) : State :=
  let t := s.readyToFetch
  ((t.memWrite1 t.pc (tableByte nbits w 0)).memWrite1 (t.pc + 1) (tableByte nbits w 1)).memWrite1
    (t.pc + 2) (tableByte nbits w 2)

end Sys2Proof.Machine
end

