-- ==== Sys2Proof/Machine/HostArgument.lean ====
section
/-! DEFINITION. The host as an argument of the machine (00_scope.md R6; 93_implementation_defined.md U1): any functions over
a state of its own. `step` takes the host's actions from the script in State; here they come, one a step, from the host's
own state, which has heard every call with its arguments before it answers. -/

namespace Sys2Proof.Machine

/-- A host with its own state `σ` (R6, U1). It learns of the core only what the transactions of R36 tell it. -/
structure HostParam (σ : Type) where
  /-- Its state after the core has told it something: a call with its port, value or fault arguments, the result of an
  `Eval`, the byte a `HostRead` read. -/
  hear : σ → Event → σ
  /-- What it does next where it is the active agent, and its state once it has done it: so it goes on to its next action
  whether or not the core answers this one. `pause` for ever is the host that never returns (R314, U11). -/
  act : σ → σ × HostAction

/-- The host that performs a list of actions, one after the other, and then pauses. -/
def listHost : HostParam (List HostAction) where
  hear l _ := l
  act l :=
    match l with
    | [] => ([], .pause)
    | a :: rest => (rest, a)

/-- The host is the active agent: no activation is live, or the innermost one waits in a callback (R38). -/
def State.hostIsActive (s : State) : Bool :=
  match s.acts with
  | [] => true
  | a :: _ => a.call.isSome

/-- What the core has told the host between two states, in order. -/
def newEvents (s t : State) : List Event := (t.log.take (t.log.length - s.log.length)).reverse

/-- What host `H` in state `g` brings to a step from `s`: its state after its action and the script of the step. An active
host does one thing; one that is not waits, and goes on acting in the first callback the core makes. -/
def hostMove {σ : Type} (H : HostParam σ) (g : σ) (s : State) : σ × List HostAction :=
  if s.hostIsActive then ((H.act g).1, [(H.act g).2, .pause]) else (g, [.pause])

/-- One step of the machine under host `H` (R6): the active host does one thing, or the core runs one loop iteration, up to
the first callback in it; then `H` hears what it was told. The script is empty between steps. -/
def stepUnder {σ : Type} (H : HostParam σ) (gs : σ × State) : Host.Outcome (σ × State) Fault Refusal :=
  let move := hostMove H gs.1 gs.2
  match step { gs.2 with script := move.2 } with
  | .next t => .next ((newEvents gs.2 t).foldl H.hear move.1, { t with script := [] })
  | .fault f => .fault f
  | .refused r => .refused r

/-- The machine under host `H`, from reset, with `H` in state `g`: claims over all hosts are claims over all `H` and `g`. -/
def machineUnder {σ : Type} (H : HostParam σ) (g : σ) : Host.Core :=
  { State := σ × State, Fault := Fault, Refusal := Refusal, step := stepUnder H, reset := (g, State.reset) }

end Sys2Proof.Machine
end

