-- ==== Sys2Proof/Machine/Spelling.lean ====
section
/-! DEFINITION. How the assembler spells bytes (30_encoding.md R90 to R99), beside the core: the assembler itself is
outside the block (00_scope.md R4 (a)), its notation is not. A token is a list of characters. -/

namespace Sys2Proof.Machine

/-- The 32-entry mnemonic table: `LIT` at index 0 with the keep bit forced on, then the 31 base mnemonics in the order of
R84 (R92). -/
def mnemonicTable : List (List Char × Byte) :=
  [(['L', 'I', 'T'], 0x80), (['I', 'N', 'C'], 0x01), (['P', 'O', 'P'], 0x02), (['N', 'I', 'P'], 0x03),
   (['S', 'W', 'P'], 0x04), (['R', 'O', 'T'], 0x05), (['D', 'U', 'P'], 0x06), (['O', 'V', 'R'], 0x07)] ++
  [(['E', 'Q', 'U'], 0x08), (['N', 'E', 'Q'], 0x09), (['G', 'T', 'H'], 0x0A), (['L', 'T', 'H'], 0x0B),
   (['J', 'M', 'P'], 0x0C), (['J', 'C', 'N'], 0x0D), (['J', 'S', 'R'], 0x0E), (['S', 'T', 'H'], 0x0F)] ++
  [(['L', 'D', 'Z'], 0x10), (['S', 'T', 'Z'], 0x11), (['L', 'D', 'R'], 0x12), (['S', 'T', 'R'], 0x13),
   (['L', 'D', 'A'], 0x14), (['S', 'T', 'A'], 0x15), (['D', 'E', 'I'], 0x16), (['D', 'E', 'O'], 0x17)] ++
  [(['A', 'D', 'D'], 0x18), (['S', 'U', 'B'], 0x19), (['M', 'U', 'L'], 0x1A), (['D', 'I', 'V'], 0x1B),
   (['A', 'N', 'D'], 0x1C), (['O', 'R', 'A'], 0x1D), (['E', 'O', 'R'], 0x1E), (['S', 'F', 'T'], 0x1F)]

/-- The mode bit of a suffix character (R91). -/
def suffixBit (c : Char) : Option Byte :=
  if c = '2' then some 0x20 else if c = 'r' then some 0x40 else if c = 'k' then some 0x80 else none

/-- The suffixes fold into the byte; order and repetition do not matter; an unrecognised one is "not found" (R91). -/
def foldSuffixes (b : Byte) (suffixes : List Char) : Option Byte :=
  match suffixes with
  | [] => some b
  | c :: rest =>
    match suffixBit c with
    | some bit => foldSuffixes (b ||| bit) rest
    | none => none

/-- `OpCodeTable.find`: the opcode byte of a mnemonic, or not found (R91, R92). BRK, JCI, JMI and JSI are not in the
table (R92, R93). -/
def findOpcode (token : List Char) : Option Byte :=
  match mnemonicTable.lookup (token.take 3) with
  | some b => foldSuffixes b (token.drop 3)
  | none => none

/-- The canonical spelling of an opcode byte (R98): the base mnemonic, then `2`, `k`, `r` where present. -/
def spellOpcode (ins : Byte) : List Char :=
  if ins = 0x00 then ['B', 'R', 'K']
  else if ins = 0x20 then ['J', 'C', 'I']
  else if ins = 0x40 then ['J', 'M', 'I']
  else if ins = 0x60 then ['J', 'S', 'I']
  else
    let op := ins.toNat % 32
    let base := ((mnemonicTable[op]?).map Prod.fst).getD []
    base ++ (if ins.getLsbD 5 then ['2'] else []) ++ (if ins.getLsbD 7 && op != 0 then ['k'] else [])
      ++ (if ins.getLsbD 6 then ['r'] else [])

/-! ### Hex digits and the bytes a token emits (R94, R96, R97) -/

/-- A lower-case hex digit (R96). -/
def hexDigit (c : Char) : Option Nat :=
  if '0' ≤ c ∧ c ≤ '9' then some (c.toNat - '0'.toNat)
  else if 'a' ≤ c ∧ c ≤ 'f' then some (c.toNat - 'a'.toNat + 10)
  else none

/-- A raw hex literal: two digits give a byte, four a short, its first two digits first (R94, R96). -/
def hexLiteral (digits : List Char) : Option (List Byte) :=
  match digits.mapM hexDigit with
  | some [a, b] => some [BitVec.ofNat 8 (16 * a + b)]
  | some [a, b, c, d] => some [BitVec.ofNat 8 (16 * a + b), BitVec.ofNat 8 (16 * c + d)]
  | _ => none

/-- The bytes `#hh` and `#hhll` emit: LIT or LIT2, then the literal (R94, R97). -/
def emitLiteral (digits : List Char) : Option (List Byte) :=
  match hexLiteral digits with
  | some [v] => some [0x80, v]
  | some [h, l] => some [0xA0, h, l]
  | _ => none

/-- The bytes a token emits at the write cursor in pass 1, placeholders being 0xFF (R94). A comment emits nothing; what
stands inside one is skipped by `emitTokens`. Absent: a malformed `#` literal, and the rows R94 puts out of scope
(`~path`, `%name`; a macro's name reads here as any other token). A token that is neither a rune form, nor BRK, a mnemonic
or a hex literal is an implicit call. DESIGN CHOICE (notes/assumptions/14.md), where R90 and R94 leave it open: `[` and `]`
are no-ops only as tokens of one character, and a longer token that starts with one is read like one without a rune; a
character of a `"text` token whose code is above 0xFF gives the byte of its code modulo 256. -/
def emitToken (token : List Char) : Option (List Byte) :=
  match token with
  | '~' :: _ | '%' :: _ => none
  | '(' :: _ => some []
  | '|' :: _ | '$' :: _ | '@' :: _ | '&' :: _ => some []
  | ['['] | [']'] => some []
  | '#' :: digits => emitLiteral digits
  | '_' :: _ | '-' :: _ => some [0xFF]
  | ',' :: _ | '.' :: _ => some [0x80, 0xFF]
  | ':' :: _ | '=' :: _ => some [0xFF, 0xFF]
  | ';' :: _ => some [0xA0, 0xFF, 0xFF]
  | '?' :: _ => some [0x20, 0xFF, 0xFF]
  | '!' :: _ => some [0x40, 0xFF, 0xFF]
  | ['B', 'R', 'K'] => some [0x00]
  | c :: rest =>
    if c.toNat = 34 then some (rest.map fun x => BitVec.ofNat 8 x.toNat)
    else
      match findOpcode (c :: rest), hexLiteral (c :: rest) with
      | some b, _ => some [b]
      | none, some bytes => some bytes
      | none, none => some [0x60, 0xFF, 0xFF]
  | [] => none

/-- How deep in comments a text is after the characters of `token` (R94: "balanced, nestable"). -/
def commentDepth (depth : Nat) (token : List Char) : Nat := depth + token.count '(' - token.count ')'

/-- The bytes a sequence of tokens emits, in order (R94): from a token that starts with `(` to the one that balances it,
all tokens are one comment. Absent where a token's bytes are, or where a comment is not closed (notes/assumptions/14.md). -/
def emitTokens (depth : Nat) (tokens : List (List Char)) : Option (List Byte) :=
  match tokens with
  | [] => if depth = 0 then some [] else none
  | token :: rest =>
    if depth = 0 ∧ token.head? ≠ some '(' then
      match emitToken token, emitTokens 0 rest with
      | some bytes, some more => some (bytes ++ more)
      | _, _ => none
    else emitTokens (commentDepth depth token) rest

/-- The characters that delimit tokens (R90). -/
def isDelimiter (c : Char) : Bool := c == ' ' || c == '\n' || c == '\t' || c == '\r'

/-- The tokens of a text, the empty ones left out (R90). -/
def tokensOf (text : List Char) : List (List Char) :=
  let add (c : Char) (tokens : List (List Char)) : List (List Char) :=
    match tokens with
    | [] => [[c]]
    | token :: rest => if isDelimiter c then [] :: token :: rest else (c :: token) :: rest
  (text.foldr add [[]]).filter (· ≠ [])

/-- The bytes a text emits (R90, R94). -/
def emitText (text : List Char) : Option (List Byte) := emitTokens 0 (tokensOf text)

/-! ### The patches of pass 2 (R95): `site` is the address of the first placeholder byte -/

/-- `_` and `,`: one byte, signed 8-bit `target - (site + 2)`; absent where it is out of range. -/
def patchRelative8 (site target : Nat) : Option Byte :=
  let off : Int := target - (site + 2)
  if -128 ≤ off ∧ off ≤ 127 then some (BitVec.ofInt 8 off) else none

/-- `-` and `.`: the low byte of the target. -/
def patchLow8 (target : Short) : Byte := loByte target

/-- `:`, `=` and `;`: the absolute target, high byte first. -/
def patchAbsolute (target : Short) : List Byte := shortBytes target

/-- `?`, `!` and implicit calls: two bytes, `target - (site + 2)`, no range check. -/
def patchRelative16 (site target : Short) : List Byte := shortBytes (target - (site + 2))

end Sys2Proof.Machine
end

