-- ==== Sys2Proof/Safety.lean ====
section
/-! DEFINITION. What claims call a legal state and a good end of a run, and the words claims use for the stacks: depths
and items as numbers (00_scope.md R9, R11). -/

namespace Sys2Proof.Machine

/-- Only the innermost activation can be running: every other one waits in a callback (10_state.md R34). -/
def outerWait (acts : List Activation) : Bool := acts.tail.all fun a => a.call.isSome

/-- A waiting activation waits in a call that its own instruction makes: `DeviceIn` only in a DEI, `DeviceOut` only in a
DEO, two calls only in short mode (R58, R240, R241), `Halt` in any (R272). The program counter of a waiting DEI or DEO is
its `pc1` (R27). -/
def callFits (a : Activation) : Bool :=
  match a.call with
  | none => true
  | some ⟨d, .deiByte⟩ => d.ins == (Instr.dei d.mode).opcode && !d.mode.short && a.pc == d.pc1
  | some ⟨d, .deiHigh _⟩ => d.ins == (Instr.dei d.mode).opcode && d.mode.short && a.pc == d.pc1
  | some ⟨d, .deiLow _⟩ => d.ins == (Instr.dei d.mode).opcode && d.mode.short && a.pc == d.pc1
  | some ⟨d, .deoHigh _ _⟩ => d.ins == (Instr.deo d.mode).opcode && d.mode.short && a.pc == d.pc1
  | some ⟨d, .deoLast⟩ => d.ins == (Instr.deo d.mode).opcode && a.pc == d.pc1
  | some ⟨_, .halt _⟩ => true

/-- The legal states: the four memories are in canonical form within their sizes (R21, R31, R32), and the activations are
nested as R34 says. -/
def State.wf (s : State) : Bool :=
  s.mem.wf Config.bufferSize && s.wst.dat.wf Config.stackSize && s.rst.dat.wf Config.stackSize &&
    s.dev.wf Config.devSize && outerWait s.acts

/-- Every waiting activation waits in a call its own instruction makes. -/
def State.callsFit (s : State) : Bool := s.acts.all callFits

/-- A run has had no fault (R278). -/
def State.noFault (s : State) : Bool := !s.faultSeen

/-- The ends of a run that a claim may accept (R147): a fault never, `NotStarted` means that the run did not happen. -/
def EvalResult.accepted (r : EvalResult) : Bool :=
  match r with
  | .broke => true
  | .pcZero => true
  | .disabled => true
  | .notStarted => false
  | .fault _ => false

/-! ### Depths and items as numbers -/

/-- How many bytes stack `k` holds: its stored pointer (R21). -/
def State.depth (s : State) (k : StackId) : Nat := (s.stack k).ptr.toNat

/-- The stack byte `dat[i]` (R21), as a number. -/
def State.datum (s : State) (k : StackId) (i : Nat) : Nat := ((s.stack k).dat.read i).toNat

/-- The byte of stack `k` with `off` bytes above it, as a number (R21). -/
def State.byteBelow (s : State) (k : StackId) (off : Nat) : Nat := s.datum k (s.depth k - 1 - off)

/-- The short of stack `k` with `off` bytes above it, the deeper byte being the high byte (R23), as a number. -/
def State.shortBelow (s : State) (k : StackId) (off : Nat) : Nat :=
  256 * s.datum k (s.depth k - 2 - off) + s.datum k (s.depth k - 1 - off)

/-- The item of the operand width with `off` bytes above it on the source stack (R11). -/
def State.item (s : State) (m : Mode) (off : Nat) : Nat :=
  if m.short then s.shortBelow m.src off else s.byteBelow m.src off

/-- The state after pops of `p` bytes in all: the source pointer is `p` lower, in keep mode nothing has changed (R132). -/
def State.popped (s : State) (m : Mode) (p : Nat) : State :=
  if m.keep then s
  else s.setStack m.src { s.stack m.src with ptr := BitVec.ofNat 8 (s.depth m.src - p) }

/-- There is room on the source stack to push `q` bytes after pops of `p` bytes (R137). -/
abbrev State.room (s : State) (m : Mode) (p q : Nat) : Prop :=
  (if m.keep then s.depth m.src else s.depth m.src - p) + q ≤ 255

/-- The state with the byte `v` on top of stack `k` (R120). -/
def State.withByte (s : State) (k : StackId) (v : Nat) : State :=
  s.setStack k ⟨(s.stack k).dat.write (s.depth k) (BitVec.ofNat 8 v), BitVec.ofNat 8 (s.depth k + 1)⟩

/-- The state with the short `v` on top of stack `k`, its high byte deeper (R23, R121). -/
def State.withShort (s : State) (k : StackId) (v : Nat) : State := (s.withByte k (v / 256)).withByte k (v % 256)

/-- The state with the item `v` of the operand width on top of stack `k` (R122). -/
def State.withItem (s : State) (m : Mode) (k : StackId) (v : Nat) : State :=
  if m.short then s.withShort k v else s.withByte k v

/-- `Ram[a]` as a number (R50). -/
def State.ram (s : State) (a : Nat) : Nat := (s.mem.read a).toNat

/-- The item of the operand width at `Ram[a]`: a short has its high byte at `a` and its low byte at `(a + 1) mod 65536`
(R52, R53, R55). -/
def State.ramItem (s : State) (m : Mode) (a : Nat) : Nat :=
  if m.short then 256 * s.ram a + s.ram ((a + 1) % 65536) else s.ram a

/-- The state with the item `v` of the operand width stored at `Ram[a]` (R56). -/
def State.withRamItem (s : State) (m : Mode) (a v : Nat) : State :=
  if m.short then
    { s with mem := (s.mem.write a (BitVec.ofNat 8 (v / 256))).write ((a + 1) % 65536) (BitVec.ofNat 8 (v % 256)) }
  else { s with mem := s.mem.write a (BitVec.ofNat 8 v) }

/-- `sext8(b)` as an integer (R9). -/
def sextInt (b : Nat) : Int := if b < 128 then b else (b : Int) - 256

/-- `(pc1 + sext8(o)) mod 65536` (R134, R222, R223). -/
def relativeTo (pc1 o : Nat) : Nat := ((pc1 + sextInt o) % 65536).toNat

/-- Instructions that write `Ram` (R58). -/
def storesToRam (i : Instr) : Bool :=
  match i with
  | .stz _ | .str _ | .sta _ => true
  | _ => false

/-- The state after the instruction of opcode byte `ins` at `pc - 1` has faulted with `f` and a host with nothing to do
has been told: the activation is gone, and nothing but the log and the model's fault record has changed (R272, R276). -/
def State.afterFault (s : State) (ins : Byte) (f : VmFault) : State :=
  { s with
    acts := s.acts.tail
    faultSeen := true
    log := .evalReturn (.fault f) :: .halt ins f.code (s.pc - 1) :: s.log }

/-! ### The host's accesses -/

/-- The action reads or writes one place, and leaves the activations alone (R36). -/
def HostAction.isAccess (a : HostAction) : Bool :=
  match a with
  | .read _ | .write _ _ => true
  | .eval _ | .ret _ | .pause => false

/-- The state after these accesses of the host's, in order; the core notes what a read gave it. -/
def State.afterAccesses (s : State) (accesses : List HostAction) : State :=
  match accesses with
  | [] => s
  | .read sp :: more => { s with log := .hostRead sp (s.hostRead sp) :: s.log }.afterAccesses more
  | .write sp v :: more => (s.hostWrite sp v).afterAccesses more
  | .eval _ :: more | .ret _ :: more | .pause :: more => s.afterAccesses more

end Sys2Proof.Machine
end

