-- ==== Sys2Proof/Certificates/Slice0/Obligations.lean ====
section
/-! DEFINITION. The statements for the provers. They are said in the words of Safety.lean (depths and items as numbers),
and each states the whole next state where it states a result, so that nothing else changes. -/

open Sys2Proof Sys2Proof.Machine

namespace Sys2Proof.Claims

/-- The 31 base opcodes in the order of 30_encoding.md R84, as functions of the mode bits. -/
def baseInstrs : List (Mode → Instr) :=
  [Instr.inc, Instr.pop, Instr.nip, Instr.swp, Instr.rot, Instr.dup, Instr.ovr,
    Instr.equ, Instr.neq, Instr.gth, Instr.lth, Instr.jmp, Instr.jcn, Instr.jsr, Instr.sth,
    Instr.ldz, Instr.stz, Instr.ldr, Instr.str, Instr.lda, Instr.sta, Instr.dei, Instr.deo,
    Instr.add, Instr.sub, Instr.mul, Instr.div, Instr.and, Instr.ora, Instr.eor, Instr.sft]

/-- The modes an instruction runs with: its own, and for the immediate family plain ones (R135), with the source stack
the one it uses. -/
def modeOf (i : Instr) : Mode :=
  match i with
  | .brk | .jci _ | .jmi _ | .jsi _ | .lit _ => .plain
  | .lit2 _ => ⟨true, false, false⟩
  | .litr _ => ⟨false, true, false⟩
  | .lit2r _ => ⟨true, true, false⟩
  | .inc m | .pop m | .nip m | .swp m | .rot m | .dup m | .ovr m => m
  | .equ m | .neq m | .gth m | .lth m => m
  | .jmp m | .jcn m | .jsr m | .sth m => m
  | .ldz m | .stz m | .ldr m | .str m | .lda m | .sta m => m
  | .dei m | .deo m => m
  | .add m | .sub m | .mul m | .div m | .and m | .ora m | .eor m | .sft m => m

/-- The pops an instruction makes from `src`, in order, each with its size in bytes, read from the instruction rules. -/
def popSizes (i : Instr) : List Nat :=
  let B := (modeOf i).bytes
  match i with
  | .brk | .jmi _ | .jsi _ | .lit _ | .lit2 _ | .litr _ | .lit2r _ => []
  | .jci _ => [1]
  | .inc _ | .pop _ | .dup _ | .jmp _ | .jsr _ | .sth _ => [B]
  | .nip _ | .swp _ | .ovr _ | .equ _ | .neq _ | .gth _ | .lth _ => [B, B]
  | .add _ | .sub _ | .mul _ | .div _ | .and _ | .ora _ | .eor _ => [B, B]
  | .rot _ => [B, B, B]
  | .jcn _ => [B, 1]
  | .stz _ | .str _ | .deo _ | .sft _ => [1, B]
  | .ldz _ | .ldr _ | .dei _ => [1]
  | .lda _ => [2]
  | .sta _ => [2, B]

/-- The bytes an instruction pops from `src` in all (the p of R137). -/
def popBytes (i : Instr) : Nat := (popSizes i).sum

/-- The bytes an instruction pushes to `src` (the q of R137). -/
def pushSrc (i : Instr) : Nat :=
  let B := (modeOf i).bytes
  match i with
  | .brk | .jmi _ | .jsi _ | .jci _ => 0
  | .lit _ | .litr _ => 1
  | .lit2 _ | .lit2r _ => 2
  | .pop _ | .jmp _ | .jcn _ | .jsr _ | .sth _ | .stz _ | .str _ | .sta _ | .deo _ => 0
  | .equ _ | .neq _ | .gth _ | .lth _ => 1
  | .inc _ | .nip _ | .ldz _ | .ldr _ | .lda _ | .dei _ => B
  | .add _ | .sub _ | .mul _ | .div _ | .and _ | .ora _ | .eor _ | .sft _ => B
  | .swp _ | .dup _ => 2 * B
  | .rot _ | .ovr _ => 3 * B

/-- The bytes an instruction pushes to `dst` (the q' of R137). -/
def pushDst (i : Instr) : Nat :=
  match i with
  | .jsi _ | .jsr _ => 2
  | .sth m => m.bytes
  | _ => 0

/-- The divisor test of DIV (R253): the top item is 0. -/
def zeroDivisor (i : Instr) (s : State) : Bool :=
  match i with
  | .div m => s.item m 0 == 0
  | _ => false

/-- The fault of instruction `i` in state `s`, in closed form (R137, R273). -/
def closedFault (i : Instr) (s : State) : Option VmFault :=
  if s.depth (modeOf i).src < popBytes i then some .underflow
  else if zeroDivisor i s then some .divideByZero
  else if s.room (modeOf i) (popBytes i) (pushSrc i) ∧ s.depth (modeOf i).dst + pushDst i ≤ 255 then none
  else some .overflow

/-- The core is about to fetch at `pc` (R140): the innermost activation runs, `pc` is not 0, the enable byte is not 0. -/
def runsAt (s : State) (pc : Short) (started : Bool) (rest : List Activation) : Prop :=
  s.acts = ⟨pc, started, none⟩ :: rest ∧ pc ≠ 0 ∧ s.enabled = true

/-- The state with these items of the operand width pushed on stack `k`, in order. -/
def withItems (s : State) (m : Mode) (k : StackId) (vs : List Nat) : State := vs.foldl (fun t v => t.withItem m k v) s

/-- The state after the innermost activation, whose instruction kept `d`, has taken fault `f` and a host with nothing to
do has been told (R272, R276). -/
def faultTaken (d : Decoder) (f : VmFault) (s : State) : State :=
  { s with
    acts := s.acts.tail
    faultSeen := true
    log := .evalReturn (.fault f) :: .halt d.ins f.code (d.pc1 - 1) :: s.log }

/-- The port after `p` (R240, R241). -/
def nextPort (p : Byte) : Byte := BitVec.ofNat 8 ((p.toNat + 1) % 256)

/-- The program counter `n` bytes after `pc`, as a short (R26). -/
def pcPlus (pc : Short) (n : Nat) : Short := BitVec.ofNat 16 ((pc.toNat + n) % 65536)

end Sys2Proof.Claims

open Sys2Proof.Claims

/-! ### Encoding -/

/-- One word of each family, written out from R84, R85 and R87 (the opcode numbers are decisions D1 and D2 of the spec).
-/
def Obligations.SampleWordsDecode : Prop :=
  decode [0b00000000] = .ok (.brk, []) ∧
  decode [0b00100000, 0x00, 0x05] = .ok (.jci 0x0005, []) ∧
  decode [0b11100000, 0x01, 0x08] = .ok (.lit2r 0x0108, []) ∧
  decode [0b11000101] = .ok (.rot ⟨false, true, true⟩, []) ∧
  decode [0b10101010] = .ok (.gth ⟨true, false, true⟩, []) ∧
  decode [0b01101100] = .ok (.jmp ⟨true, true, false⟩, []) ∧
  decode [0b00110101] = .ok (.sta ⟨true, false, false⟩, []) ∧
  decode [0b10010111] = .ok (.deo ⟨false, false, true⟩, []) ∧
  decode [0b11111000] = .ok (.add ⟨true, true, true⟩, [])

/-- R80, R86, with the numbering of R84 (decision D1): base opcode `n + 1` in the low five bits and any three mode bits
(short 0x20, return 0x40, keep 0x80) decode to the `n`-th mnemonic of the list with those modes, and one byte is used. -/
def Obligations.BaseOpcodesHaveEightModes : Prop :=
  ∀ (n : Nat) (f : Mode → Instr) (s r k : Bool) (rest : List Byte), baseInstrs[n]? = some f →
    decode (BitVec.ofNat 8 (n + 1 + 32 * s.toNat + 64 * r.toNat + 128 * k.toNat) :: rest) = .ok (f ⟨s, r, k⟩, rest)

/-- R81, R88: every byte starts an instruction; its length is 1, 2 or 3, a function of the opcode byte alone, and the
bytes used are exactly its encoding. -/
def Obligations.EveryByteIsAnInstructionOfItsLength : Prop :=
  ∀ (b b1 b2 : Byte) (rest : List Byte), ∃ i tail, decode (b :: b1 :: b2 :: rest) = .ok (i, tail) ∧
    b :: b1 :: b2 :: rest = encode i ++ tail ∧
    (encode i).length =
      if b = 0x80 ∨ b = 0xC0 then 2
      else if b = 0xA0 ∨ b = 0xE0 ∨ b = 0x20 ∨ b = 0x40 ∨ b = 0x60 then 3
      else 1

/-- Decoding what was encoded gives it back, for every well-formed instruction and whatever follows it (R99 says it of
the opcode byte). -/
def Obligations.DecodeOfEncode : Prop :=
  ∀ (i : Instr) (rest : List Byte), i.wellFormed = true → decode (encode i ++ rest) = .ok (i, rest)

/-- The other direction: the bytes that decode to an instruction are its encoding, so no two byte sequences decode to one
instruction. -/
def Obligations.EncodeOfDecode : Prop :=
  ∀ (bytes rest : List Byte) (i : Instr), decode bytes = .ok (i, rest) → bytes = encode i ++ rest

/-- R99: every mnemonic of the assembler's table with any suffixes is found, and the byte found has its base opcode and
the mode bits of its suffixes. That the suffixes may stand in any order and be repeated is R91's own inference from the
document's word "fold"; the table's entry LIT with its keep bit forced is R92's, from general knowledge (log entry 14):
both are the spec's own readings. -/
def Obligations.SpellingRoundTrip : Prop :=
  ∀ (n : Nat) (name : List Char) (base : Byte) (suffixes : List Char), mnemonicTable[n]? = some (name, base) →
    (∀ c ∈ suffixes, c = '2' ∨ c = 'r' ∨ c = 'k') →
    ∃ b, findOpcode (name ++ suffixes) = some b ∧ b.toNat % 32 = n ∧
      modeField b = ⟨decide ('2' ∈ suffixes), decide ('r' ∈ suffixes), decide ('k' ∈ suffixes ∨ n = 0)⟩

/-- R95: the four patches. The high byte first in the two-byte patches is decision D3 (log entry 11), the base of the
one-byte relative patch D11, and site and target below 65536 the model's choice (log entry 14). The one-byte relative
patch is absent exactly where it is out of range, and elsewhere makes a byte-mode relative jump reach its target (`site
+ 2` is the `pc1` of the instruction after the literal); the low byte and the absolute patch; the two-byte relative
patch, which makes JCI, JMI and JSI reach their target (`site` is their `pc1`). -/
def Obligations.PatchesReachTheirTarget : Prop :=
  (∀ site target : Nat, site + 2 < 65536 → target < 65536 →
    (patchRelative8 site target = none ↔ target + 128 < site + 2 ∨ site + 2 + 127 < target) ∧
    ∀ b, patchRelative8 site target = some b → relativeTo (site + 2) b.toNat = target) ∧
  (∀ target : Short, (patchLow8 target).toNat = target.toNat % 256) ∧
  (∀ target : Short, patchAbsolute target =
    [BitVec.ofNat 8 (target.toNat / 256), BitVec.ofNat 8 (target.toNat % 256)]) ∧
  ∀ site target : Short, ∃ h l : Byte, patchRelative16 site target = [h, l] ∧
    (site.toNat + 2 + (256 * h.toNat + l.toNat)) % 65536 = target.toNat

/-! ### Reset, the loop and the host -/

/-- R39, R300 (the values are the spec's own choice, decision D17): after reset both stacks are empty, every stack byte,
every byte of the buffer and every device byte is 0, the core is not enabled and no activation is live. -/
def Obligations.ResetIsAllZero : Prop :=
  (∀ k, State.reset.depth k = 0) ∧ (∀ k i, State.reset.datum k i = 0) ∧ (∀ a, State.reset.mem.read a = 0) ∧
    (∀ i, State.reset.dev.read i = 0) ∧ State.reset.enabled = false ∧ State.reset.acts = []

/-- The state after reset is a legal state. -/
def Obligations.ResetIsLegal : Prop := State.reset.wf = true ∧ State.reset.callsFit = true

/-- R141: a step of a running activation that may fetch runs the instruction decoded at its program counter, with the
program counter incremented modulo 65536 and the activation marked as started. -/
def Obligations.StepRunsTheDecodedInstruction : Prop :=
  ∀ (s : State) (pc : Short) (started : Bool) (rest : List Activation),
    s.acts = ⟨pc, started, none⟩ :: rest → pc ≠ 0 → s.enabled = true →
    ∃ i tail, decode [s.memRead1 pc, s.memRead1 (pc + 1), s.memRead1 (pc + 2)] = .ok (i, tail) ∧
      step s = exec i { s with acts := ⟨pc + 1, true, none⟩ :: rest }

/-- R143: an activation that has not started and whose entry is 0, or that meets a zero enable byte, is over at once:
nothing is fetched, no host operation is called (the one event is the result handed back), no state changes. -/
def Obligations.EvalIsANoOpWhereItMayNotStart : Prop :=
  ∀ (s : State) (entry : Short) (rest : List Activation), s.acts = ⟨entry, false, none⟩ :: rest →
    entry = 0 ∨ s.dev.read 0x0F = 0 →
    step s = .next { s with acts := rest, log := .evalReturn .notStarted :: s.log }

/-- R142, R143 (that both tests come before every fetch is decision D19, that 0 is tested first is D20): at a loop top
with program counter 0, or with the enable byte 0, the activation ends with the result of R37, nothing is fetched and
nothing else changes. -/
def Obligations.LoopTopEndsTheActivation : Prop :=
  ∀ (s : State) (pc : Short) (started : Bool) (rest : List Activation), s.acts = ⟨pc, started, none⟩ :: rest →
    (pc = 0 → step s = .next { s with
      acts := rest, log := .evalReturn (if started then .pcZero else .notStarted) :: s.log }) ∧
    (pc ≠ 0 → s.dev.read 0x0F = 0 → step s = .next { s with
      acts := rest, log := .evalReturn (if started then .disabled else .notStarted) :: s.log })

/-- R38 (a), R291, R304: between activations the host acts; with nothing to do the machine stays as it is, and `Eval`
starts an activation at its entry on the state as it is. R6: the same under a host given as an argument, whose state
moves with each of its actions and hears what a `HostRead` read (that it does one thing a step, and may pause, is the
model's choice, log entry 1). -/
def Obligations.HostActsBetweenActivations : Prop :=
  ∀ s : State, s.acts = [] →
    (s.script = [] → step s = .next s) ∧
    (∀ entry l, s.script = .eval entry :: l →
      step s = .next { s with script := l, acts := [⟨entry, false, none⟩] }) ∧
    (∀ sp v entry l, s.script = .write sp v :: .eval entry :: l →
      step s = .next { s.hostWrite sp v with script := l, acts := [⟨entry, false, none⟩] }) ∧
    (∀ l, s.script = .pause :: l → step s = .next { s with script := l }) ∧
    ∀ (σ : Type) (H : HostParam σ) (g g' : σ),
      (∀ entry, H.act g = (g', .eval entry) →
        stepUnder H (g, s) = .next (g', { s with script := [], acts := [⟨entry, false, none⟩] })) ∧
      (∀ sp v, H.act g = (g', .write sp v) → stepUnder H (g, s) = .next (g', { s.hostWrite sp v with script := [] })) ∧
      (∀ sp, H.act g = (g', .read sp) → stepUnder H (g, s) = .next (H.hear g' (.hostRead sp (s.hostRead sp)),
        { s with script := [], log := .hostRead sp (s.hostRead sp) :: s.log })) ∧
      (H.act g = (g', .pause) → stepUnder H (g, s) = .next (g', { s with script := [] }))

/-- R36, R38 (a), R24: what the host writes to one place of the machine it reads back there, and every other place (the
pages of the buffer, both stacks and their pointers, the device page) reads as before: they share no storage. -/
def Obligations.HostWriteReachesOnePlace : Prop :=
  ∀ (s : State) (sp : Space) (v : Byte), s.wf = true →
    (s.hostWrite sp v).hostRead sp = v ∧
      ∀ other, other ≠ sp → (s.hostWrite sp v).hostRead other = s.hostRead other

/-- R302 (decisions D18, D19): the host's boot of a ROM that fits leaves it at `Ram[0x0100...]` and nothing else in Ram,
the core enabled, both stacks empty, and one activation about to fetch at 0x0100; a longer ROM is refused (U13). -/
def Obligations.BootStartsTheRom : Prop :=
  (∀ rom : List Byte, 65280 < rom.length → bootScript rom = none) ∧
  ∀ rom : List Byte, rom.length ≤ 65280 → ∃ script t, bootScript rom = some script ∧
    step { State.reset with script := script } = .next t ∧
    (∀ i, (h : i < rom.length) → t.mem.read (0x0100 + i) = rom[i]) ∧
    (∀ a, a < 0x0100 ∨ 0x0100 + rom.length ≤ a → t.mem.read a = 0) ∧
    t.enabled = true ∧ t.wst = Stack.empty ∧ t.rst = Stack.empty ∧ t.acts = [⟨0x0100, false, none⟩]

/-- R240, R241, R243, R277 (ports and order of a short transfer are decision D6, the reported address D14): what a step
does where the innermost activation waits in a callback, in any state, so also after a nested activation has ended. `h`
is the machine after the host's accesses, the waiting activation awake. Where the host returns the byte `v`: DEI pushes
it at the source pointer as the host left it, or takes an Overflow (R274, decision D15); DEI2 makes its second
`DeviceIn`, at the next port, and pushes the short; DEO2 makes its second `DeviceOut`; DEO is done; after `Halt` the
activation ends with its fault. Where the host instead calls `Eval`, the activation waits on in the same call with a
nested one above it (R34). Where the script ends, the host returns at once, and the byte is left open (log entry 2).
Where the host pauses, the activation waits on (log entry 1). -/
def Obligations.CallbackReturnsToItsInstruction : Prop :=
  ∀ (s : State) (pc : Short) (started : Bool) (d : Decoder) (aw : Await) (rest : List Activation)
    (accesses : List HostAction) (v : Byte) (l : List HostAction), s.acts = ⟨pc, started, some ⟨d, aw⟩⟩ :: rest →
    accesses.all HostAction.isAccess = true →
    (∀ entry, s.script = accesses ++ .eval entry :: l → step s = .next { s.afterAccesses accesses with
      script := l, acts := ⟨entry, false, none⟩ :: ⟨pc, started, some ⟨d, aw⟩⟩ :: rest }) ∧
    (s.script = accesses ++ .pause :: l → step s = .next { s.afterAccesses accesses with script := l }) ∧
    (s.script = accesses ++ .ret v :: l →
      ∀ h, h = { s.afterAccesses accesses with script := l, acts := ⟨pc, started, none⟩ :: rest } →
      match aw with
      | .deiByte =>
        (h.depth d.mode.src ≠ 255 → step s = .next (h.withByte d.mode.src v.toNat)) ∧
        (h.depth d.mode.src = 255 → l = [] → step s = .next (faultTaken d .overflow h))
      | .deiHigh port =>
        (∀ entry l', l = .eval entry :: l' → step s = .next { h with
          script := l'
          acts := ⟨entry, false, none⟩ :: ⟨pc, started, some ⟨d, .deiLow v⟩⟩ :: rest
          log := .deviceIn (nextPort port) :: h.log }) ∧
        (∀ w l', l = .ret w :: l' →
          (h.depth d.mode.src < 254 → step s = .next ({ h with
            script := l', log := .deviceIn (nextPort port) :: h.log }.withShort d.mode.src (256 * v.toNat + w.toNat))) ∧
          (254 ≤ h.depth d.mode.src → l' = [] → step s = .next (faultTaken d .overflow { h with
            script := l', log := .deviceIn (nextPort port) :: h.log })))
      | .deiLow hi =>
        (h.depth d.mode.src < 254 → step s = .next (h.withShort d.mode.src (256 * hi.toNat + v.toNat))) ∧
        (254 ≤ h.depth d.mode.src → l = [] → step s = .next (faultTaken d .overflow h))
      | .deoHigh port lo =>
        (∀ entry l', l = .eval entry :: l' → step s = .next { h with
          script := l'
          acts := ⟨entry, false, none⟩ :: ⟨pc, started, some ⟨d, .deoLast⟩⟩ :: rest
          log := .deviceOut (nextPort port) lo :: h.log }) ∧
        (∀ w l', l = .ret w :: l' ∨ l = [] ∧ l' = [] → step s = .next { h with
          script := l', log := .deviceOut (nextPort port) lo :: h.log })
      | .deoLast => step s = .next h
      | .halt f => step s = .next { h with acts := rest, log := .evalReturn (.fault f) :: h.log }) ∧
    (s.script = accesses →
      ∀ h, h = { s.afterAccesses accesses with script := [], acts := ⟨pc, started, none⟩ :: rest } →
      match aw with
      | .deiByte => h.depth d.mode.src ≠ 255 → ∃ (x : Byte) (n : Nat),
          step s = .next ({ h with freeCount := n }.withByte d.mode.src x.toNat)
      | .deiHigh port => h.depth d.mode.src < 254 → ∃ (x y : Byte) (n : Nat), step s = .next ({ h with
          freeCount := n
          log := .deviceIn (nextPort port) :: h.log }.withShort d.mode.src (256 * x.toNat + y.toNat))
      | .deiLow hi => h.depth d.mode.src < 254 → ∃ (x : Byte) (n : Nat),
          step s = .next ({ h with freeCount := n }.withShort d.mode.src (256 * hi.toNat + x.toNat))
      | .deoHigh port lo => step s = .next { h with log := .deviceOut (nextPort port) lo :: h.log }
      | .deoLast => step s = .next h
      | .halt f => step s = .next { h with acts := rest, log := .evalReturn (.fault f) :: h.log })

/-- R34, R38 (b): inside the callback of a DEO (byte mode) the host may start a nested activation; the outer one waits
with its program counter, and both share the state. -/
def Obligations.NestedActivationStartsInDeviceOut : Prop :=
  ∀ (s : State) (m : Mode) (pc1 : Short) (started : Bool) (rest : List Activation) (entry : Short)
    (l : List HostAction), s.acts = ⟨pc1, started, none⟩ :: rest → m.short = false → 2 ≤ s.depth m.src →
    s.script = .eval entry :: l →
    ∃ kc, exec (.deo m) s = .next { s.popped m 2 with
      script := l
      acts := ⟨entry, false, none⟩ ::
        ⟨pc1, started, some ⟨⟨(Instr.deo m).opcode, m, pc1, kc⟩, .deoLast⟩⟩ :: rest
      log := .deviceOut (BitVec.ofNat 8 (s.byteBelow m.src 0)) (BitVec.ofNat 8 (s.byteBelow m.src 1)) :: s.log }

/-! ### Memory and the stack primitives -/

/-- R55, R56: one-byte and two-byte reads and writes at every address, the second byte at `(a + 1) mod 65536`, the high
byte at the lower address (R53), and every other byte as before. -/
def Obligations.MemoryReadsAndWrites : Prop :=
  ∀ (s : State) (a v : Short) (b : Byte), s.wf = true →
    (s.memWrite1 a b).memRead1 a = b ∧
    (s.memRead2 a).toNat = 256 * (s.memRead1 a).toNat + (s.memRead1 (a + 1)).toNat ∧
    (s.memWrite2 a v).memRead2 a = v ∧
    ((s.memWrite2 a v).memRead1 a).toNat = v.toNat / 256 ∧
    ((s.memWrite2 a v).memRead1 (a + 1)).toNat = v.toNat % 256 ∧
    (∀ c, c ≠ a → (s.memWrite1 a b).memRead1 c = s.memRead1 c) ∧
    (∀ c, c ≠ a → c ≠ a + 1 → (s.memWrite2 a v).memRead1 c = s.memRead1 c)

/-- R120, R123: a byte push writes at the stored pointer and advances it, and faults with Overflow exactly at 255,
changing nothing; a byte pop reads below the cursor and lowers it, and faults with Underflow exactly at 0, changing
nothing. In keep mode the cursor is the keep cursor, and the push still uses the stored pointer. -/
def Obligations.BytePushAndPop : Prop :=
  ∀ (l : Local) (k : StackId) (v : Byte),
    (l.st.depth k = 255 → push8 k v l = .raised .overflow l) ∧
    (l.st.depth k ≠ 255 → push8 k v l = .ok () { l with st := l.st.withByte k v.toNat }) ∧
    (l.kc = none →
      (l.st.depth k = 0 → pop8 k l = .raised .underflow l) ∧
      (l.st.depth k ≠ 0 → pop8 k l = .ok (BitVec.ofNat 8 (l.st.datum k (l.st.depth k - 1)))
        { l with st := l.st.setStack k ⟨(l.st.stack k).dat, BitVec.ofNat 8 (l.st.depth k - 1)⟩ })) ∧
    (∀ c, l.kc = some c →
      (c = 0 → pop8 k l = .raised .underflow l) ∧
      (c ≠ 0 → pop8 k l = .ok (BitVec.ofNat 8 (l.st.datum k (c.toNat - 1))) { l with kc := some (c - 1) }))

/-- R121, R124 (the order of the two bytes is decision D3): a short push faults exactly at 254 and above and then writes
nothing; a short pop faults exactly at 1 and below and then removes nothing. -/
def Obligations.ShortPushAndPop : Prop :=
  ∀ (l : Local) (k : StackId) (v : Short),
    (254 ≤ l.st.depth k → push16 k v l = .raised .overflow l) ∧
    (l.st.depth k < 254 → push16 k v l = .ok () { l with st := l.st.withShort k v.toNat }) ∧
    (l.kc = none →
      (l.st.depth k ≤ 1 → pop16 k l = .raised .underflow l) ∧
      (2 ≤ l.st.depth k → pop16 k l = .ok (BitVec.ofNat 16 (l.st.shortBelow k 0))
        { l with st := l.st.setStack k ⟨(l.st.stack k).dat, BitVec.ofNat 8 (l.st.depth k - 2)⟩ })) ∧
    (∀ c, l.kc = some c →
      (c.toNat ≤ 1 → pop16 k l = .raised .underflow l) ∧
      (2 ≤ c.toNat → pop16 k l = .ok
        (BitVec.ofNat 16 (256 * l.st.datum k (c.toNat - 2) + l.st.datum k (c.toNat - 1))) { l with kc := some (c - 2) }))

/-- R128: a value pushed and popped again comes back, and the pointer is restored; a short comes back as its low byte,
then its high byte, to two byte pops. -/
def Obligations.StacksAreLastInFirstOut : Prop :=
  ∀ (l : Local) (k : StackId), l.st.wf = true → l.kc = none →
    (∀ v, l.st.depth k + 1 ≤ 255 → ∃ l', andThen (push8 k v) (fun _ => pop8 k) l = .ok v l' ∧
      l'.st.depth k = l.st.depth k) ∧
    (∀ v, l.st.depth k + 2 ≤ 255 → ∃ l', andThen (push16 k v) (fun _ => pop16 k) l = .ok v l' ∧
      l'.st.depth k = l.st.depth k) ∧
    (∀ v, l.st.depth k + 2 ≤ 255 → ∃ l', andThen (push16 k v) (fun _ => andThen (pop8 k) fun lo =>
        andThen (pop8 k) fun hi => done (hi, lo)) l = .ok (hiByte v, loByte v) l' ∧
      l'.st.depth k = l.st.depth k)

/-! ### The immediate family -/

/-- R160: BRK (byte 0x00) ends the activation with `Break` and changes nothing else. -/
def Obligations.BreakEndsTheActivation : Prop :=
  (∀ s : State, exec .brk s = .next { s with acts := s.acts.tail, log := .evalReturn .broke :: s.log }) ∧
  ∀ (s : State) (pc : Short) (started : Bool) (rest : List Activation), runsAt s pc started rest →
    s.memRead1 pc = 0x00 → step s = .next { s with acts := rest, log := .evalReturn .broke :: s.log }

/-- R162: JMI (byte 0x40) jumps to `(pc1 + 2 + MemRead(pc1, 2)) mod 65536`, and nothing else changes: the meaning, whose
program counter is `pc1`, and the whole step, from the fetch at `pc1 - 1` on. -/
def Obligations.ImmediateJump : Prop :=
  (∀ (s : State) (off pc1 : Short) (started : Bool) (call : Option Callback) (rest : List Activation),
    s.acts = ⟨pc1, started, call⟩ :: rest →
    exec (.jmi off) s = .next { s with acts := ⟨pcPlus pc1 (2 + off.toNat), started, call⟩ :: rest }) ∧
  ∀ (s : State) (pc : Short) (started : Bool) (rest : List Activation), runsAt s pc started rest →
    s.memRead1 pc = 0x40 → step s = .next { s with
      acts := ⟨pcPlus pc (3 + (s.memRead2 (pc + 1)).toNat), true, none⟩ :: rest }

/-- R161, R163 (stacks by decision D13, the untaken JCI by D24): JCI pops one byte from the working stack and jumps where
it is not zero; JSI pushes `pc1 + 2` to the return stack and jumps. Nothing else changes. -/
def Obligations.ImmediateConditionalJumpAndCall : Prop :=
  ∀ (s : State) (off pc1 : Short) (started : Bool) (call : Option Callback) (rest : List Activation),
    s.acts = ⟨pc1, started, call⟩ :: rest →
    (1 ≤ s.depth .wst → exec (.jci off) s = .next { s.popped .plain 1 with
      acts := ⟨pcPlus pc1 (if s.byteBelow .wst 0 ≠ 0 then 2 + off.toNat else 2), started, call⟩ :: rest }) ∧
    (s.depth .rst + 2 ≤ 255 → exec (.jsi off) s = .next { s.withShort .rst (pcPlus pc1 2).toNat with
      acts := ⟨pcPlus pc1 (2 + off.toNat), started, call⟩ :: rest })

/-- R164 to R167: LIT and LIT2 push their literal to the working stack, LITr and LIT2r to the return stack, and skip it.
Nothing else changes. -/
def Obligations.LiteralsArePushed : Prop :=
  ∀ (s : State) (b : Byte) (v pc1 : Short) (started : Bool) (call : Option Callback) (rest : List Activation),
    s.acts = ⟨pc1, started, call⟩ :: rest →
    (s.depth .wst + 1 ≤ 255 → exec (.lit b) s = .next { s.withByte .wst b.toNat with
      acts := ⟨pcPlus pc1 1, started, call⟩ :: rest }) ∧
    (s.depth .wst + 2 ≤ 255 → exec (.lit2 v) s = .next { s.withShort .wst v.toNat with
      acts := ⟨pcPlus pc1 2, started, call⟩ :: rest }) ∧
    (s.depth .rst + 1 ≤ 255 → exec (.litr b) s = .next { s.withByte .rst b.toNat with
      acts := ⟨pcPlus pc1 1, started, call⟩ :: rest }) ∧
    (s.depth .rst + 2 ≤ 255 → exec (.lit2r v) s = .next { s.withShort .rst v.toNat with
      acts := ⟨pcPlus pc1 2, started, call⟩ :: rest })

/-- R164 to R167, the whole step: the literal is the byte (in LIT2 and LIT2r the short) at `pc1`, the byte after the
opcode byte 0x80, 0xA0, 0xC0 or 0xE0; where it does not fit, the step takes an Overflow and pushes nothing. The order of a
short literal's bytes is decision D3 (log entry 11), the address told to `Halt` is D14 (log entry 8), and that a host with
an empty script returns at once is the model's choice (log entry 2). -/
def Obligations.LiteralsComeFromMemory : Prop :=
  ∀ (s : State) (pc : Short) (started : Bool) (rest : List Activation) (k : StackId), runsAt s pc started rest →
    (s.memRead1 pc = (match k with | .wst => 0x80 | .rst => 0xC0) →
      (s.depth k ≠ 255 → step s = .next { s.withByte k (s.memRead1 (pc + 1)).toNat with
        acts := ⟨pcPlus pc 2, true, none⟩ :: rest }) ∧
      (s.depth k = 255 → s.script = [] → step s = .next { s with
        acts := rest
        faultSeen := true
        log := .evalReturn (.fault .overflow) :: .halt (s.memRead1 pc) 2 pc :: s.log })) ∧
    (s.memRead1 pc = (match k with | .wst => 0xA0 | .rst => 0xE0) →
      (s.depth k < 254 → step s = .next { s.withShort k (s.memRead2 (pc + 1)).toNat with
        acts := ⟨pcPlus pc 3, true, none⟩ :: rest }) ∧
      (254 ≤ s.depth k → s.script = [] → step s = .next { s with
        acts := rest
        faultSeen := true
        log := .evalReturn (.fault .overflow) :: .halt (s.memRead1 pc) 2 pc :: s.log }))

/-! ### Stack shuffles -/

/-- R180 to R186 (the effects are decision D8): what INC, POP, NIP, SWP, ROT, DUP and OVR leave, in all eight modes.
The whole next state is given: the other stack, memory, the device page and the program counter do not change. -/
def Obligations.ShuffleResults : Prop :=
  ∀ (s : State) (m : Mode),
    (m.bytes ≤ s.depth m.src → s.room m m.bytes m.bytes → exec (.inc m) s =
      .next ((s.popped m m.bytes).withItem m m.src ((s.item m 0 + 1) % 2 ^ m.width))) ∧
    (m.bytes ≤ s.depth m.src → exec (.pop m) s = .next (s.popped m m.bytes)) ∧
    (2 * m.bytes ≤ s.depth m.src → s.room m (2 * m.bytes) m.bytes → exec (.nip m) s =
      .next ((s.popped m (2 * m.bytes)).withItem m m.src (s.item m 0))) ∧
    (2 * m.bytes ≤ s.depth m.src → s.room m (2 * m.bytes) (2 * m.bytes) → exec (.swp m) s =
      .next (((s.popped m (2 * m.bytes)).withItem m m.src (s.item m 0)).withItem m m.src (s.item m m.bytes))) ∧
    (3 * m.bytes ≤ s.depth m.src → s.room m (3 * m.bytes) (3 * m.bytes) → exec (.rot m) s =
      .next ((((s.popped m (3 * m.bytes)).withItem m m.src (s.item m m.bytes)).withItem m m.src
        (s.item m 0)).withItem m m.src (s.item m (2 * m.bytes)))) ∧
    (m.bytes ≤ s.depth m.src → s.room m m.bytes (2 * m.bytes) → exec (.dup m) s =
      .next (((s.popped m m.bytes).withItem m m.src (s.item m 0)).withItem m m.src (s.item m 0))) ∧
    (2 * m.bytes ≤ s.depth m.src → s.room m (2 * m.bytes) (3 * m.bytes) → exec (.ovr m) s =
      .next ((((s.popped m (2 * m.bytes)).withItem m m.src (s.item m m.bytes)).withItem m m.src
        (s.item m 0)).withItem m m.src (s.item m m.bytes)))

/-! ### Comparisons -/

/-- R200 to R203 (values, signedness and operand order are decision D7): the boolean is one byte, 0x01 or 0x00, in short
mode too; operands are unsigned and the deeper one is on the left. Nothing else changes. -/
def Obligations.ComparisonResults : Prop :=
  ∀ (s : State) (m : Mode), 2 * m.bytes ≤ s.depth m.src → s.room m (2 * m.bytes) 1 →
    exec (.equ m) s = .next ((s.popped m (2 * m.bytes)).withByte m.src
      (if s.item m m.bytes = s.item m 0 then 1 else 0)) ∧
    exec (.neq m) s = .next ((s.popped m (2 * m.bytes)).withByte m.src
      (if s.item m m.bytes ≠ s.item m 0 then 1 else 0)) ∧
    exec (.gth m) s = .next ((s.popped m (2 * m.bytes)).withByte m.src
      (if s.item m m.bytes > s.item m 0 then 1 else 0)) ∧
    exec (.lth m) s = .next ((s.popped m (2 * m.bytes)).withByte m.src
      (if s.item m m.bytes < s.item m 0 then 1 else 0))

/-! ### Control transfer and stash -/

/-- R210, R211 (operand order and condition width are decisions D9 and D12, the base of the offset is D11): JMP jumps to
the popped address, absolute in short mode, else relative to `pc1`; JCN does so where the byte below is not zero, and
leaves the program counter at `pc1` where it is. Nothing else changes. -/
def Obligations.JumpResults : Prop :=
  ∀ (s : State) (m : Mode) (pc1 : Short) (started : Bool) (call : Option Callback) (rest : List Activation),
    s.acts = ⟨pc1, started, call⟩ :: rest →
    (m.bytes ≤ s.depth m.src → exec (.jmp m) s = .next { s.popped m m.bytes with
      acts := ⟨BitVec.ofNat 16 (if m.short then s.item m 0 else relativeTo pc1.toNat (s.item m 0)), started, call⟩ ::
        rest }) ∧
    (m.bytes + 1 ≤ s.depth m.src → exec (.jcn m) s = .next { s.popped m (m.bytes + 1) with
      acts := ⟨BitVec.ofNat 16 (if s.byteBelow m.src m.bytes = 0 then pc1.toNat
        else if m.short then s.item m 0 else relativeTo pc1.toNat (s.item m 0)), started, call⟩ :: rest })

/-- R212, R213 (decision D26): JSR pushes `pc1` as a short to the other stack, in byte mode too, and jumps; STH moves the
top item to the other stack. Nothing else changes. -/
def Obligations.CallAndStashResults : Prop :=
  ∀ (s : State) (m : Mode) (pc1 : Short) (started : Bool) (call : Option Callback) (rest : List Activation),
    s.acts = ⟨pc1, started, call⟩ :: rest → m.bytes ≤ s.depth m.src →
    (s.depth m.dst + 2 ≤ 255 → exec (.jsr m) s = .next { (s.popped m m.bytes).withShort m.dst pc1.toNat with
      acts := ⟨BitVec.ofNat 16 (if m.short then s.item m 0 else relativeTo pc1.toNat (s.item m 0)), started, call⟩ ::
        rest }) ∧
    (s.depth m.dst + m.bytes ≤ 255 → exec (.sth m) s =
      .next ((s.popped m m.bytes).withItem m m.dst (s.item m 0)))

/-! ### Loads and stores -/

/-- R220, R222, R224 (decisions D3, D5, D9, D11): LDZ reads at the popped byte, LDR at `(pc1 + sext8(o)) mod 65536`, LDA
at the popped short; a short read takes its second byte at `(a + 1) mod 65536`. Nothing else changes, memory included. -/
def Obligations.LoadResults : Prop :=
  ∀ (s : State) (m : Mode) (pc1 : Short) (started : Bool) (call : Option Callback) (rest : List Activation),
    s.acts = ⟨pc1, started, call⟩ :: rest →
    (1 ≤ s.depth m.src → s.room m 1 m.bytes → exec (.ldz m) s =
      .next ((s.popped m 1).withItem m m.src (s.ramItem m (s.byteBelow m.src 0)))) ∧
    (1 ≤ s.depth m.src → s.room m 1 m.bytes → exec (.ldr m) s =
      .next ((s.popped m 1).withItem m m.src (s.ramItem m (relativeTo pc1.toNat (s.byteBelow m.src 0))))) ∧
    (2 ≤ s.depth m.src → s.room m 2 m.bytes → exec (.lda m) s =
      .next ((s.popped m 2).withItem m m.src (s.ramItem m (s.shortBelow m.src 0))))

/-- R221, R223, R225 (decisions D3, D5, D9, D11): the address is on top, the value below it; STZ writes at the popped
byte, STR at `(pc1 + sext8(o)) mod 65536`, STA at the popped short. Nothing but the pointer and the stored bytes
changes. -/
def Obligations.StoreResults : Prop :=
  ∀ (s : State) (m : Mode) (pc1 : Short) (started : Bool) (call : Option Callback) (rest : List Activation),
    s.acts = ⟨pc1, started, call⟩ :: rest →
    (1 + m.bytes ≤ s.depth m.src → exec (.stz m) s =
      .next ((s.popped m (1 + m.bytes)).withRamItem m (s.byteBelow m.src 0) (s.item m 1))) ∧
    (1 + m.bytes ≤ s.depth m.src → exec (.str m) s =
      .next ((s.popped m (1 + m.bytes)).withRamItem m (relativeTo pc1.toNat (s.byteBelow m.src 0)) (s.item m 1))) ∧
    (2 + m.bytes ≤ s.depth m.src → exec (.sta m) s =
      .next ((s.popped m (2 + m.bytes)).withRamItem m (s.shortBelow m.src 0) (s.item m 2)))

/-- The frame of the stores: with the effective address of the meaning, every byte of the buffer outside the stored bytes
(one byte, in short mode two) reads as before, and the stored bytes read as the value. -/
def Obligations.StoresLeaveOtherBytes : Prop :=
  ∀ (s t : State) (m : Mode) (i : Instr) (ea : Short) (p : Nat), s.wf = true →
    (i = .stz m ∧ ea = eaZero (BitVec.ofNat 8 (s.byteBelow m.src 0)) ∧ p = 1 ∨
      i = .str m ∧ ea = eaRelative s.pc (BitVec.ofNat 8 (s.byteBelow m.src 0)) ∧ p = 1 ∨
      i = .sta m ∧ ea = eaAbsolute (BitVec.ofNat 16 (s.shortBelow m.src 0)) ∧ p = 2) →
    p + m.bytes ≤ s.depth m.src → exec i s = .next t →
    (∀ a, a ≠ ramKey ea → (m.short = true → a ≠ ramKey (ea + 1)) → t.mem.read a = s.mem.read a) ∧
    t.ramItem m ea.toNat = s.item m p

/-- R68, R311: a store to the next opcode byte is what the next step fetches: after STR with offset 0 in byte mode the
next step runs the instruction whose opcode byte is the stored value. -/
def Obligations.StoresAreFetched : Prop :=
  ∀ (s t : State) (r k : Bool) (pc1 : Short) (started : Bool) (rest : List Activation), s.wf = true →
    s.acts = ⟨pc1, started, none⟩ :: rest → pc1 ≠ 0 → s.enabled = true →
    2 ≤ s.depth (Mode.src ⟨false, r, k⟩) → s.byteBelow (Mode.src ⟨false, r, k⟩) 0 = 0 →
    exec (.str ⟨false, r, k⟩) s = .next t →
    step t = exec (decodeBytes (BitVec.ofNat 8 (s.byteBelow (Mode.src ⟨false, r, k⟩) 1)) (s.memRead1 (pc1 + 1))
      (s.memRead1 (pc1 + 2))) { t with acts := ⟨pc1 + 1, true, none⟩ :: rest }

/-! ### Devices -/

/-- R240 (order and ports of the two calls are decision D6): DEI calls `DeviceIn` with the popped port, in short mode also
with the next port mod 256, and pushes what the host returned, the first byte deeper. Nothing else of the core changes. -/
def Obligations.DeviceInputResults : Prop :=
  ∀ (s : State) (m : Mode) (pc1 : Short) (started : Bool) (rest : List Activation) (v w : Byte)
    (l : List HostAction), s.acts = ⟨pc1, started, none⟩ :: rest → 1 ≤ s.depth m.src → s.room m 1 m.bytes →
    (m.short = false → s.script = .ret v :: l → exec (.dei m) s = .next ({ s.popped m 1 with
      script := l
      log := .deviceIn (BitVec.ofNat 8 (s.byteBelow m.src 0)) :: s.log }.withByte m.src v.toNat)) ∧
    (m.short = true → s.script = .ret v :: .ret w :: l → exec (.dei m) s = .next ({ s.popped m 1 with
      script := l
      log := .deviceIn (BitVec.ofNat 8 ((s.byteBelow m.src 0 + 1) % 256)) ::
        .deviceIn (BitVec.ofNat 8 (s.byteBelow m.src 0)) :: s.log }.withShort m.src (256 * v.toNat + w.toNat)))

/-- R240, where the host's script says nothing (notes/assumptions/2.md): DEI completes all the same, with a byte (in short
mode two) that the statement leaves open, and with nothing else of the core changed. -/
def Obligations.DeviceInputOfASilentHost : Prop :=
  ∀ (s : State) (m : Mode) (pc1 : Short) (started : Bool) (rest : List Activation),
    s.acts = ⟨pc1, started, none⟩ :: rest → 1 ≤ s.depth m.src → s.room m 1 m.bytes → s.script = [] →
    (m.short = false → ∃ (v : Byte) (n : Nat), exec (.dei m) s = .next ({ s.popped m 1 with
      freeCount := n
      log := .deviceIn (BitVec.ofNat 8 (s.byteBelow m.src 0)) :: s.log }.withByte m.src v.toNat)) ∧
    (m.short = true → ∃ (v w : Byte) (n : Nat), exec (.dei m) s = .next ({ s.popped m 1 with
      freeCount := n
      log := .deviceIn (BitVec.ofNat 8 ((s.byteBelow m.src 0 + 1) % 256)) ::
        .deviceIn (BitVec.ofNat 8 (s.byteBelow m.src 0)) :: s.log }.withShort m.src (256 * v.toNat + w.toNat)))

/-- R241 (decisions D6, D9): DEO pops the port, then the value, and calls `DeviceOut`, in short mode the high byte to
the port and then the low byte to the next port mod 256; in keep mode too. Nothing else of the core changes, `Dev`
included. That a host with an empty script returns at once is the model's choice (log entry 2). -/
def Obligations.DeviceOutputResults : Prop :=
  ∀ (s : State) (m : Mode) (pc1 : Short) (started : Bool) (rest : List Activation) (v w : Byte)
    (l : List HostAction), s.acts = ⟨pc1, started, none⟩ :: rest → 1 + m.bytes ≤ s.depth m.src →
    (m.short = false → s.script = .ret v :: l ∨ s.script = [] ∧ l = [] → exec (.deo m) s = .next { s.popped m 2 with
      script := l
      log := .deviceOut (BitVec.ofNat 8 (s.byteBelow m.src 0)) (BitVec.ofNat 8 (s.byteBelow m.src 1)) :: s.log }) ∧
    (m.short = true → s.script = .ret v :: .ret w :: l ∨ s.script = [] ∧ l = [] →
      exec (.deo m) s = .next { s.popped m 3 with
        script := l
        log := .deviceOut (BitVec.ofNat 8 ((s.byteBelow m.src 0 + 1) % 256))
            (BitVec.ofNat 8 (s.shortBelow m.src 1 % 256)) ::
          .deviceOut (BitVec.ofNat 8 (s.byteBelow m.src 0)) (BitVec.ofNat 8 (s.shortBelow m.src 1 / 256)) :: s.log })

/-- R38 (b), R240, R243: what the host changes inside `DeviceIn` is what DEI goes on with: in byte mode, after one write
of the host's, the byte is pushed at the source pointer as the host left it. R6, U1: a host given as an argument hears
the port before it answers: the step that fetches a DEI ends in its (first) `DeviceIn`; in later steps it may read,
write, call `Eval` and pause, its state moving with each action, while the activation waits (R38 (b), R314); and when it
returns a byte, the byte is pushed. That it does one thing a step is the model's choice (log entry 1). -/
def Obligations.HostWritesInDeviceInAreSeen : Prop :=
  (∀ (s : State) (m : Mode) (pc1 : Short) (started : Bool) (rest : List Activation) (sp : Space) (b v : Byte)
    (l : List HostAction), s.acts = ⟨pc1, started, none⟩ :: rest → 1 ≤ s.depth m.src → m.short = false →
    s.script = .write sp b :: .ret v :: l → ((s.popped m 1).hostWrite sp b).depth m.src + 1 ≤ 255 →
    exec (.dei m) s = .next ({ (s.popped m 1).hostWrite sp b with
      script := l
      log := .deviceIn (BitVec.ofNat 8 (s.byteBelow m.src 0)) :: s.log }.withByte m.src v.toNat)) ∧
  ∀ (σ : Type) (H : HostParam σ) (g g' : σ) (s : State) (pc : Short) (started : Bool) (rest : List Activation),
    (∀ m : Mode, runsAt s pc started rest → s.memRead1 pc = (Instr.dei m).opcode → 1 ≤ s.depth m.src →
      stepUnder H (g, s) = .next (H.hear g (.deviceIn (BitVec.ofNat 8 (s.byteBelow m.src 0))), { s.popped m 1 with
        script := []
        acts := ⟨pc + 1, true, some ⟨⟨(Instr.dei m).opcode, m, pc + 1,
          if m.keep then some (BitVec.ofNat 8 (s.depth m.src - 1)) else none⟩,
          if m.short then .deiHigh (BitVec.ofNat 8 (s.byteBelow m.src 0)) else .deiByte⟩⟩ :: rest
        log := .deviceIn (BitVec.ofNat 8 (s.byteBelow m.src 0)) :: s.log })) ∧
    (∀ d v, s.acts = ⟨pc, started, some ⟨d, .deiByte⟩⟩ :: rest → H.act g = (g', .ret v) → s.depth d.mode.src ≠ 255 →
      stepUnder H (g, s) = .next (g', { s with
        script := [], acts := ⟨pc, started, none⟩ :: rest }.withByte d.mode.src v.toNat)) ∧
    ∀ c, s.acts = ⟨pc, started, some c⟩ :: rest →
      (∀ sp w, H.act g = (g', .write sp w) → stepUnder H (g, s) = .next (g', { s.hostWrite sp w with script := [] })) ∧
      (∀ sp, H.act g = (g', .read sp) → stepUnder H (g, s) = .next (H.hear g' (.hostRead sp (s.hostRead sp)),
        { s with script := [], log := .hostRead sp (s.hostRead sp) :: s.log })) ∧
      (∀ entry, H.act g = (g', .eval entry) → stepUnder H (g, s) = .next (g', { s with
        script := [], acts := ⟨entry, false, none⟩ :: ⟨pc, started, some c⟩ :: rest })) ∧
      (H.act g = (g', .pause) → stepUnder H (g, s) = .next (g', { s with script := [] }))

/-! ### Arithmetic, bitwise, shift -/

/-- R250 to R252 (operand order and unsigned arithmetic are decisions D9 and D10): the results modulo 2^w. Nothing else
changes. -/
def Obligations.ArithmeticResults : Prop :=
  ∀ (s : State) (m : Mode), 2 * m.bytes ≤ s.depth m.src → s.room m (2 * m.bytes) m.bytes →
    exec (.add m) s = .next ((s.popped m (2 * m.bytes)).withItem m m.src
      ((s.item m m.bytes + s.item m 0) % 2 ^ m.width)) ∧
    exec (.sub m) s = .next ((s.popped m (2 * m.bytes)).withItem m m.src
      (((s.item m m.bytes : Int) - s.item m 0) % 2 ^ m.width).toNat) ∧
    exec (.mul m) s = .next ((s.popped m (2 * m.bytes)).withItem m m.src
      ((s.item m m.bytes * s.item m 0) % 2 ^ m.width))

/-- R253 (operand order is decision D9): DIV pushes the floor quotient where the divisor is not 0. Nothing else changes.
-/
def Obligations.DivisionResult : Prop :=
  ∀ (s : State) (m : Mode), 2 * m.bytes ≤ s.depth m.src → s.item m 0 ≠ 0 → s.room m (2 * m.bytes) m.bytes →
    exec (.div m) s = .next ((s.popped m (2 * m.bytes)).withItem m m.src (s.item m m.bytes / s.item m 0))

/-- R254 to R256: AND, ORA and EOR bit by bit. Nothing else changes. -/
def Obligations.BitwiseResults : Prop :=
  ∀ (s : State) (m : Mode), 2 * m.bytes ≤ s.depth m.src → s.room m (2 * m.bytes) m.bytes →
    exec (.and m) s = .next ((s.popped m (2 * m.bytes)).withItem m m.src (s.item m m.bytes &&& s.item m 0)) ∧
    exec (.ora m) s = .next ((s.popped m (2 * m.bytes)).withItem m m.src (s.item m m.bytes ||| s.item m 0)) ∧
    exec (.eor m) s = .next ((s.popped m (2 * m.bytes)).withItem m m.src (s.item m m.bytes ^^^ s.item m 0))

/-- R257 (the control byte's place and width are decisions D9 and D12): right by the low nibble, then left by the high
nibble as an unbounded integer, truncated to the width last; every count 0..15 in both widths. Nothing else changes. -/
def Obligations.ShiftResult : Prop :=
  ∀ (s : State) (m : Mode), 1 + m.bytes ≤ s.depth m.src → s.room m (1 + m.bytes) m.bytes →
    exec (.sft m) s = .next ((s.popped m (1 + m.bytes)).withItem m m.src
      (s.item m 1 / 2 ^ (s.byteBelow m.src 0 % 16) * 2 ^ (s.byteBelow m.src 0 / 16) % 2 ^ m.width))

/-! ### Faults -/

/-- R271, R276, with the arguments of R272 (the address is decision D14): taking a fault tells the host the opcode byte,
the code 1, 2 or 3 and `(pc1 - 1) mod 65536`, ends the innermost activation with `Fault(code)`, and changes nothing else
of the core (the model's fault record is set, R278); the host may start an activation in `Halt` (R280, R281). That a
host with an empty script returns from `Halt` at once is the model's choice (log entry 2). -/
def Obligations.FaultEntry : Prop :=
  VmFault.underflow.code = 1 ∧ VmFault.overflow.code = 2 ∧ VmFault.divideByZero.code = 3 ∧
  ∀ (s : State) (d : Decoder) (f : VmFault) (a : Activation) (rest : List Activation) (v : Byte) (entry : Short)
    (l : List HostAction), s.acts = a :: rest →
    (s.script = .ret v :: l ∨ s.script = [] ∧ l = [] → raiseFault d f s = { s with
      acts := rest
      script := l
      faultSeen := true
      log := .evalReturn (.fault f) :: .halt d.ins f.code (d.pc1 - 1) :: s.log }) ∧
    (s.script = .eval entry :: l → raiseFault d f s = { s with
      acts := ⟨entry, false, none⟩ :: { a with call := some ⟨d, .halt f⟩ } :: rest
      script := l
      faultSeen := true
      log := .halt d.ins f.code (d.pc1 - 1) :: s.log })

/-- R137, R273, R272 (derived by the spec from its rules): for every instruction, in every mode, with a host that has
nothing to do, the fault is the one of the closed form: Underflow first, then DivideByZero, then Overflow. A faulting
instruction ends the innermost activation with the `Halt` of its opcode byte at `pc1 - 1`; where the closed form gives
no fault, the fault record is as before and the instruction has ended none but a BRK's activation. That a host with
nothing to do returns at once, from `DeviceIn`, `DeviceOut` and `Halt`, is the model's choice (log entry 2); the order
of the tests is D15 (log entry 7), the address D14 (log entry 8). -/
def Obligations.ClosedFormOfFaults : Prop :=
  ∀ (i : Instr) (s : State) (pc1 : Short) (started : Bool) (rest : List Activation),
    s.acts = ⟨pc1, started, none⟩ :: rest → s.script = [] →
    ∃ t, exec i s = .next t ∧
      match closedFault i s with
      | some f => t.acts = rest ∧ t.faultSeen = true ∧ ∃ calls, (∀ e ∈ calls, ∃ p, e = .deviceIn p) ∧
          t.log = .evalReturn (.fault f) :: .halt i.opcode f.code (pc1 - 1) :: calls ++ s.log
      | none => t.faultSeen = s.faultSeen ∧
          (i = .brk ∧ t.acts = rest ∨ i ≠ .brk ∧ ∃ pc, t.acts = ⟨pc, started, none⟩ :: rest)

/-- R253, S2: DIV with divisor 0 calls the fault hook with code 3 and pushes nothing; its operands have been popped,
except in keep mode (R274, decision D15). It does so before any test for room: with keep on a full stack too. The
address told to `Halt` is D14 (log entry 8), and that a host with an empty script returns at once is the model's choice
(log entry 2). -/
def Obligations.DivisionByZero : Prop :=
  ∀ (s : State) (m : Mode), s.script = [] → 2 * m.bytes ≤ s.depth m.src → s.item m 0 = 0 →
    exec (.div m) s = .next ((s.popped m (2 * m.bytes)).afterFault (Instr.div m).opcode .divideByZero)

/-- R274 (a), (b) (decision D15; the address told is D14, log entry 8, and the host has nothing to do, log entry 2):
every instruction, in every mode: where its first `j` pops succeed and the next one faults, those `j` have been made (in
keep mode they change nothing), and nothing else has changed. -/
def Obligations.FaultKeepsEarlierPops : Prop :=
  ∀ (i : Instr) (s : State) (j : Nat), s.script = [] → j < (popSizes i).length →
    ((popSizes i).take j).sum ≤ s.depth (modeOf i).src → s.depth (modeOf i).src < ((popSizes i).take (j + 1)).sum →
    exec i s = .next ((s.popped (modeOf i) ((popSizes i).take j).sum).afterFault i.opcode .underflow)

/-- R274 (c), with (a), (e) and (f) (decision D15, and D14 and log entry 2 as above): what an Overflow leaves, for every
instruction, in every mode. The instructions with several pushes, SWP, ROT, DUP and OVR: the pops and the first `j`
pushes have been made, where there is room for `j` items and not for one more. DEI: its pop and its calls of the host,
under a host that has nothing to do. Every other instruction has one push: its pops have been made and nothing else. -/
def Obligations.FaultKeepsEarlierPushes : Prop :=
  (∀ (s : State) (m : Mode) (i : Instr) (p : Nat) (vs : List Nat) (j : Nat), s.script = [] →
    (i = .swp m ∧ p = 2 * m.bytes ∧ vs = [s.item m 0, s.item m m.bytes] ∨
      i = .rot m ∧ p = 3 * m.bytes ∧ vs = [s.item m m.bytes, s.item m 0, s.item m (2 * m.bytes)] ∨
      i = .dup m ∧ p = m.bytes ∧ vs = [s.item m 0, s.item m 0] ∨
      i = .ovr m ∧ p = 2 * m.bytes ∧ vs = [s.item m m.bytes, s.item m 0, s.item m m.bytes]) →
    p ≤ s.depth m.src → j < vs.length → s.room m p (j * m.bytes) → ¬ s.room m p ((j + 1) * m.bytes) →
    exec i s = .next ((withItems (s.popped m p) m m.src (vs.take j)).afterFault i.opcode .overflow)) ∧
  (∀ (s : State) (m : Mode), s.script = [] → closedFault (.dei m) s = some .overflow → ∃ n,
    exec (.dei m) s = .next ({ s.popped m 1 with
      freeCount := n
      log := (if m.short then [Event.deviceIn (nextPort (BitVec.ofNat 8 (s.byteBelow m.src 0)))] else []) ++
        Event.deviceIn (BitVec.ofNat 8 (s.byteBelow m.src 0)) :: s.log }.afterFault (Instr.dei m).opcode .overflow)) ∧
  ∀ (i : Instr) (s : State), s.script = [] → closedFault i s = some .overflow →
    (∀ m, i ≠ .swp m ∧ i ≠ .rot m ∧ i ≠ .dup m ∧ i ≠ .ovr m ∧ i ≠ .dei m) →
    exec i s = .next ((s.popped (modeOf i) (popBytes i)).afterFault i.opcode .overflow)

/-- R274 (d): an instruction that faults, under a host that has nothing to do (log entry 2), has not changed one byte of the buffer. -/
def Obligations.FaultsLeaveMemory : Prop :=
  ∀ (i : Instr) (s t : State), s.script = [] → s.faultSeen = false → exec i s = .next t → t.faultSeen = true →
    t.mem = s.mem

/-! ### Rules about the whole machine -/

/-- Every step keeps the legal states: the canonical form of the four memories within their sizes, and R34's nesting. -/
def Obligations.StepKeepsLegal : Prop := ∀ s t : State, s.wf = true → step s = .next t → t.wf = true

/-- Every step keeps: a waiting activation waits in a call that its own instruction makes (R58, R240, R241). -/
def Obligations.StepKeepsCallsFitting : Prop :=
  ∀ s t : State, s.callsFit = true → step s = .next t → t.callsFit = true

/-- R88, R279: every instruction answers a next state in every state, and so does every step, but for one stop, which is the
model's choice (log entry 4): the script returns from a callback where no activation is live. -/
def Obligations.OnlyAStrayReturnStops : Prop :=
  (∀ (i : Instr) (s : State), ∃ t, exec i s = .next t) ∧
  ∀ s : State, (∃ t, step s = .next t) ∨
    (step s = .fault .returnWithoutCall ∧ s.acts = [] ∧ ∃ v, .ret v ∈ s.script)

/-- R25, R34, R280: a step changes no activation but the innermost: the others stay as they are, whether it goes on, ends
(by BRK, at a loop top or by a fault), or the host nests another above it. -/
def Obligations.OuterActivationsStay : Prop :=
  ∀ (s t : State) (a : Activation) (rest : List Activation), s.acts = a :: rest → step s = .next t →
    t.acts = rest ∨ (∃ b, t.acts = b :: rest) ∨ ∃ b entry, t.acts = ⟨entry, false, none⟩ :: b :: rest

/-- R142, R143, R313 (with R37 for the names of the ends, decision D20): an activation ends only in one of five ways,
and the host is told which: it had not started and may not, it is at program counter 0, the enable byte is 0, it
executed the byte 0x00, or it faulted. A fault was either told to the host in an earlier step, the activation waiting in
that `Halt` since, or it is told in this step: then the log has grown by a `Halt` of this fault's code with the opcode
byte and the address (D14, log entry 8) of the activation's own instruction, and after it only reads of the host's and
the result. -/
def Obligations.ActivationsEndInFiveWays : Prop :=
  ∀ (s t : State) (a : Activation) (rest : List Activation), s.acts = a :: rest → step s = .next t → t.acts = rest →
    ∃ r, t.log.head? = some (.evalReturn r) ∧
      match r with
      | .notStarted => a.call = none ∧ a.started = false ∧ (a.pc = 0 ∨ s.dev.read 0x0F = 0)
      | .pcZero => a.call = none ∧ a.started = true ∧ a.pc = 0
      | .disabled => a.call = none ∧ a.started = true ∧ a.pc ≠ 0 ∧ s.dev.read 0x0F = 0
      | .broke => a.call = none ∧ a.pc ≠ 0 ∧ s.dev.read 0x0F ≠ 0 ∧ s.memRead1 a.pc = 0x00
      | .fault f => (∃ d, a.call = some ⟨d, .halt f⟩) ∨
          ∃ (ins : Byte) (address : Short) (later earlier : List Event),
            t.log = .evalReturn (.fault f) :: later ++ .halt ins f.code address :: earlier ++ s.log ∧
            (∀ e ∈ later, ∃ sp v, e = .hostRead sp v) ∧
            match a.call with
            | none => a.pc ≠ 0 ∧ s.dev.read 0x0F ≠ 0 ∧ ins = s.memRead1 a.pc ∧ address = a.pc
            | some c => ins = c.dec.ins ∧ address = c.dec.pc1 - 1

/-- R30, R31: the core never writes the device page: a step changes it only by a host write to it. -/
def Obligations.OnlyTheHostWritesDevices : Prop :=
  ∀ s t : State, (∀ port v, .write (.dev port) v ∉ s.script) → step s = .next t → t.dev = s.dev

/-- R32, R51, R52: no instruction reaches the fifteen hidden pages: a step changes them only by a host write. -/
def Obligations.HiddenPagesAreOutOfReach : Prop :=
  ∀ s t : State, (∀ p a v, .write (.page p a) v ∉ s.script) → step s = .next t →
    ∀ a, 65536 ≤ a → t.mem.read a = s.mem.read a

/-- R58: an instruction other than STZ, STR and STA changes no byte of the buffer, whether it faults or not, but by a host
write. -/
def Obligations.OnlyStoresWriteMemory : Prop :=
  ∀ (i : Instr) (s t : State), storesToRam i = false → (∀ p a v, .write (.page p a) v ∉ s.script) →
    exec i s = .next t → t.mem = s.mem

/-- R22, R126: no instruction writes `dat[255]` of a stack: a step changes it only by a host write to the stack's bytes.
-/
def Obligations.LastStackByteIsDead : Prop :=
  ∀ s t : State, (∀ i v, .write (.wstDat i) v ∉ s.script ∧ .write (.rstDat i) v ∉ s.script) → step s = .next t →
    ∀ k, t.datum k 255 = s.datum k 255

/-- R133 (a), R132: an instruction in keep mode never lowers the depth of its source stack and never changes a byte below
it, whether it faults or not, but by a host write. -/
def Obligations.KeepModeKeepsOperands : Prop :=
  ∀ (i : Instr) (s t : State), (modeOf i).keep = true → (∀ sp v, .write sp v ∉ s.script) → exec i s = .next t →
    s.depth (modeOf i).src ≤ t.depth (modeOf i).src ∧
      ∀ n, n < s.depth (modeOf i).src → t.datum (modeOf i).src n = s.datum (modeOf i).src n

/-- R278: the record that a fault has happened is never cleared. -/
def Obligations.FaultRecordStays : Prop :=
  ∀ s t : State, s.faultSeen = true → step s = .next t → t.faultSeen = true

/-- R64, R242: what the core has told the host is never taken back: the log only grows. -/
def Obligations.LogOnlyGrows : Prop := ∀ s t : State, step s = .next t → s.log <:+ t.log
end

