-- ==== Sys2Proof/Laws/Decode.lean ====
section
/-! SUPPORT. Small lemmas of the decoder and the encoder. -/

namespace Sys2Proof

theorem joinBytes_toNat (h l : Byte) : (joinBytes h l).toNat = 256 * h.toNat + l.toNat := by
  have := l.isLt
  simp only [joinBytes, BitVec.toNat_append]
  rw [Nat.shiftLeft_eq, Nat.mul_comm, ← Nat.two_pow_add_eq_or_of_lt l.isLt]
theorem hiByte_toNat (v : Short) : (hiByte v).toNat = v.toNat / 256 := by
  have := v.isLt
  simp [hiByte, BitVec.extractLsb'_toNat, Nat.shiftRight_eq_div_pow]; omega
theorem loByte_toNat (v : Short) : (loByte v).toNat = v.toNat % 256 := by
  simp [loByte, BitVec.extractLsb'_toNat]

@[simp] theorem joinBytes_hi_lo (v : Short) : joinBytes (hiByte v) (loByte v) = v := by
  apply BitVec.eq_of_toNat_eq
  rw [joinBytes_toNat, hiByte_toNat, loByte_toNat]; omega

@[simp] theorem hiByte_joinBytes (h l : Byte) : hiByte (joinBytes h l) = h := by
  have := l.isLt
  apply BitVec.eq_of_toNat_eq
  rw [hiByte_toNat, joinBytes_toNat]; omega

@[simp] theorem loByte_joinBytes (h l : Byte) : loByte (joinBytes h l) = l := by
  have := l.isLt
  apply BitVec.eq_of_toNat_eq
  rw [loByte_toNat, joinBytes_toNat]; omega

/-- The opcode byte of an instruction fixes how many bytes follow it (R81). -/
theorem immediates_length (i : Instr) : i.immediates.length = immediateCount i.opcode := by
  cases i with
  | brk => rfl
  | jci off | jmi off | jsi off | lit2 off | lit2r off => rfl
  | lit v | litr v => rfl
  | _ m => obtain ⟨s, r, k⟩ := m; cases s <;> cases r <;> cases k <;> rfl

end Sys2Proof
end

