-- ==== Sys2Proof/Laws/Memory.lean ====
section
/-! SUPPORT. The laws of a memory in canonical form: read after write, what a write leaves alone, the canonical form is
kept, and equal contents are equal data. -/

namespace Sys2Proof.Machine

@[simp] theorem Memory.read_nil (a : Nat) : Memory.read [] a = 0 := rfl

theorem Memory.read_cons (k : Nat) (b : Byte) (t : Memory) (a : Nat) :
    Memory.read ((k, b) :: t) a = if k = a then b else Memory.read t a := rfl

theorem Memory.wfFrom_cons {lo size k : Nat} {b : Byte} {t : Memory} :
    Memory.wfFrom lo size ((k, b) :: t) = true ↔
      lo ≤ k ∧ k < size ∧ b ≠ 0 ∧ Memory.wfFrom (k + 1) size t = true := by
  simp [Memory.wfFrom, Memory.unlisted, and_assoc]

/-- An address below the first listed one reads as unlisted. -/
theorem Memory.read_below {lo size a : Nat} {m : Memory} (h : Memory.wfFrom lo size m = true) (ha : a < lo) :
    m.read a = 0 := by
  induction m generalizing lo with
  | nil => rfl
  | cons c t ih =>
    obtain ⟨k, b⟩ := c
    obtain ⟨h1, -, -, h4⟩ := Memory.wfFrom_cons.mp h
    rw [Memory.read_cons, if_neg (by omega), ih h4 (by omega)]

/-- An address outside the memory reads as unlisted. -/
theorem Memory.read_above {lo size a : Nat} {m : Memory} (h : Memory.wfFrom lo size m = true) (ha : size ≤ a) :
    m.read a = 0 := by
  induction m generalizing lo with
  | nil => rfl
  | cons c t ih =>
    obtain ⟨k, b⟩ := c
    obtain ⟨-, h2, -, h4⟩ := Memory.wfFrom_cons.mp h
    rw [Memory.read_cons, if_neg (by omega), ih h4]

theorem Memory.wfFrom_mono {lo lo' size : Nat} {m : Memory} (h : Memory.wfFrom lo size m = true) (hl : lo' ≤ lo) :
    Memory.wfFrom lo' size m = true := by
  cases m with
  | nil => rfl
  | cons c t =>
    obtain ⟨k, b⟩ := c
    obtain ⟨h1, h2, h3, h4⟩ := Memory.wfFrom_cons.mp h
    exact Memory.wfFrom_cons.mpr ⟨by omega, h2, h3, h4⟩

/-- Read after write, another address: as before. No canonical form is needed. -/
theorem Memory.read_write_other (m : Memory) {a b : Nat} (v : Byte) (h : b ≠ a) : (m.write a v).read b = m.read b := by
  induction m with
  | nil => simp only [Memory.write]; split <;> simp [Memory.read_cons, h.symm]
  | cons c t ih =>
    obtain ⟨k, w⟩ := c
    simp only [Memory.write]
    split
    · split <;> simp [Memory.read_cons, h.symm]
    · split
      · subst_vars; split <;> simp [Memory.read_cons, h.symm]
      · simp [Memory.read_cons, ih]

theorem Memory.read_write_self_from {lo size : Nat} {m : Memory} (h : Memory.wfFrom lo size m = true) (a : Nat)
    (v : Byte) : (m.write a v).read a = v := by
  induction m generalizing lo with
  | nil => simp only [Memory.write]; split <;> simp_all [Memory.read_cons, Memory.unlisted]
  | cons c t ih =>
    obtain ⟨k, w⟩ := c
    obtain ⟨-, -, -, h4⟩ := Memory.wfFrom_cons.mp h
    simp only [Memory.write]
    split
    · split
      · subst_vars
        rw [Memory.read_cons, if_neg (by omega), Memory.read_below h4 (by omega)]; rfl
      · simp [Memory.read_cons]
    · split
      · subst_vars
        split
        · subst_vars; exact Memory.read_below h4 (by omega)
        · simp [Memory.read_cons]
      · rw [Memory.read_cons, if_neg (by omega), ih h4]

/-- Read after write, the same address: the value written. -/
theorem Memory.read_write_self {size : Nat} {m : Memory} (h : m.wf size = true) (a : Nat) (v : Byte) :
    (m.write a v).read a = v := Memory.read_write_self_from h a v

/-- Read after write. -/
theorem Memory.read_write {size : Nat} {m : Memory} (h : m.wf size = true) (a b : Nat) (v : Byte) :
    (m.write a v).read b = if b = a then v else m.read b := by
  split
  · subst_vars; exact Memory.read_write_self h _ v
  · exact Memory.read_write_other m v ‹_›

theorem Memory.wfFrom_write {lo size a : Nat} {m : Memory} (h : Memory.wfFrom lo size m = true) (hl : lo ≤ a)
    (hs : a < size) (v : Byte) : Memory.wfFrom lo size (m.write a v) = true := by
  induction m generalizing lo with
  | nil =>
    simp only [Memory.write]
    split
    · rfl
    · exact Memory.wfFrom_cons.mpr ⟨hl, hs, ‹_›, rfl⟩
  | cons c t ih =>
    obtain ⟨k, w⟩ := c
    obtain ⟨h1, h2, h3, h4⟩ := Memory.wfFrom_cons.mp h
    simp only [Memory.write]
    split
    · split
      · exact h
      · exact Memory.wfFrom_cons.mpr ⟨hl, hs, ‹_›, Memory.wfFrom_cons.mpr ⟨by omega, h2, h3, h4⟩⟩
    · split
      · subst_vars
        split
        · exact Memory.wfFrom_mono h4 (by omega)
        · exact Memory.wfFrom_cons.mpr ⟨hl, hs, ‹_›, h4⟩
      · exact Memory.wfFrom_cons.mpr ⟨h1, h2, h3, ih h4 (by omega)⟩

/-- A write inside the memory keeps the canonical form. -/
theorem Memory.wf_write {size a : Nat} {m : Memory} (h : m.wf size = true) (hs : a < size) (v : Byte) :
    (m.write a v).wf size = true := Memory.wfFrom_write h (Nat.zero_le a) hs v

/-- Two memories in canonical form that read alike are equal. -/
theorem Memory.ext_of_read {lo size lo' size' : Nat} {m n : Memory} (hm : Memory.wfFrom lo size m = true)
    (hn : Memory.wfFrom lo' size' n = true) (h : ∀ a, m.read a = n.read a) : m = n := by
  induction m generalizing n lo lo' with
  | nil =>
    cases n with
    | nil => rfl
    | cons c t =>
      obtain ⟨k, b⟩ := c
      obtain ⟨-, -, hb, -⟩ := Memory.wfFrom_cons.mp hn
      have := h k
      simp [Memory.read_cons] at this
      exact absurd this.symm hb
  | cons c t ih =>
    obtain ⟨k, b⟩ := c
    obtain ⟨-, -, hb, ht⟩ := Memory.wfFrom_cons.mp hm
    cases n with
    | nil =>
      have := h k
      simp [Memory.read_cons] at this
      exact absurd this hb
    | cons c' t' =>
      obtain ⟨k', b'⟩ := c'
      obtain ⟨-, -, hb', ht'⟩ := Memory.wfFrom_cons.mp hn
      have hk : k = k' := by
        rcases Nat.lt_trichotomy k k' with hlt | heq | hgt
        · have := h k
          rw [Memory.read_cons, if_pos rfl, Memory.read_cons, if_neg (by omega), Memory.read_below ht' (by omega)] at this
          exact absurd this hb
        · exact heq
        · have := h k'
          rw [Memory.read_cons, if_neg (by omega), Memory.read_below ht (by omega), Memory.read_cons, if_pos rfl] at this
          exact absurd this.symm hb'
      subst hk
      have hbb : b = b' := by
        have := h k
        simpa [Memory.read_cons] using this
      subst hbb
      have htt : t = t' := ih ht ht' fun a => by
        by_cases ha : k = a
        · subst ha
          rw [Memory.read_below ht (by omega), Memory.read_below ht' (by omega)]
        · have := h a
          rwa [Memory.read_cons, if_neg ha, Memory.read_cons, if_neg ha] at this
      rw [htt]

end Sys2Proof.Machine
end

