-- ==== Sys2Proof/Laws/State.lean ====
section
/-! SUPPORT. One lemma per field per update of State, so that no later proof unfolds a record update. -/

namespace Sys2Proof.Machine

/-! ### The stacks -/

@[simp] theorem State.stack_wst (s : State) : s.stack .wst = s.wst := rfl
@[simp] theorem State.stack_rst (s : State) : s.stack .rst = s.rst := rfl
@[simp] theorem State.stack_setStack_same (s : State) (k : StackId) (t : Stack) : (s.setStack k t).stack k = t := by
  cases k <;> rfl
theorem State.stack_setStack_other (s : State) {j k : StackId} (t : Stack) (h : j ≠ k) :
    (s.setStack k t).stack j = s.stack j := by
  cases j <;> cases k <;> first | rfl | exact absurd rfl h
@[simp] theorem State.setStack_stack (s : State) (k : StackId) : s.setStack k (s.stack k) = s := by cases k <;> rfl
@[simp] theorem State.setStack_setStack (s : State) (k : StackId) (t u : Stack) :
    (s.setStack k t).setStack k u = s.setStack k u := by cases k <;> rfl
@[simp] theorem State.setStack_wst (s : State) (t : Stack) : (s.setStack .wst t).wst = t := rfl
@[simp] theorem State.setStack_rst (s : State) (t : Stack) : (s.setStack .rst t).rst = t := rfl
@[simp] theorem State.setStack_wst_rst (s : State) (t : Stack) : (s.setStack .wst t).rst = s.rst := rfl
@[simp] theorem State.setStack_rst_wst (s : State) (t : Stack) : (s.setStack .rst t).wst = s.wst := rfl
@[simp] theorem State.setStack_mem (s : State) (k : StackId) (t : Stack) : (s.setStack k t).mem = s.mem := by cases k <;> rfl
@[simp] theorem State.setStack_dev (s : State) (k : StackId) (t : Stack) : (s.setStack k t).dev = s.dev := by cases k <;> rfl
@[simp] theorem State.setStack_acts (s : State) (k : StackId) (t : Stack) : (s.setStack k t).acts = s.acts := by cases k <;> rfl
@[simp] theorem State.setStack_script (s : State) (k : StackId) (t : Stack) : (s.setStack k t).script = s.script := by cases k <;> rfl
@[simp] theorem State.setStack_freeCount (s : State) (k : StackId) (t : Stack) : (s.setStack k t).freeCount = s.freeCount := by cases k <;> rfl
@[simp] theorem State.setStack_log (s : State) (k : StackId) (t : Stack) : (s.setStack k t).log = s.log := by cases k <;> rfl
@[simp] theorem State.setStack_faultSeen (s : State) (k : StackId) (t : Stack) : (s.setStack k t).faultSeen = s.faultSeen := by cases k <;> rfl
@[simp] theorem State.pc_setStack (s : State) (k : StackId) (t : Stack) : (s.setStack k t).pc = s.pc := by
  cases k <;> rfl
@[simp] theorem src_ne_dst (m : Mode) : m.src ≠ m.dst := by
  cases m with | mk a b c => cases b <;> simp [Mode.src, Mode.dst]
@[simp] theorem dst_ne_src (m : Mode) : m.dst ≠ m.src := (src_ne_dst m).symm

/-! ### The innermost activation -/

theorem State.pc_of_acts {s : State} {a : Activation} {rest : List Activation} (h : s.acts = a :: rest) :
    s.pc = a.pc := by simp [State.pc, h]
theorem State.mapInner_of_acts {s : State} {a : Activation} {rest : List Activation} (h : s.acts = a :: rest)
    (f : Activation → Activation) : s.mapInner f = { s with acts := f a :: rest } := by simp [State.mapInner, h]
theorem State.mapInner_of_idle {s : State} (h : s.acts = []) (f : Activation → Activation) : s.mapInner f = s := by
  simp [State.mapInner, h]
theorem State.mapInner_acts (s : State) (f : Activation → Activation) :
    (s.mapInner f).acts = match s.acts with | [] => [] | a :: rest => f a :: rest := by
  unfold State.mapInner; split <;> simp_all
@[simp] theorem State.mapInner_acts_tail (s : State) (f : Activation → Activation) :
    (s.mapInner f).acts.tail = s.acts.tail := by
  unfold State.mapInner; split <;> simp_all
@[simp] theorem State.mapInner_mem (s : State) (f : Activation → Activation) : (s.mapInner f).mem = s.mem := by
  unfold State.mapInner; split <;> rfl
@[simp] theorem State.mapInner_wst (s : State) (f : Activation → Activation) : (s.mapInner f).wst = s.wst := by
  unfold State.mapInner; split <;> rfl
@[simp] theorem State.mapInner_rst (s : State) (f : Activation → Activation) : (s.mapInner f).rst = s.rst := by
  unfold State.mapInner; split <;> rfl
@[simp] theorem State.mapInner_dev (s : State) (f : Activation → Activation) : (s.mapInner f).dev = s.dev := by
  unfold State.mapInner; split <;> rfl
@[simp] theorem State.mapInner_script (s : State) (f : Activation → Activation) : (s.mapInner f).script = s.script := by
  unfold State.mapInner; split <;> rfl
@[simp] theorem State.mapInner_freeCount (s : State) (f : Activation → Activation) : (s.mapInner f).freeCount = s.freeCount := by
  unfold State.mapInner; split <;> rfl
@[simp] theorem State.mapInner_log (s : State) (f : Activation → Activation) : (s.mapInner f).log = s.log := by
  unfold State.mapInner; split <;> rfl
@[simp] theorem State.mapInner_faultSeen (s : State) (f : Activation → Activation) : (s.mapInner f).faultSeen = s.faultSeen := by
  unfold State.mapInner; split <;> rfl
@[simp] theorem State.mapInner_stack (s : State) (f : Activation → Activation) (k : StackId) :
    (s.mapInner f).stack k = s.stack k := by cases k <;> simp

theorem State.setPc_of_acts {s : State} {pc : Short} {started : Bool} {call : Option Callback} {rest : List Activation}
    (h : s.acts = ⟨pc, started, call⟩ :: rest) (t : Short) :
    s.setPc t = { s with acts := ⟨t, started, call⟩ :: rest } := State.mapInner_of_acts h _

/-! ### Memory writes -/

@[simp] theorem State.memWrite1_wst (s : State) (a : Short) (v : Byte) : (s.memWrite1 a v).wst = s.wst := rfl
@[simp] theorem State.memWrite2_wst (s : State) (a v : Short) : (s.memWrite2 a v).wst = s.wst := rfl
@[simp] theorem State.memWrite1_rst (s : State) (a : Short) (v : Byte) : (s.memWrite1 a v).rst = s.rst := rfl
@[simp] theorem State.memWrite2_rst (s : State) (a v : Short) : (s.memWrite2 a v).rst = s.rst := rfl
@[simp] theorem State.memWrite1_dev (s : State) (a : Short) (v : Byte) : (s.memWrite1 a v).dev = s.dev := rfl
@[simp] theorem State.memWrite2_dev (s : State) (a v : Short) : (s.memWrite2 a v).dev = s.dev := rfl
@[simp] theorem State.memWrite1_acts (s : State) (a : Short) (v : Byte) : (s.memWrite1 a v).acts = s.acts := rfl
@[simp] theorem State.memWrite2_acts (s : State) (a v : Short) : (s.memWrite2 a v).acts = s.acts := rfl
@[simp] theorem State.memWrite1_script (s : State) (a : Short) (v : Byte) : (s.memWrite1 a v).script = s.script := rfl
@[simp] theorem State.memWrite2_script (s : State) (a v : Short) : (s.memWrite2 a v).script = s.script := rfl
@[simp] theorem State.memWrite1_freeCount (s : State) (a : Short) (v : Byte) : (s.memWrite1 a v).freeCount = s.freeCount := rfl
@[simp] theorem State.memWrite2_freeCount (s : State) (a v : Short) : (s.memWrite2 a v).freeCount = s.freeCount := rfl
@[simp] theorem State.memWrite1_log (s : State) (a : Short) (v : Byte) : (s.memWrite1 a v).log = s.log := rfl
@[simp] theorem State.memWrite2_log (s : State) (a v : Short) : (s.memWrite2 a v).log = s.log := rfl
@[simp] theorem State.memWrite1_faultSeen (s : State) (a : Short) (v : Byte) : (s.memWrite1 a v).faultSeen = s.faultSeen := rfl
@[simp] theorem State.memWrite2_faultSeen (s : State) (a v : Short) : (s.memWrite2 a v).faultSeen = s.faultSeen := rfl
@[simp] theorem State.memWrite1_mem (s : State) (a : Short) (v : Byte) :
    (s.memWrite1 a v).mem = s.mem.write (ramKey a) v := rfl

/-! ### The host boundary -/

@[simp] theorem State.tell_mem (s : State) (e : Event) : (s.tell e).mem = s.mem := rfl
@[simp] theorem State.endActivation_mem (s : State) (r : EvalResult) : (s.endActivation r).mem = s.mem := rfl
@[simp] theorem State.tell_wst (s : State) (e : Event) : (s.tell e).wst = s.wst := rfl
@[simp] theorem State.endActivation_wst (s : State) (r : EvalResult) : (s.endActivation r).wst = s.wst := rfl
@[simp] theorem State.tell_rst (s : State) (e : Event) : (s.tell e).rst = s.rst := rfl
@[simp] theorem State.endActivation_rst (s : State) (r : EvalResult) : (s.endActivation r).rst = s.rst := rfl
@[simp] theorem State.tell_dev (s : State) (e : Event) : (s.tell e).dev = s.dev := rfl
@[simp] theorem State.endActivation_dev (s : State) (r : EvalResult) : (s.endActivation r).dev = s.dev := rfl
@[simp] theorem State.tell_acts (s : State) (e : Event) : (s.tell e).acts = s.acts := rfl
@[simp] theorem State.tell_script (s : State) (e : Event) : (s.tell e).script = s.script := rfl
@[simp] theorem State.endActivation_script (s : State) (r : EvalResult) : (s.endActivation r).script = s.script := rfl
@[simp] theorem State.tell_freeCount (s : State) (e : Event) : (s.tell e).freeCount = s.freeCount := rfl
@[simp] theorem State.endActivation_freeCount (s : State) (r : EvalResult) : (s.endActivation r).freeCount = s.freeCount := rfl
@[simp] theorem State.tell_faultSeen (s : State) (e : Event) : (s.tell e).faultSeen = s.faultSeen := rfl
@[simp] theorem State.endActivation_faultSeen (s : State) (r : EvalResult) : (s.endActivation r).faultSeen = s.faultSeen := rfl
@[simp] theorem State.tell_log (s : State) (e : Event) : (s.tell e).log = e :: s.log := rfl
@[simp] theorem State.endActivation_log (s : State) (r : EvalResult) :
    (s.endActivation r).log = .evalReturn r :: s.log := rfl
@[simp] theorem State.endActivation_acts (s : State) (r : EvalResult) : (s.endActivation r).acts = s.acts.tail := rfl
@[simp] theorem State.hostWrite_acts (s : State) (sp : Space) (v : Byte) : (s.hostWrite sp v).acts = s.acts := by
  cases sp <;> rfl
@[simp] theorem State.hostWrite_script (s : State) (sp : Space) (v : Byte) : (s.hostWrite sp v).script = s.script := by
  cases sp <;> rfl
@[simp] theorem State.hostWrite_freeCount (s : State) (sp : Space) (v : Byte) : (s.hostWrite sp v).freeCount = s.freeCount := by
  cases sp <;> rfl
@[simp] theorem State.hostWrite_log (s : State) (sp : Space) (v : Byte) : (s.hostWrite sp v).log = s.log := by
  cases sp <;> rfl
@[simp] theorem State.hostWrite_faultSeen (s : State) (sp : Space) (v : Byte) : (s.hostWrite sp v).faultSeen = s.faultSeen := by
  cases sp <;> rfl

end Sys2Proof.Machine
end

