-- ==== Sys2Proof/Laws/Host.lean ====
section
/-! SUPPORT. What a turn of the host, a callback and a taken fault can do, said once. -/

namespace Sys2Proof.Machine

/-! ### Turns that end at once -/

@[simp] theorem hostRun_silent (s : State) : hostRun [] s = (.silent, { s with script := [] }) := rfl
@[simp] theorem hostRun_ret (v : Byte) (l : List HostAction) (s : State) :
    hostRun (.ret v :: l) s = (.returned v, { s with script := l }) := rfl
@[simp] theorem hostRun_pause (l : List HostAction) (s : State) :
    hostRun (.pause :: l) s = (.paused, { s with script := l }) := rfl
@[simp] theorem hostRun_eval (e : Short) (l : List HostAction) (s : State) :
    hostRun (.eval e :: l) s = (.called, { s with script := l, acts := ⟨e, false, none⟩ :: s.acts }) := rfl
@[simp] theorem hostRun_write (sp : Space) (v : Byte) (l : List HostAction) (s : State) :
    hostRun (.write sp v :: l) s = hostRun l (s.hostWrite sp v) := rfl
@[simp] theorem hostRun_read (sp : Space) (l : List HostAction) (s : State) :
    hostRun (.read sp :: l) s = hostRun l (s.tell (.hostRead sp (s.hostRead sp))) := rfl

/-- A turn that begins with accesses goes on, on the state they leave, with what the host does after them. -/
theorem hostRun_accesses {accesses : List HostAction} (h : accesses.all HostAction.isAccess = true)
    (l : List HostAction) (s : State) : hostRun (accesses ++ l) s = hostRun l (s.afterAccesses accesses) := by
  induction accesses generalizing s with
  | nil => rfl
  | cons a more ih =>
    rw [List.all_cons, Bool.and_eq_true] at h
    cases a with
    | read sp => exact ih h.2 _
    | write sp v => exact ih h.2 _
    | eval e => cases h.1
    | ret v => cases h.1
    | pause => cases h.1

/-- Accesses leave the live activations as they are. -/
@[simp] theorem State.afterAccesses_acts (s : State) (accesses : List HostAction) :
    (s.afterAccesses accesses).acts = s.acts := by
  induction accesses generalizing s with
  | nil => rfl
  | cons a more ih => cases a <;> simp [State.afterAccesses, ih]

/-- A property of states that every action of the host in `l` keeps holds after the host's turn. -/
theorem hostRun_keeps {P : State → Prop} {l : List HostAction} {s : State} (h : P s)
    (hread : ∀ t sp v, P t → P (t.tell (.hostRead sp v)))
    (hwrite : ∀ t sp v, .write sp v ∈ l → P t → P (t.hostWrite sp v))
    (hscript : ∀ t l', l' <:+ l → P t → P { t with script := l' })
    (heval : ∀ t e, P t → P { t with acts := ⟨e, false, none⟩ :: t.acts }) : P (hostRun l s).2 := by
  induction l generalizing s with
  | nil => exact hscript s [] (List.suffix_refl _) h
  | cons a l ih =>
    have hsub : ∀ t l', l' <:+ l → P t → P { t with script := l' } := fun t l' hl =>
      hscript t l' (hl.trans (List.suffix_cons a l))
    have hw : ∀ t sp v, HostAction.write sp v ∈ l → P t → P (t.hostWrite sp v) := fun t sp v hm =>
      hwrite t sp v (List.mem_cons_of_mem a hm)
    cases a with
    | read sp => exact ih (hread s sp _ h) hw hsub
    | write sp v => exact ih (hwrite s sp v (by simp) h) hw hsub
    | eval e => exact heval _ e (hscript s l (List.suffix_cons _ l) h)
    | ret v => exact hscript s l (List.suffix_cons _ l) h
    | pause => exact hscript s l (List.suffix_cons _ l) h

/-- The live activations after the host's turn: one more where it called `Eval`, else the same (R34, R38). -/
theorem hostRun_acts (l : List HostAction) (s : State) :
    ((hostRun l s).1 = .called ∧ ∃ e, (hostRun l s).2.acts = ⟨e, false, none⟩ :: s.acts) ∨
      ((hostRun l s).1 ≠ .called ∧ (hostRun l s).2.acts = s.acts) := by
  induction l generalizing s with
  | nil => exact .inr ⟨by simp, rfl⟩
  | cons a l ih =>
    cases a with
    | read sp => simpa using ih (s.tell (.hostRead sp (s.hostRead sp)))
    | write sp v => simpa using ih (s.hostWrite sp v)
    | eval e => exact .inl ⟨rfl, e, rfl⟩
    | ret v => exact .inr ⟨by simp, rfl⟩
    | pause => exact .inr ⟨by simp, rfl⟩

/-- Waking the innermost activation: its callback has returned. -/
def State.woken (s : State) : State := s.mapInner fun a => { a with call := none }

/-- A turn inside a callback ends in one of four ways. -/
theorem hostTurn_cases (k : Option Byte → State → State) (s : State) :
    (∃ t, hostRun s.script s = (.called, t) ∧ hostTurn k s = t) ∨
    (∃ t, hostRun s.script s = (.paused, t) ∧ hostTurn k s = t) ∨
    (∃ v t, hostRun s.script s = (.returned v, t) ∧ hostTurn k s = k (some v) t.woken) ∨
    (∃ t, hostRun s.script s = (.silent, t) ∧ hostTurn k s = k none t.woken) := by
  unfold hostTurn
  split
  · exact .inl ⟨_, ‹_›, rfl⟩
  · exact .inr (.inl ⟨_, ‹_›, rfl⟩)
  · exact .inr (.inr (.inl ⟨_, _, ‹_›, rfl⟩))
  · exact .inr (.inr (.inr ⟨_, ‹_›, rfl⟩))

/-- A callback whose host has nothing to do returns at once. -/
theorem callHost_silent {d : Decoder} {aw : Await} {k : Option Byte → State → State} {s : State} {a : Activation}
    {rest : List Activation} (hs : s.script = []) (ha : s.acts = a :: rest) :
    callHost d aw k s = k none { s with acts := { a with call := none } :: rest } := by
  simp [callHost, hostTurn, State.mapInner, ha, hs]

/-- A callback whose host returns at once. -/
theorem callHost_ret {d : Decoder} {aw : Await} {k : Option Byte → State → State} {s : State} {a : Activation}
    {rest : List Activation} {v : Byte} {l : List HostAction} (hs : s.script = .ret v :: l) (ha : s.acts = a :: rest) :
    callHost d aw k s = k (some v) { s with script := l, acts := { a with call := none } :: rest } := by
  simp [callHost, hostTurn, State.mapInner, ha, hs]

/-- A callback whose host calls `Eval` at once: the activation waits, a nested one has started (R34). -/
theorem callHost_eval {d : Decoder} {aw : Await} {k : Option Byte → State → State} {s : State} {a : Activation}
    {rest : List Activation} {e : Short} {l : List HostAction} (hs : s.script = .eval e :: l) (ha : s.acts = a :: rest) :
    callHost d aw k s =
      { s with script := l, acts := ⟨e, false, none⟩ :: { a with call := some ⟨d, aw⟩ } :: rest } := by
  simp [callHost, hostTurn, State.mapInner, ha, hs]

/-- A callback in which the host goes on acting in the next step: the activation waits (R36, R38 (b)). -/
theorem callHost_pause {d : Decoder} {aw : Await} {k : Option Byte → State → State} {s : State} {a : Activation}
    {rest : List Activation} {l : List HostAction} (hs : s.script = .pause :: l) (ha : s.acts = a :: rest) :
    callHost d aw k s = { s with script := l, acts := { a with call := some ⟨d, aw⟩ } :: rest } := by
  simp [callHost, hostTurn, State.mapInner, ha, hs]

/-- The host's turn never clears the fault record. -/
theorem hostRun_faultSeen (l : List HostAction) (s : State) : (hostRun l s).2.faultSeen = s.faultSeen :=
  hostRun_keeps (P := fun t => t.faultSeen = s.faultSeen) rfl (fun _ _ _ h => h) (fun t sp v _ h => by simpa using h)
    (fun _ _ _ h => h) (fun _ _ h => h)

/-- The log has grown by answers to reads of the host's alone. -/
def State.readsSince (s t : State) : Prop :=
  ∃ later, t.log = later ++ s.log ∧ ∀ e ∈ later, ∃ sp v, e = .hostRead sp v

/-- The host's turn notes reads in the log and nothing else. -/
theorem hostRun_log (l : List HostAction) (s : State) : s.readsSince (hostRun l s).2 := by
  refine hostRun_keeps (P := s.readsSince) ⟨[], rfl, by simp⟩ ?_ (fun t sp v _ h => ?_) (fun _ _ _ h => h) (fun _ _ h => h)
  · rintro t sp v ⟨later, h, hr⟩
    exact ⟨.hostRead sp v :: later, by rw [State.tell_log, h, List.cons_append], by simpa using hr⟩
  · rw [State.readsSince, State.hostWrite_log]; exact h

/-- What a callback can do: the host has nested an activation above the waiting one, or it goes on acting while that one
waits, or it has returned and `k` goes on with the same activations, the innermost woken; in each case the log has grown by the host's reads alone. -/
theorem callHost_post {Q : State → Prop} {d : Decoder} {aw : Await} {k : Option Byte → State → State} {s : State}
    {a : Activation} {rest : List Activation} (ha : s.acts = a :: rest)
    (hcall : ∀ t e, t.acts = ⟨e, false, none⟩ :: { a with call := some ⟨d, aw⟩ } :: rest →
      t.faultSeen = s.faultSeen → s.readsSince t → Q t)
    (hpause : ∀ t, t.acts = { a with call := some ⟨d, aw⟩ } :: rest → t.faultSeen = s.faultSeen → s.readsSince t → Q t)
    (hret : ∀ b t, t.acts = { a with call := none } :: rest → t.faultSeen = s.faultSeen → s.readsSince t → Q (k b t)) :
    Q (callHost d aw k s) := by
  let w := s.mapInner fun a => { a with call := some ⟨d, aw⟩ }
  have h1 := hostRun_acts w.script w
  have h2 := (hostRun_faultSeen w.script w).trans (State.mapInner_faultSeen s _)
  have h3 : w.acts = { a with call := some ⟨d, aw⟩ } :: rest := by rw [State.mapInner_acts, ha]
  have h4 : s.readsSince (hostRun w.script w).2 := by
    have h := hostRun_log w.script w
    rwa [State.readsSince, State.mapInner_log] at h
  have wake : ∀ t : State, t.acts = { a with call := some ⟨d, aw⟩ } :: rest → t.faultSeen = s.faultSeen →
      s.readsSince t → t.woken.acts = { a with call := none } :: rest ∧ t.woken.faultSeen = s.faultSeen ∧
        s.readsSince t.woken := fun t e1 e2 e3 =>
    ⟨by rw [State.woken, State.mapInner_acts, e1], by rw [State.woken, State.mapInner_faultSeen, e2],
      by rw [State.readsSince, State.woken, State.mapInner_log]; exact e3⟩
  change Q (hostTurn k w)
  rcases hostTurn_cases k w with ⟨t, e1, e2⟩ | ⟨t, e1, e2⟩ | ⟨v, t, e1, e2⟩ | ⟨t, e1, e2⟩
  all_goals rw [e1] at h1 h2 h4; rw [e2]
  · rcases h1 with ⟨-, e, h1⟩ | ⟨h1, -⟩
    · exact hcall t e (by rw [h1, h3]) h2 h4
    · exact absurd rfl h1
  · rcases h1 with ⟨h1, -⟩ | ⟨-, h1⟩
    · cases h1
    · exact hpause t (h1.trans h3) h2 h4
  · rcases h1 with ⟨h1, -⟩ | ⟨-, h1⟩
    · cases h1
    · obtain ⟨w1, w2, w3⟩ := wake t (h1.trans h3) h2 h4
      exact hret _ _ w1 w2 w3
  · rcases h1 with ⟨h1, -⟩ | ⟨-, h1⟩
    · cases h1
    · obtain ⟨w1, w2, w3⟩ := wake t (h1.trans h3) h2 h4
      exact hret _ _ w1 w2 w3

/-- Taking a fault while the host has nothing to do (R272, R276). -/
theorem raiseFault_silent {d : Decoder} {f : VmFault} {s : State} (hs : s.script = []) :
    raiseFault d f s =
      { s with
        acts := s.acts.tail
        faultSeen := true
        log := .evalReturn (.fault f) :: .halt d.ins f.code (d.pc1 - 1) :: s.log } := by
  cases s with
  | mk mem wst rst dev acts script freeCount log faultSeen =>
    cases hs
    cases acts <;> rfl

end Sys2Proof.Machine
end

