-- ==== Sys2Proof/Laws/Micro.lean ====
section
/-! SUPPORT. What each decoder primitive can do, said once: running an instruction's pseudocode on a state is a chain of
pops (`popLocal m s p`: `p` bytes popped so far), then pushes. -/

namespace Sys2Proof.Machine

/-! ### The order of statements (R10, R270) -/

theorem andThen_ok {α β : Type} {x : Micro α} {f : α → Micro β} {l l' : Local} {a : α} (h : x l = .ok a l') :
    andThen x f l = f a l' := by simp only [andThen, h]

theorem andThen_raised {α β : Type} {x : Micro α} {f : α → Micro β} {l l' : Local} {e : VmFault}
    (h : x l = .raised e l') : andThen x f l = .raised e l' := by simp only [andThen, h]

@[simp] theorem done_run {α : Type} (a : α) (l : Local) : done a l = .ok a l := rfl
@[simp] theorem raise_run (f : VmFault) (l : Local) : raise f l = .raised f l := rfl
@[simp] theorem getPc_run (l : Local) : getPc l = .ok l.st.pc l := rfl
@[simp] theorem putPc_run (t : Short) (l : Local) : putPc t l = .ok () ⟨l.st.setPc t, l.kc⟩ := rfl
@[simp] theorem jump_run (m : Mode) (a : Short) (l : Local) :
    jump m a l = .ok () ⟨l.st.setPc (jumpTarget m l.st.pc a), l.kc⟩ := rfl

/-! ### Depths -/

theorem State.depth_lt (s : State) (k : StackId) : s.depth k < 256 := (s.stack k).ptr.isLt
theorem State.ptr_eq (s : State) (k : StackId) : (s.stack k).ptr = BitVec.ofNat 8 (s.depth k) := by simp [State.depth]
theorem State.datum_lt (s : State) (k : StackId) (i : Nat) : s.datum k i < 256 := ((s.stack k).dat.read i).isLt
theorem State.byteBelow_lt (s : State) (k : StackId) (o : Nat) : s.byteBelow k o < 256 := State.datum_lt ..
theorem State.shortBelow_lt (s : State) (k : StackId) (o : Nat) : s.shortBelow k o < 65536 := by
  have h1 := s.datum_lt k (s.depth k - 2 - o)
  have h2 := s.datum_lt k (s.depth k - 1 - o)
  unfold State.shortBelow; omega
theorem State.item_lt (s : State) (m : Mode) (o : Nat) : s.item m o < 2 ^ m.width := by
  unfold State.item Mode.width
  split
  · exact s.shortBelow_lt _ o
  · exact s.byteBelow_lt _ o

theorem State.depth_popped (s : State) (m : Mode) (p : Nat) :
    (s.popped m p).depth m.src = if m.keep then s.depth m.src else s.depth m.src - p := by
  have := s.depth_lt m.src
  unfold State.popped
  split
  · rfl
  · simp [State.depth]; omega
@[simp] theorem State.depth_dst_popped (s : State) (m : Mode) (p : Nat) : (s.popped m p).depth m.dst = s.depth m.dst := by
  unfold State.popped
  split
  · rfl
  · simp [State.depth, State.stack_setStack_other _ _ (dst_ne_src m)]
@[simp] theorem State.dat_popped (s : State) (m : Mode) (p : Nat) (k : StackId) :
    ((s.popped m p).stack k).dat = (s.stack k).dat := by
  unfold State.popped
  split
  · rfl
  · by_cases h : k = m.src
    · subst h; simp
    · rw [State.stack_setStack_other _ _ h]
@[simp] theorem State.datum_popped (s : State) (m : Mode) (p : Nat) (k : StackId) (i : Nat) :
    (s.popped m p).datum k i = s.datum k i := by simp [State.datum]
@[simp] theorem State.popped_zero (s : State) (m : Mode) : s.popped m 0 = s := by
  unfold State.popped
  split
  · rfl
  · have : ({ s.stack m.src with ptr := BitVec.ofNat 8 (s.depth m.src - 0) } : Stack) = s.stack m.src := by
      simp [State.depth]
    rw [this, State.setStack_stack]

/-! ### Pops -/

/-- The decoder's locals after pops of `p` bytes in all, with modes `m`, from state `s`. -/
def popLocal (m : Mode) (s : State) (p : Nat) : Local :=
  ⟨s.popped m p, if m.keep then some (BitVec.ofNat 8 (s.depth m.src - p)) else none⟩

@[simp] theorem popLocal_st (m : Mode) (s : State) (p : Nat) : (popLocal m s p).st = s.popped m p := rfl

theorem start_popLocal (ins : Byte) (m : Mode) (s : State) : ⟨s, (startDecoder ins m s).kc⟩ = popLocal m s 0 := by
  simp [popLocal, startDecoder, State.depth]

theorem popLocal_cursor (m : Mode) (s : State) (p : Nat) :
    (popLocal m s p).cursor m.src = BitVec.ofNat 8 (s.depth m.src - p) := by
  unfold popLocal Local.cursor State.popped
  by_cases h : m.keep <;> simp [h]

theorem popLocal_setCursor (m : Mode) (s : State) (p q : Nat) :
    (popLocal m s p).setCursor m.src (BitVec.ofNat 8 (s.depth m.src - q)) = popLocal m s q := by
  unfold popLocal Local.setCursor State.popped
  by_cases h : m.keep <;> simp [h]

theorem popLocal_byte (m : Mode) (s : State) (p : Nat) {i : Nat} (h : i < 256) :
    ((popLocal m s p).st.stack m.src).byte (BitVec.ofNat 8 i) = BitVec.ofNat 8 (s.datum m.src i) := by
  simp [Stack.byte, State.datum, Nat.mod_eq_of_lt h]

theorem ofNat8_sub_one {a : Nat} (h : 1 ≤ a) : BitVec.ofNat 8 a - 1 = BitVec.ofNat 8 (a - 1) := by
  apply BitVec.eq_of_toNat_eq; simp; omega
theorem ofNat8_sub_two {a : Nat} (h : 2 ≤ a) : BitVec.ofNat 8 a - 2 = BitVec.ofNat 8 (a - 2) := by
  apply BitVec.eq_of_toNat_eq; simp; omega
theorem ofNat8_add_one (a : Nat) : BitVec.ofNat 8 a + 1 = BitVec.ofNat 8 (a + 1) := by
  apply BitVec.eq_of_toNat_eq; simp

theorem pop8_popLocal {m : Mode} {s : State} {p : Nat} (h : p + 1 ≤ s.depth m.src) :
    pop8 m.src (popLocal m s p) = .ok (BitVec.ofNat 8 (s.byteBelow m.src p)) (popLocal m s (p + 1)) := by
  have hlt := s.depth_lt m.src
  have hc : ¬ (popLocal m s p).cursor m.src = 0 := by
    rw [popLocal_cursor]; intro h0
    have := congrArg BitVec.toNat h0
    simp at this; omega
  have e : BitVec.ofNat 8 (s.depth m.src - p) - 1 = BitVec.ofNat 8 (s.depth m.src - (p + 1)) := by
    rw [ofNat8_sub_one (by omega)]; rfl
  have e2 : s.depth m.src - (p + 1) = s.depth m.src - 1 - p := by omega
  rw [pop8, if_neg hc, popLocal_cursor, e, popLocal_setCursor, popLocal_byte m s p (by omega), e2]; rfl

theorem pop8_popLocal_underflow {m : Mode} {s : State} {p : Nat} (h : s.depth m.src ≤ p) :
    pop8 m.src (popLocal m s p) = .raised .underflow (popLocal m s p) := by
  have hc : (popLocal m s p).cursor m.src = 0 := by
    rw [popLocal_cursor, Nat.sub_eq_zero_of_le h]; rfl
  simp only [pop8, if_pos hc]

theorem joinBytes_ofNat {a b : Nat} (_ : a < 256) (_ : b < 256) :
    joinBytes (BitVec.ofNat 8 a) (BitVec.ofNat 8 b) = BitVec.ofNat 16 (256 * a + b) := by
  apply BitVec.eq_of_toNat_eq
  rw [joinBytes_toNat]; simp; omega

theorem pop16_popLocal {m : Mode} {s : State} {p : Nat} (h : p + 2 ≤ s.depth m.src) :
    pop16 m.src (popLocal m s p) = .ok (BitVec.ofNat 16 (s.shortBelow m.src p)) (popLocal m s (p + 2)) := by
  have hlt := s.depth_lt m.src
  have hc : ¬ ((popLocal m s p).cursor m.src).toNat ≤ 1 := by
    rw [popLocal_cursor]; simp; omega
  have e1 : BitVec.ofNat 8 (s.depth m.src - p) - 1 = BitVec.ofNat 8 (s.depth m.src - 1 - p) := by
    rw [ofNat8_sub_one (by omega), show s.depth m.src - p - 1 = s.depth m.src - 1 - p by omega]
  have e2 : BitVec.ofNat 8 (s.depth m.src - p) - 2 = BitVec.ofNat 8 (s.depth m.src - (p + 2)) := by
    rw [ofNat8_sub_two (by omega)]; rfl
  have e3 : s.depth m.src - (p + 2) = s.depth m.src - 2 - p := by omega
  rw [pop16, if_neg hc, popLocal_cursor, e1, e2, popLocal_setCursor, popLocal_byte m s p (by omega), popLocal_byte m s p (by omega),
    joinBytes_ofNat (s.datum_lt _ _) (s.datum_lt _ _), e3]
  rfl

theorem pop16_popLocal_underflow {m : Mode} {s : State} {p : Nat} (h : s.depth m.src < p + 2) :
    pop16 m.src (popLocal m s p) = .raised .underflow (popLocal m s p) := by
  have hlt := s.depth_lt m.src
  have hc : ((popLocal m s p).cursor m.src).toNat ≤ 1 := by rw [popLocal_cursor]; simp; omega
  simp only [pop16, if_pos hc]

theorem zext8_ofNat {a : Nat} (h : a < 256) : zext8 (BitVec.ofNat 8 a) = BitVec.ofNat 16 a := by
  apply BitVec.eq_of_toNat_eq; simp [zext8]; omega

theorem popValue_popLocal {m : Mode} {s : State} {p : Nat} (h : p + m.bytes ≤ s.depth m.src) :
    popValue m (popLocal m s p) = .ok (BitVec.ofNat 16 (s.item m p)) (popLocal m s (p + m.bytes)) := by
  unfold popValue State.item
  unfold Mode.bytes at *
  split
  · rw [if_pos ‹_›] at h; exact pop16_popLocal h
  · rw [if_neg ‹_›] at h; rw [andThen_ok (pop8_popLocal h), done_run, zext8_ofNat (s.byteBelow_lt _ _)]

theorem popValue_popLocal_underflow {m : Mode} {s : State} {p : Nat} (h : s.depth m.src < p + m.bytes) :
    popValue m (popLocal m s p) = .raised .underflow (popLocal m s p) := by
  unfold popValue
  unfold Mode.bytes at *
  split
  · rw [if_pos ‹_›] at h; exact pop16_popLocal_underflow h
  · rw [if_neg ‹_›] at h; exact andThen_raised (pop8_popLocal_underflow (by omega))

/-! ### Pushes -/

theorem State.depth_withByte (s : State) (k : StackId) (v : Nat) (h : s.depth k + 1 ≤ 255) :
    (s.withByte k v).depth k = s.depth k + 1 := by
  simp [State.withByte, State.depth] at *; omega

theorem put8_withByte (s : State) (k : StackId) (v : Byte) :
    s.setStack k ((s.stack k).put8 v) = s.withByte k v.toNat := by
  simp only [State.withByte, Stack.put8, State.depth, BitVec.ofNat_toNat, BitVec.setWidth_eq]
  congr 2

theorem put16_withShort (s : State) (k : StackId) (v : Short) :
    s.setStack k ((s.stack k).put16 v) = s.withShort k v.toNat := by
  unfold Stack.put16 State.withShort
  rw [← hiByte_toNat, ← loByte_toNat, ← put8_withByte, ← put8_withByte, State.stack_setStack_same,
    State.setStack_setStack]

theorem push8_ok {k : StackId} {v : Byte} {l : Local} (h : l.st.depth k + 1 ≤ 255) :
    push8 k v l = .ok () ⟨l.st.withByte k v.toNat, l.kc⟩ := by
  have hc : ¬ (l.st.stack k).ptr = 255 := by
    intro h0; simp [State.depth, h0] at h
  simp only [push8, if_neg hc, put8_withByte]

theorem push8_overflow {k : StackId} {v : Byte} {l : Local} (h : ¬ l.st.depth k + 1 ≤ 255) :
    push8 k v l = .raised .overflow l := by
  have := l.st.depth_lt k
  have hc : (l.st.stack k).ptr = 255 := by
    apply BitVec.eq_of_toNat_eq; simp [State.depth] at *; omega
  simp only [push8, if_pos hc]

theorem push16_ok {k : StackId} {v : Short} {l : Local} (h : l.st.depth k + 2 ≤ 255) :
    push16 k v l = .ok () ⟨l.st.withShort k v.toNat, l.kc⟩ := by
  have hc : ¬ (l.st.stack k).ptr.toNat ≥ 254 := by simp [State.depth] at *; omega
  simp only [push16, if_neg hc, put16_withShort]

theorem push16_overflow {k : StackId} {v : Short} {l : Local} (h : ¬ l.st.depth k + 2 ≤ 255) :
    push16 k v l = .raised .overflow l := by
  have hc : (l.st.stack k).ptr.toNat ≥ 254 := by simp [State.depth] at *; omega
  simp only [push16, if_pos hc]

theorem pushValue_ok {m : Mode} {k : StackId} {v : Short} {l : Local} (h : l.st.depth k + m.bytes ≤ 255)
    (hv : v.toNat < 2 ^ m.width) : pushValue m k v l = .ok () ⟨l.st.withItem m k v.toNat, l.kc⟩ := by
  unfold pushValue State.withItem
  unfold Mode.bytes Mode.width at *
  split
  · rw [if_pos ‹_›] at h; exact push16_ok h
  · rw [if_neg ‹_›] at h hv
    rw [push8_ok h, loByte_toNat, Nat.mod_eq_of_lt (show v.toNat < 256 by simpa using hv)]

theorem pushValue_overflow {m : Mode} {k : StackId} {v : Short} {l : Local} (h : ¬ l.st.depth k + m.bytes ≤ 255) :
    pushValue m k v l = .raised .overflow l := by
  unfold pushValue
  unfold Mode.bytes at *
  split
  · rw [if_pos ‹_›] at h; exact push16_overflow h
  · rw [if_neg ‹_›] at h; exact push8_overflow h

theorem State.depth_withShort (s : State) (k : StackId) (v : Nat) (h : s.depth k + 2 ≤ 255) :
    (s.withShort k v).depth k = s.depth k + 2 := by
  unfold State.withShort
  have h1 := s.depth_withByte k (v / 256) (by omega)
  rw [State.depth_withByte _ _ _ (by omega), h1]

theorem State.depth_withItem (s : State) (m : Mode) (k : StackId) (v : Nat) (h : s.depth k + m.bytes ≤ 255) :
    (s.withItem m k v).depth k = s.depth k + m.bytes := by
  unfold State.withItem
  unfold Mode.bytes at *
  split
  · rw [if_pos ‹_›] at h; exact s.depth_withShort k v h
  · rw [if_neg ‹_›] at h; exact s.depth_withByte k v h

/-! ### What pops and pushes leave alone -/

@[simp] theorem State.popped_mem (s : State) (m : Mode) (p : Nat) : (s.popped m p).mem = s.mem := by
  unfold State.popped; split <;> simp
@[simp] theorem State.popped_dev (s : State) (m : Mode) (p : Nat) : (s.popped m p).dev = s.dev := by
  unfold State.popped; split <;> simp
@[simp] theorem State.popped_acts (s : State) (m : Mode) (p : Nat) : (s.popped m p).acts = s.acts := by
  unfold State.popped; split <;> simp
@[simp] theorem State.popped_script (s : State) (m : Mode) (p : Nat) : (s.popped m p).script = s.script := by
  unfold State.popped; split <;> simp
@[simp] theorem State.popped_freeCount (s : State) (m : Mode) (p : Nat) : (s.popped m p).freeCount = s.freeCount := by
  unfold State.popped; split <;> simp
@[simp] theorem State.popped_log (s : State) (m : Mode) (p : Nat) : (s.popped m p).log = s.log := by
  unfold State.popped; split <;> simp
@[simp] theorem State.popped_faultSeen (s : State) (m : Mode) (p : Nat) : (s.popped m p).faultSeen = s.faultSeen := by
  unfold State.popped; split <;> simp
@[simp] theorem State.popped_pc (s : State) (m : Mode) (p : Nat) : (s.popped m p).pc = s.pc := by
  unfold State.popped; split <;> simp
@[simp] theorem State.withByte_mem (s : State) (k : StackId) (v : Nat) : (s.withByte k v).mem = s.mem := by
  simp [State.withByte]
@[simp] theorem State.withShort_mem (s : State) (k : StackId) (v : Nat) : (s.withShort k v).mem = s.mem := by
  simp [State.withShort]
@[simp] theorem State.withItem_mem (s : State) (m : Mode) (k : StackId) (v : Nat) :
    (s.withItem m k v).mem = s.mem := by
  unfold State.withItem; split <;> simp
@[simp] theorem State.withByte_dev (s : State) (k : StackId) (v : Nat) : (s.withByte k v).dev = s.dev := by
  simp [State.withByte]
@[simp] theorem State.withShort_dev (s : State) (k : StackId) (v : Nat) : (s.withShort k v).dev = s.dev := by
  simp [State.withShort]
@[simp] theorem State.withItem_dev (s : State) (m : Mode) (k : StackId) (v : Nat) :
    (s.withItem m k v).dev = s.dev := by
  unfold State.withItem; split <;> simp
@[simp] theorem State.withByte_acts (s : State) (k : StackId) (v : Nat) : (s.withByte k v).acts = s.acts := by
  simp [State.withByte]
@[simp] theorem State.withShort_acts (s : State) (k : StackId) (v : Nat) : (s.withShort k v).acts = s.acts := by
  simp [State.withShort]
@[simp] theorem State.withItem_acts (s : State) (m : Mode) (k : StackId) (v : Nat) :
    (s.withItem m k v).acts = s.acts := by
  unfold State.withItem; split <;> simp
@[simp] theorem State.withByte_script (s : State) (k : StackId) (v : Nat) : (s.withByte k v).script = s.script := by
  simp [State.withByte]
@[simp] theorem State.withShort_script (s : State) (k : StackId) (v : Nat) : (s.withShort k v).script = s.script := by
  simp [State.withShort]
@[simp] theorem State.withItem_script (s : State) (m : Mode) (k : StackId) (v : Nat) :
    (s.withItem m k v).script = s.script := by
  unfold State.withItem; split <;> simp
@[simp] theorem State.withByte_freeCount (s : State) (k : StackId) (v : Nat) : (s.withByte k v).freeCount = s.freeCount := by
  simp [State.withByte]
@[simp] theorem State.withShort_freeCount (s : State) (k : StackId) (v : Nat) : (s.withShort k v).freeCount = s.freeCount := by
  simp [State.withShort]
@[simp] theorem State.withItem_freeCount (s : State) (m : Mode) (k : StackId) (v : Nat) :
    (s.withItem m k v).freeCount = s.freeCount := by
  unfold State.withItem; split <;> simp
@[simp] theorem State.withByte_log (s : State) (k : StackId) (v : Nat) : (s.withByte k v).log = s.log := by
  simp [State.withByte]
@[simp] theorem State.withShort_log (s : State) (k : StackId) (v : Nat) : (s.withShort k v).log = s.log := by
  simp [State.withShort]
@[simp] theorem State.withItem_log (s : State) (m : Mode) (k : StackId) (v : Nat) :
    (s.withItem m k v).log = s.log := by
  unfold State.withItem; split <;> simp
@[simp] theorem State.withByte_faultSeen (s : State) (k : StackId) (v : Nat) : (s.withByte k v).faultSeen = s.faultSeen := by
  simp [State.withByte]
@[simp] theorem State.withShort_faultSeen (s : State) (k : StackId) (v : Nat) : (s.withShort k v).faultSeen = s.faultSeen := by
  simp [State.withShort]
@[simp] theorem State.withItem_faultSeen (s : State) (m : Mode) (k : StackId) (v : Nat) :
    (s.withItem m k v).faultSeen = s.faultSeen := by
  unfold State.withItem; split <;> simp
@[simp] theorem State.withByte_pc (s : State) (k : StackId) (v : Nat) : (s.withByte k v).pc = s.pc := by
  simp [State.withByte]
@[simp] theorem State.withShort_pc (s : State) (k : StackId) (v : Nat) : (s.withShort k v).pc = s.pc := by
  simp [State.withShort]
@[simp] theorem State.withItem_pc (s : State) (m : Mode) (k : StackId) (v : Nat) :
    (s.withItem m k v).pc = s.pc := by
  unfold State.withItem; split <;> simp
theorem State.stack_withByte_other (s : State) {j k : StackId} (v : Nat) (h : j ≠ k) :
    (s.withByte k v).stack j = s.stack j := State.stack_setStack_other _ _ h
theorem State.stack_withShort_other (s : State) {j k : StackId} (v : Nat) (h : j ≠ k) :
    (s.withShort k v).stack j = s.stack j := by
  rw [State.withShort, State.stack_withByte_other _ _ h, State.stack_withByte_other _ _ h]
theorem State.stack_withItem_other (s : State) (m : Mode) {j k : StackId} (v : Nat) (h : j ≠ k) :
    (s.withItem m k v).stack j = s.stack j := by
  unfold State.withItem
  split
  · exact s.stack_withShort_other v h
  · exact s.stack_withByte_other v h

/-- A byte other than the pushed one is as before. -/
theorem State.datum_withByte_other (s : State) (k : StackId) (v : Nat) {i : Nat} (h : i ≠ s.depth k) :
    (s.withByte k v).datum k i = s.datum k i := by
  simp [State.withByte, State.datum, Memory.read_write_other _ _ h]

/-- The pushed byte is where the pointer was. -/
theorem State.datum_withByte_self {s : State} {k : StackId} {size : Nat} (hs : (s.stack k).dat.wf size = true) (v : Nat) :
    (s.withByte k v).datum k (s.depth k) = v % 256 := by
  simp [State.withByte, State.datum, Memory.read_write_self hs]

/-! ### The rest of a meaning -/

theorem deliver_ok {d : Decoder} {p : Micro Unit} {s : State} {l : Local} (h : p ⟨s, d.kc⟩ = .ok () l) :
    deliver d p s = l.st := by simp [deliver, deliverThen, h]

theorem deliver_error {d : Decoder} {p : Micro Unit} {s : State} {f : VmFault} {l : Local}
    (h : p ⟨s, d.kc⟩ = .raised f l) : deliver d p s = raiseFault { d with kc := l.kc } f l.st := by
  simp [deliver, deliverThen, h]

/-- A meaning whose pseudocode ends without a fault. -/
theorem runMicro_ok {i : Instr} {m : Mode} {p : Micro Unit} {s : State} {l : Local} (h : p (popLocal m s 0) = .ok () l) :
    runMicro i m p s = .next l.st := by
  rw [runMicro, deliver_ok]; rw [start_popLocal]; exact h

/-- A meaning whose pseudocode raises a fault. -/
theorem runMicro_error {i : Instr} {m : Mode} {p : Micro Unit} {s : State} {f : VmFault} {l : Local}
    (h : p (popLocal m s 0) = .raised f l) :
    runMicro i m p s = .next (raiseFault ⟨i.opcode, m, s.pc, l.kc⟩ f l.st) := by
  have : p ⟨s, (startDecoder i.opcode m s).kc⟩ = .raised f l := by rw [start_popLocal]; exact h
  rw [runMicro, deliver_error this]; rfl

end Sys2Proof.Machine
end

