-- ==== Sys2Proof/Laws/Runs.lean ====
section
/-! SUPPORT. What running an instruction can change, said once. `Runs R p`: whatever `p` does, and whether it ends or
faults, its start and its end are related by `R`. Every instruction but BRK, DEI and DEO is one piece of pseudocode over
five kinds of effect, so a relation closed under those is kept by all of them (`exec_runs`); `exec_keeps` and `step_keeps`
say the same of properties of states, with the host's turns. -/

namespace Sys2Proof.Machine

/-- `R` relates the start of `p` to its end, in a result or in a fault. -/
def Runs {α : Type} (R : Local → Local → Prop) (p : Micro α) : Prop :=
  ∀ l, match p l with
    | .ok _ l' => R l l'
    | .raised _ l' => R l l'

/-- A relation that the effects of pseudocode other than stores to Ram keep. -/
structure StackClosed (R : Local → Local → Prop) : Prop where
  refl : ∀ l, R l l
  trans : ∀ {l1 l2 l3}, R l1 l2 → R l2 l3 → R l1 l3
  /-- A pop lowers the cursor. -/
  lower : ∀ l k c, c.toNat ≤ (l.cursor k).toNat → R l (l.setCursor k c)
  /-- A push stores one byte below index 255 and advances the pointer. -/
  put : ∀ l k v, (l.st.stack k).ptr ≠ 255 → R l { l with st := l.st.setStack k ((l.st.stack k).put8 v) }
  pc : ∀ l t, R l { l with st := l.st.setPc t }

/-- A relation that stores to Ram keep. -/
def StoreClosed (R : Local → Local → Prop) : Prop := ∀ l a v, R l { l with st := l.st.memWrite1 a v }

theorem Runs.andThen {α β : Type} {R : Local → Local → Prop} (hR : StackClosed R) {x : Micro α} {f : α → Micro β}
    (hx : Runs R x) (hf : ∀ a, Runs R (f a)) : Runs R (andThen x f) := by
  intro l
  have h1 := hx l
  unfold Machine.andThen
  cases hxl : x l with
  | ok a l' =>
    rw [hxl] at h1
    have h2 := hf a l'
    cases hfa : f a l' with
    | ok b l'' => rw [hfa] at h2; simp only [hfa]; exact hR.trans h1 h2
    | raised e l'' => rw [hfa] at h2; simp only [hfa]; exact hR.trans h1 h2
  | raised e l' => rw [hxl] at h1; exact h1

theorem runs_done {α : Type} {R : Local → Local → Prop} (hR : StackClosed R) (a : α) : Runs R (done a) :=
  fun l => hR.refl l
theorem runs_raise {R : Local → Local → Prop} (hR : StackClosed R) (f : VmFault) : Runs R (raise f) := fun l => hR.refl l
theorem runs_getPc {R : Local → Local → Prop} (hR : StackClosed R) : Runs R getPc := fun l => hR.refl l
theorem runs_putPc {R : Local → Local → Prop} (hR : StackClosed R) (t : Short) : Runs R (putPc t) := fun l => hR.pc l t
theorem runs_peek {R : Local → Local → Prop} (hR : StackClosed R) (m : Mode) (a : Short) : Runs R (peek m a) :=
  fun l => hR.refl l
theorem runs_jump {R : Local → Local → Prop} (hR : StackClosed R) (m : Mode) (a : Short) : Runs R (jump m a) :=
  (runs_getPc hR).andThen hR fun _ => runs_putPc hR _

theorem runs_pop8 {R : Local → Local → Prop} (hR : StackClosed R) (k : StackId) : Runs R (pop8 k) := by
  intro l
  unfold pop8
  by_cases h : l.cursor k = 0
  · simpa only [if_pos h] using hR.refl l
  · simp only [if_neg h]
    refine hR.lower l k _ ?_
    have : (l.cursor k).toNat ≠ 0 := fun h0 => h (BitVec.eq_of_toNat_eq (by simpa using h0))
    have := (l.cursor k).isLt
    rw [BitVec.toNat_sub]; simp; omega

theorem runs_pop16 {R : Local → Local → Prop} (hR : StackClosed R) (k : StackId) : Runs R (pop16 k) := by
  intro l
  unfold pop16
  by_cases h : (l.cursor k).toNat ≤ 1
  · simpa only [if_pos h] using hR.refl l
  · simp only [if_neg h]
    refine hR.lower l k _ ?_
    have := (l.cursor k).isLt
    rw [BitVec.toNat_sub]; simp; omega

theorem runs_popValue {R : Local → Local → Prop} (hR : StackClosed R) (m : Mode) : Runs R (popValue m) := by
  unfold popValue
  split
  · exact runs_pop16 hR _
  · exact (runs_pop8 hR _).andThen hR fun _ => runs_done hR _

theorem runs_push8 {R : Local → Local → Prop} (hR : StackClosed R) (k : StackId) (v : Byte) : Runs R (push8 k v) := by
  intro l
  unfold push8
  by_cases h : (l.st.stack k).ptr = 255
  · simpa only [if_pos h] using hR.refl l
  · simpa only [if_neg h] using hR.put l k v h

theorem runs_push16 {R : Local → Local → Prop} (hR : StackClosed R) (k : StackId) (v : Short) :
    Runs R (push16 k v) := by
  intro l
  unfold push16
  by_cases h : (l.st.stack k).ptr.toNat ≥ 254
  · simpa only [if_pos h] using hR.refl l
  · simp only [if_neg h]
    have h1 : (l.st.stack k).ptr ≠ 255 := by intro h0; rw [h0] at h; exact h (by decide)
    have h2 : ((l.st.stack k).put8 (hiByte v)).ptr ≠ 255 := by
      intro h0
      have := congrArg BitVec.toNat h0
      simp [Stack.put8] at this; omega
    have := hR.trans (hR.put l k (hiByte v) h1) (hR.put _ k (loByte v) (by simpa using h2))
    simpa [Stack.put16] using this

theorem runs_pushValue {R : Local → Local → Prop} (hR : StackClosed R) (m : Mode) (k : StackId) (v : Short) :
    Runs R (pushValue m k v) := by
  unfold pushValue
  split
  · exact runs_push16 hR k v
  · exact runs_push8 hR k _

theorem runs_poke {R : Local → Local → Prop} (hR : StackClosed R) (hS : StoreClosed R) (m : Mode) (a v : Short) :
    Runs R (poke m a v) := by
  intro l
  unfold poke
  by_cases h : m.short
  · simp only [if_pos h]; exact hR.trans (hS l a (hiByte v)) (hS _ (a + 1) (loByte v))
  · simp only [if_neg h]; exact hS l a (loByte v)

/-- Every instruction but BRK, DEI and DEO runs one piece of pseudocode, and it keeps every relation closed under the
effects it has. -/
theorem exec_runs (i : Instr) :
    i = .brk ∨ (∃ m, i = .dei m) ∨ (∃ m, i = .deo m) ∨
      ∃ m p, (∀ s, exec i s = runMicro i m p s) ∧
        ∀ R, StackClosed R → (storesToRam i = true → StoreClosed R) → Runs R p := by
  cases i with
  | brk => exact .inl rfl
  | dei m => exact .inr (.inl ⟨m, rfl⟩)
  | deo m => exact .inr (.inr (.inl ⟨m, rfl⟩))
  | jci off => exact .inr (.inr (.inr ⟨_, _, fun _ => rfl, fun R hR hS => (runs_pop8 hR _).andThen hR fun _ => (runs_getPc hR).andThen hR fun _ => runs_putPc hR _⟩))
  | jmi off => exact .inr (.inr (.inr ⟨_, _, fun _ => rfl, fun R hR hS => (runs_getPc hR).andThen hR fun _ => runs_putPc hR _⟩))
  | jsi off => exact .inr (.inr (.inr ⟨_, _, fun _ => rfl, fun R hR hS => (runs_getPc hR).andThen hR fun _ => (runs_push16 hR _ _).andThen hR fun _ => runs_putPc hR _⟩))
  | lit v => exact .inr (.inr (.inr ⟨_, _, fun _ => rfl, fun R hR hS => (runs_getPc hR).andThen hR fun _ => (runs_putPc hR _).andThen hR fun _ => runs_push8 hR _ _⟩))
  | lit2 v => exact .inr (.inr (.inr ⟨_, _, fun _ => rfl, fun R hR hS => (runs_getPc hR).andThen hR fun _ => (runs_putPc hR _).andThen hR fun _ => runs_push16 hR _ _⟩))
  | litr v => exact .inr (.inr (.inr ⟨_, _, fun _ => rfl, fun R hR hS => (runs_getPc hR).andThen hR fun _ => (runs_putPc hR _).andThen hR fun _ => runs_push8 hR _ _⟩))
  | lit2r v => exact .inr (.inr (.inr ⟨_, _, fun _ => rfl, fun R hR hS => (runs_getPc hR).andThen hR fun _ => (runs_putPc hR _).andThen hR fun _ => runs_push16 hR _ _⟩))
  | inc m => exact .inr (.inr (.inr ⟨_, _, fun _ => rfl, fun R hR hS => (runs_popValue hR _).andThen hR fun _ => runs_pushValue hR _ _ _⟩))
  | pop m => exact .inr (.inr (.inr ⟨_, _, fun _ => rfl, fun R hR hS => (runs_popValue hR _).andThen hR fun _ => runs_done hR _⟩))
  | nip m => exact .inr (.inr (.inr ⟨_, _, fun _ => rfl, fun R hR hS => (runs_popValue hR _).andThen hR fun _ => (runs_popValue hR _).andThen hR fun _ => runs_pushValue hR _ _ _⟩))
  | swp m => exact .inr (.inr (.inr ⟨_, _, fun _ => rfl, fun R hR hS => (runs_popValue hR _).andThen hR fun _ => (runs_popValue hR _).andThen hR fun _ => (runs_pushValue hR _ _ _).andThen hR fun _ => runs_pushValue hR _ _ _⟩))
  | rot m => exact .inr (.inr (.inr ⟨_, _, fun _ => rfl, fun R hR hS => (runs_popValue hR _).andThen hR fun _ => (runs_popValue hR _).andThen hR fun _ => (runs_popValue hR _).andThen hR fun _ => (runs_pushValue hR _ _ _).andThen hR fun _ => (runs_pushValue hR _ _ _).andThen hR fun _ => runs_pushValue hR _ _ _⟩))
  | dup m => exact .inr (.inr (.inr ⟨_, _, fun _ => rfl, fun R hR hS => (runs_popValue hR _).andThen hR fun _ => (runs_pushValue hR _ _ _).andThen hR fun _ => runs_pushValue hR _ _ _⟩))
  | ovr m => exact .inr (.inr (.inr ⟨_, _, fun _ => rfl, fun R hR hS => (runs_popValue hR _).andThen hR fun _ => (runs_popValue hR _).andThen hR fun _ => (runs_pushValue hR _ _ _).andThen hR fun _ => (runs_pushValue hR _ _ _).andThen hR fun _ => runs_pushValue hR _ _ _⟩))
  | jmp m => exact .inr (.inr (.inr ⟨_, _, fun _ => rfl, fun R hR hS => (runs_popValue hR _).andThen hR fun _ => runs_jump hR _ _⟩))
  | jsr m => exact .inr (.inr (.inr ⟨_, _, fun _ => rfl, fun R hR hS => (runs_popValue hR _).andThen hR fun _ => (runs_getPc hR).andThen hR fun _ => (runs_push16 hR _ _).andThen hR fun _ => runs_jump hR _ _⟩))
  | sth m => exact .inr (.inr (.inr ⟨_, _, fun _ => rfl, fun R hR hS => (runs_popValue hR _).andThen hR fun _ => runs_pushValue hR _ _ _⟩))
  | ldz m => exact .inr (.inr (.inr ⟨_, _, fun _ => rfl, fun R hR hS => (runs_pop8 hR _).andThen hR fun _ => (runs_peek hR _ _).andThen hR fun _ => runs_pushValue hR _ _ _⟩))
  | stz m => exact .inr (.inr (.inr ⟨_, _, fun _ => rfl, fun R hR hS => (runs_pop8 hR _).andThen hR fun _ => (runs_popValue hR _).andThen hR fun _ => runs_poke hR (hS rfl) _ _ _⟩))
  | ldr m => exact .inr (.inr (.inr ⟨_, _, fun _ => rfl, fun R hR hS => (runs_pop8 hR _).andThen hR fun _ => (runs_getPc hR).andThen hR fun _ => (runs_peek hR _ _).andThen hR fun _ => runs_pushValue hR _ _ _⟩))
  | str m => exact .inr (.inr (.inr ⟨_, _, fun _ => rfl, fun R hR hS => (runs_pop8 hR _).andThen hR fun _ => (runs_popValue hR _).andThen hR fun _ => (runs_getPc hR).andThen hR fun _ => runs_poke hR (hS rfl) _ _ _⟩))
  | lda m => exact .inr (.inr (.inr ⟨_, _, fun _ => rfl, fun R hR hS => (runs_pop16 hR _).andThen hR fun _ => (runs_peek hR _ _).andThen hR fun _ => runs_pushValue hR _ _ _⟩))
  | sta m => exact .inr (.inr (.inr ⟨_, _, fun _ => rfl, fun R hR hS => (runs_pop16 hR _).andThen hR fun _ => (runs_popValue hR _).andThen hR fun _ => runs_poke hR (hS rfl) _ _ _⟩))
  | sft m => exact .inr (.inr (.inr ⟨_, _, fun _ => rfl, fun R hR hS => (runs_pop8 hR _).andThen hR fun _ => (runs_popValue hR _).andThen hR fun _ => runs_pushValue hR _ _ _⟩))
  | equ m => exact .inr (.inr (.inr ⟨_, _, fun _ => rfl, fun R hR hS => (runs_popValue hR _).andThen hR fun _ => (runs_popValue hR _).andThen hR fun _ => runs_push8 hR _ _⟩))
  | neq m => exact .inr (.inr (.inr ⟨_, _, fun _ => rfl, fun R hR hS => (runs_popValue hR _).andThen hR fun _ => (runs_popValue hR _).andThen hR fun _ => runs_push8 hR _ _⟩))
  | gth m => exact .inr (.inr (.inr ⟨_, _, fun _ => rfl, fun R hR hS => (runs_popValue hR _).andThen hR fun _ => (runs_popValue hR _).andThen hR fun _ => runs_push8 hR _ _⟩))
  | lth m => exact .inr (.inr (.inr ⟨_, _, fun _ => rfl, fun R hR hS => (runs_popValue hR _).andThen hR fun _ => (runs_popValue hR _).andThen hR fun _ => runs_push8 hR _ _⟩))
  | add m => exact .inr (.inr (.inr ⟨_, _, fun _ => rfl, fun R hR hS => (runs_popValue hR _).andThen hR fun _ => (runs_popValue hR _).andThen hR fun _ => runs_pushValue hR _ _ _⟩))
  | sub m => exact .inr (.inr (.inr ⟨_, _, fun _ => rfl, fun R hR hS => (runs_popValue hR _).andThen hR fun _ => (runs_popValue hR _).andThen hR fun _ => runs_pushValue hR _ _ _⟩))
  | mul m => exact .inr (.inr (.inr ⟨_, _, fun _ => rfl, fun R hR hS => (runs_popValue hR _).andThen hR fun _ => (runs_popValue hR _).andThen hR fun _ => runs_pushValue hR _ _ _⟩))
  | and m => exact .inr (.inr (.inr ⟨_, _, fun _ => rfl, fun R hR hS => (runs_popValue hR _).andThen hR fun _ => (runs_popValue hR _).andThen hR fun _ => runs_pushValue hR _ _ _⟩))
  | ora m => exact .inr (.inr (.inr ⟨_, _, fun _ => rfl, fun R hR hS => (runs_popValue hR _).andThen hR fun _ => (runs_popValue hR _).andThen hR fun _ => runs_pushValue hR _ _ _⟩))
  | eor m => exact .inr (.inr (.inr ⟨_, _, fun _ => rfl, fun R hR hS => (runs_popValue hR _).andThen hR fun _ => (runs_popValue hR _).andThen hR fun _ => runs_pushValue hR _ _ _⟩))
  | jcn m =>
    refine .inr (.inr (.inr ⟨_, _, fun _ => rfl, fun R hR hS => ?_⟩))
    refine (runs_popValue hR _).andThen hR fun _ => (runs_pop8 hR _).andThen hR fun _ => ?_
    split
    · exact runs_jump hR _ _
    · exact runs_done hR _
  | div m =>
    refine .inr (.inr (.inr ⟨_, _, fun _ => rfl, fun R hR hS => ?_⟩))
    refine (runs_popValue hR _).andThen hR fun _ => (runs_popValue hR _).andThen hR fun _ => ?_
    split
    · exact runs_raise hR _
    · exact runs_pushValue hR _ _ _

/-! ### Properties of states -/

/-- The innermost activation, if there is one, waits in a callback: the host is the active agent. -/
def State.hostActs (s : State) : Prop := ∀ a ∈ s.acts.head?, a.call.isSome

/-- A property of states that every effect other than a store to Ram keeps. -/
structure Kept (P : State → Prop) : Prop where
  ptr : ∀ s k c, P s → P (s.setStack k { s.stack k with ptr := c })
  put : ∀ s k v, (s.stack k).ptr ≠ 255 → P s → P (s.setStack k ((s.stack k).put8 v))
  inner : ∀ s f, P s → P (s.mapInner f)
  finish : ∀ s r, P s → P (s.endActivation r)
  tell : ∀ s e, P s → P (s.tell e)
  seen : ∀ s, P s → P { s with faultSeen := true }
  free : ∀ s, P s → P { s with freeCount := s.freeCount + 1 }
  host : ∀ s, s.hostActs → P s → P (hostRun s.script s).2

/-- A property of states that a store to Ram keeps. -/
def StoreKept (P : State → Prop) : Prop := ∀ s a v, P s → P (s.memWrite1 a v)

theorem Kept.stackClosed {P : State → Prop} (hP : Kept P) : StackClosed fun l l' => P l.st → P l'.st where
  refl _ h := h
  trans h1 h2 h := h2 (h1 h)
  lower l k c _ h := by
    unfold Local.setCursor
    split
    · exact h
    · exact hP.ptr _ k c h
  put l k v hk h := hP.put _ k v hk h
  pc l t h := hP.inner _ _ h

theorem Kept.callHost {P : State → Prop} (hP : Kept P) {d : Decoder} {aw : Await} {k : Option Byte → State → State}
    (hk : ∀ b t, P t → P (k b t)) {s : State} (h : P s) : P (callHost d aw k s) := by
  have h1 : P (s.mapInner fun a => { a with call := some ⟨d, aw⟩ }) := hP.inner _ _ h
  have h2 : (s.mapInner fun a => { a with call := some ⟨d, aw⟩ }).hostActs := by
    intro a ha
    rw [State.mapInner_acts] at ha
    split at ha
    · simp at ha
    · simp only [List.head?_cons, Option.mem_def, Option.some.injEq] at ha; subst ha; rfl
  have h3 := hP.host _ h2 h1
  unfold Machine.callHost
  rcases hostTurn_cases k (s.mapInner fun a => { a with call := some ⟨d, aw⟩ }) with
    ⟨t, e1, e2⟩ | ⟨t, e1, e2⟩ | ⟨v, t, e1, e2⟩ | ⟨t, e1, e2⟩
  · rw [e2]; rw [e1] at h3; exact h3
  · rw [e2]; rw [e1] at h3; exact h3
  · rw [e2]; rw [e1] at h3; exact hk _ _ (hP.inner _ _ h3)
  · rw [e2]; rw [e1] at h3; exact hk _ _ (hP.inner _ _ h3)

theorem Kept.raiseFault {P : State → Prop} (hP : Kept P) (d : Decoder) (f : VmFault) {s : State} (h : P s) :
    P (raiseFault d f s) :=
  hP.callHost (fun _ _ ht => hP.finish _ _ ht) (hP.seen _ (hP.tell _ _ h))

theorem Kept.deliverThen {P : State → Prop} (hP : Kept P) {α : Type} {d : Decoder} {p : Micro α}
    {k : α → Local → State} (hp : Runs (fun l l' => P l.st → P l'.st) p) (hk : ∀ a l, P l.st → P (k a l)) {s : State}
    (h : P s) : P (deliverThen d p k s) := by
  have h1 := hp ⟨s, d.kc⟩
  unfold Machine.deliverThen
  cases hp1 : p ⟨s, d.kc⟩ with
  | ok a l => rw [hp1] at h1; exact hk _ _ (h1 h)
  | raised f l => rw [hp1] at h1; exact hP.raiseFault _ _ (h1 h)

theorem Kept.deliver {P : State → Prop} (hP : Kept P) {d : Decoder} {p : Micro Unit}
    (hp : Runs (fun l l' => P l.st → P l'.st) p) {s : State} (h : P s) : P (deliver d p s) :=
  hP.deliverThen hp (fun _ _ hl => hl) h

theorem Kept.inputByte {P : State → Prop} (hP : Kept P) (b : Option Byte) {s : State} (h : P s) :
    P (inputByte b s).2 := by
  cases b with
  | none => exact hP.free _ h
  | some v => exact h

theorem Kept.afterDeiByte {P : State → Prop} (hP : Kept P) (d : Decoder) (b : Option Byte) {s : State} (h : P s) :
    P (afterDeiByte d b s) := hP.deliver (runs_push8 hP.stackClosed _ _) (hP.inputByte b h)

theorem Kept.afterDeiLow {P : State → Prop} (hP : Kept P) (d : Decoder) (hi : Byte) (b : Option Byte) {s : State}
    (h : P s) : P (afterDeiLow d hi b s) := hP.deliver (runs_push16 hP.stackClosed _ _) (hP.inputByte b h)

theorem Kept.afterDeiHigh {P : State → Prop} (hP : Kept P) (d : Decoder) (port : Byte) (b : Option Byte) {s : State}
    (h : P s) : P (afterDeiHigh d port b s) := by
  have h1 := hP.inputByte b h
  unfold Machine.afterDeiHigh deviceIn
  split
  rename_i heq
  rw [heq] at h1
  exact hP.callHost (fun b' t ht => hP.afterDeiLow d _ b' ht) (hP.tell _ _ h1)

theorem Kept.afterDeoHigh {P : State → Prop} (hP : Kept P) (d : Decoder) (port lo : Byte) (b : Option Byte) {s : State}
    (h : P s) : P (afterDeoHigh d port lo b s) := hP.callHost (fun _ _ ht => ht) (hP.tell _ _ h)

theorem Kept.resume {P : State → Prop} (hP : Kept P) (d : Decoder) (aw : Await) (b : Option Byte) {s : State}
    (h : P s) : P (resume d aw b s) := by
  cases aw with
  | deiByte => exact hP.afterDeiByte d b h
  | deiHigh port => exact hP.afterDeiHigh d port b h
  | deiLow hi => exact hP.afterDeiLow d hi b h
  | deoHigh port lo => exact hP.afterDeoHigh d port lo b h
  | deoLast => exact h
  | halt f => exact hP.finish _ _ h

/-- An instruction answers a next state, always, and keeps every property its effects keep. -/
theorem exec_keeps {P : State → Prop} (hP : Kept P) (i : Instr) (hS : storesToRam i = true → StoreKept P) {s : State}
    (h : P s) : ∃ t, exec i s = .next t ∧ P t := by
  have hR := hP.stackClosed
  rcases exec_runs i with rfl | ⟨m, rfl⟩ | ⟨m, rfl⟩ | ⟨m, p, he, hp⟩
  · exact ⟨_, rfl, hP.finish _ _ h⟩
  · refine ⟨_, rfl, hP.deliverThen (runs_pop8 hR _) (fun p l hl => ?_) h⟩
    dsimp only
    split
    · exact hP.callHost (fun _ _ ht => hP.afterDeiHigh _ _ _ ht) (hP.tell _ _ hl)
    · exact hP.callHost (fun _ _ ht => hP.afterDeiByte _ _ ht) (hP.tell _ _ hl)
  · refine ⟨_, rfl, hP.deliverThen ((runs_pop8 hR _).andThen hR fun _ => (runs_popValue hR _).andThen hR fun _ =>
      runs_done hR _) (fun p l hl => ?_) h⟩
    dsimp only
    split
    · exact hP.callHost (fun _ _ ht => hP.afterDeoHigh _ _ _ _ ht) (hP.tell _ _ hl)
    · exact hP.callHost (fun _ _ ht => ht) (hP.tell _ _ hl)
  · exact ⟨_, he s, hP.deliver (hp _ hR fun hs l a v hl => hS hs _ a v hl) h⟩

/-- A step keeps every property that all effects keep. -/
theorem step_keeps {P : State → Prop} (hP : Kept P) (hS : StoreKept P) {s t : State} (h : P s)
    (hs : step s = .next t) : P t := by
  unfold step at hs
  split at hs
  · rename_i hacts
    have h1 := hP.host s (by intro a ha; simp [hacts] at ha) h
    unfold hostIdle at hs
    split at hs
    · cases hs
    all_goals rename_i heq; rw [heq] at h1; cases hs; exact h1
  · rename_i a rest hacts
    split at hs
    · rename_i c hc
      have h1 := hP.host s (by intro b hb; simp only [hacts, List.head?_cons, Option.mem_def, Option.some.injEq] at hb; subst hb; simp [hc]) h
      cases hs
      rcases hostTurn_cases (resume c.dec c.await) s with
        ⟨t, e1, e2⟩ | ⟨t, e1, e2⟩ | ⟨v, t, e1, e2⟩ | ⟨t, e1, e2⟩
      all_goals rw [e1] at h1; rw [e2]
      · exact h1
      · exact h1
      · exact hP.resume _ _ _ (hP.inner _ _ h1)
      · exact hP.resume _ _ _ (hP.inner _ _ h1)
    · split at hs
      · cases hs; exact hP.finish _ _ h
      · obtain ⟨t', e, ht⟩ := exec_keeps hP (s.fetch a.pc) (fun _ => hS) (hP.inner s _ h)
        have : exec (s.fetch a.pc) s.beginInstr = .next t' := e
        rw [this] at hs; cases hs; exact ht

end Sys2Proof.Machine
end

