-- ==== Sys2Proof/Laws/HostArgument.lean ====
section
/-! SUPPORT. What a step under a host given as an argument can do: it is a step under some script, so what every step keeps
under every script is kept under every host. -/

namespace Sys2Proof.Machine

/-- A step under a host is a step of the machine under a script of at most one action and a pause. -/
theorem stepUnder_next {σ : Type} {H : HostParam σ} {gs gt : σ × State} (h : stepUnder H gs = .next gt) :
    ∃ t, step { gs.2 with script := (hostMove H gs.1 gs.2).2 } = .next t ∧
      gt = ((newEvents gs.2 t).foldl H.hear (hostMove H gs.1 gs.2).1, { t with script := [] }) := by
  unfold stepUnder at h
  dsimp only at h
  split at h
  · exact ⟨_, ‹_›, (Host.Outcome.next.inj h).symm⟩
  · cases h
  · cases h

/-- Where the host is active and does `a`, which leaves it in state `g'`. -/
theorem stepUnder_act {σ : Type} {H : HostParam σ} {g g' : σ} {a : HostAction} {s t : State}
    (hs : s.hostIsActive = true) (ha : H.act g = (g', a)) (h : step { s with script := [a, .pause] } = .next t) :
    stepUnder H (g, s) = .next ((newEvents s t).foldl H.hear g', { t with script := [] }) := by
  simp only [stepUnder, hostMove, hs, if_true, ha, h]

/-- Where the core is active. -/
theorem stepUnder_core {σ : Type} {H : HostParam σ} {g : σ} {s t : State} (hs : s.hostIsActive = false)
    (h : step { s with script := [.pause] } = .next t) :
    stepUnder H (g, s) = .next ((newEvents s t).foldl H.hear g, { t with script := [] }) := by
  simp only [stepUnder, hostMove, hs, Bool.false_eq_true, if_false, h]

/-- The list host performs the next action of its list. -/
@[simp] theorem listHost_act (a : HostAction) (l : List HostAction) : listHost.act (a :: l) = (l, a) := rfl
@[simp] theorem listHost_act_nil : listHost.act [] = ([], .pause) := rfl
@[simp] theorem listHost_hear (l : List HostAction) (e : Event) : listHost.hear l e = l := rfl

/-- The host hears nothing where the log has not grown. -/
theorem newEvents_same {s t : State} (h : t.log = s.log) : newEvents s t = [] := by simp [newEvents, h]

/-- The host hears the one event the log has grown by. -/
theorem newEvents_one {s t : State} {e : Event} (h : t.log = e :: s.log) : newEvents s t = [e] := by
  simp [newEvents, h]

/-- A property that does not look at the script, and that every step keeps, every step under every host keeps. -/
theorem stepUnder_keeps {P : State → Prop} (hscript : ∀ s l, P s → P { s with script := l })
    (hstep : ∀ s t, P s → step s = .next t → P t) {σ : Type} {H : HostParam σ} {gs gt : σ × State} (h : P gs.2)
    (hs : stepUnder H gs = .next gt) : P gt.2 := by
  obtain ⟨t, e, rfl⟩ := stepUnder_next hs
  exact hscript t [] (hstep _ t (hscript _ _ h) e)

end Sys2Proof.Machine
end

