-- ==== Sys2Proof/Laws/Operands.lean ====
section
/-! SUPPORT. What each operand function computes, as numbers (00_scope.md R9): the results of 47_arith.md and
43_compare.md on operands of the operand width, and the addresses of 45_memory_ops.md R226 and
40_primitives_decoder_loop.md R134. -/

namespace Sys2Proof.Machine

/-- `trunc_w` as a number. -/
theorem truncTo_toNat (m : Mode) (v : Short) : (truncTo m v).toNat = v.toNat % 2 ^ m.width := by
  unfold truncTo Mode.width
  split
  · exact (Nat.mod_eq_of_lt v.isLt).symm
  · have := v.isLt
    simp [zext8, loByte_toNat]; omega

theorem Mode.width_cases (m : Mode) : 2 ^ m.width = 256 ∨ 2 ^ m.width = 65536 := by
  unfold Mode.width; split <;> simp

/-- A value of the operand width fits a short. -/
theorem lt_short_of_width {m : Mode} {a : Nat} (h : a < 2 ^ m.width) : a < 65536 := by
  rcases Mode.width_cases m with e | e <;> omega

theorem ofNat16_toNat {a : Nat} (h : a < 65536) : (BitVec.ofNat 16 a).toNat = a := by simp; omega

theorem mod_width_mod (m : Mode) (a : Nat) : a % 65536 % 2 ^ m.width = a % 2 ^ m.width := by
  rcases Mode.width_cases m with e | e <;> rw [e] <;> omega

theorem aluInc_toNat {m : Mode} {a : Nat} (h : a < 2 ^ m.width) :
    (aluInc m (BitVec.ofNat 16 a)).toNat = (a + 1) % 2 ^ m.width := by
  have := lt_short_of_width h
  rw [aluInc, truncTo_toNat, BitVec.toNat_add, ofNat16_toNat this, ← mod_width_mod m (a + 1)]; rfl

theorem aluAdd_toNat {m : Mode} {a b : Nat} (ha : a < 2 ^ m.width) (hb : b < 2 ^ m.width) :
    (aluAdd m (BitVec.ofNat 16 a) (BitVec.ofNat 16 b)).toNat = (a + b) % 2 ^ m.width := by
  rw [aluAdd, truncTo_toNat, BitVec.toNat_add, ofNat16_toNat (lt_short_of_width ha), ofNat16_toNat (lt_short_of_width hb),
    ← mod_width_mod m (a + b)]

theorem aluSub_toNat {m : Mode} {a b : Nat} (ha : a < 2 ^ m.width) (hb : b < 2 ^ m.width) :
    (aluSub m (BitVec.ofNat 16 a) (BitVec.ofNat 16 b)).toNat = (((a : Int) - b) % 2 ^ m.width).toNat := by
  have h1 := lt_short_of_width ha
  have h2 := lt_short_of_width hb
  rw [aluSub, truncTo_toNat, BitVec.toNat_sub, ofNat16_toNat h1, ofNat16_toNat h2]
  unfold Mode.width
  split <;> simp <;> omega

theorem aluMul_toNat {m : Mode} {a b : Nat} (ha : a < 2 ^ m.width) (hb : b < 2 ^ m.width) :
    (aluMul m (BitVec.ofNat 16 a) (BitVec.ofNat 16 b)).toNat = (a * b) % 2 ^ m.width := by
  rw [aluMul, truncTo_toNat, BitVec.toNat_mul, ofNat16_toNat (lt_short_of_width ha), ofNat16_toNat (lt_short_of_width hb),
    ← mod_width_mod m (a * b)]

theorem aluDiv_toNat {a b : Nat} (ha : a < 65536) (hb : b < 65536) :
    (aluDiv (BitVec.ofNat 16 a) (BitVec.ofNat 16 b)).toNat = a / b := by
  rw [aluDiv, BitVec.toNat_udiv, ofNat16_toNat ha, ofNat16_toNat hb]

theorem aluAnd_toNat {a b : Nat} (ha : a < 65536) (hb : b < 65536) :
    (aluAnd (BitVec.ofNat 16 a) (BitVec.ofNat 16 b)).toNat = a &&& b := by
  rw [aluAnd, BitVec.toNat_and, ofNat16_toNat ha, ofNat16_toNat hb]

theorem aluOra_toNat {a b : Nat} (ha : a < 65536) (hb : b < 65536) :
    (aluOra (BitVec.ofNat 16 a) (BitVec.ofNat 16 b)).toNat = a ||| b := by
  rw [aluOra, BitVec.toNat_or, ofNat16_toNat ha, ofNat16_toNat hb]

theorem aluEor_toNat {a b : Nat} (ha : a < 65536) (hb : b < 65536) :
    (aluEor (BitVec.ofNat 16 a) (BitVec.ofNat 16 b)).toNat = a ^^^ b := by
  rw [aluEor, BitVec.toNat_xor, ofNat16_toNat ha, ofNat16_toNat hb]

/-- No bit that the shift pushes out of a short comes back, so truncating last is the same as shifting the unbounded
integer. -/
theorem aluSft_toNat {m : Mode} {a c : Nat} (ha : a < 2 ^ m.width) (hc : c < 256) :
    (aluSft m (BitVec.ofNat 16 a) (BitVec.ofNat 8 c)).toNat = a / 2 ^ (c % 16) * 2 ^ (c / 16) % 2 ^ m.width := by
  have h1 := lt_short_of_width ha
  have h2 : (BitVec.ofNat 8 c).toNat = c := by simp; omega
  rw [aluSft, truncTo_toNat, h2, BitVec.toNat_shiftLeft, BitVec.toNat_ushiftRight, ofNat16_toNat h1,
    Nat.shiftRight_eq_div_pow, Nat.shiftLeft_eq, ← mod_width_mod m (a / 2 ^ (c % 16) * 2 ^ (c / 16))]

theorem cmpEqu_toNat {a b : Nat} (ha : a < 65536) (hb : b < 65536) :
    (cmpEqu (BitVec.ofNat 16 a) (BitVec.ofNat 16 b)).toNat = if a = b then 1 else 0 := by
  have : (BitVec.ofNat 16 a = BitVec.ofNat 16 b) ↔ a = b := by
    rw [← BitVec.toNat_inj, ofNat16_toNat ha, ofNat16_toNat hb]
  unfold cmpEqu boolByte
  by_cases h : a = b <;> simp [this, h]

theorem cmpNeq_toNat {a b : Nat} (ha : a < 65536) (hb : b < 65536) :
    (cmpNeq (BitVec.ofNat 16 a) (BitVec.ofNat 16 b)).toNat = if a ≠ b then 1 else 0 := by
  have : (BitVec.ofNat 16 a = BitVec.ofNat 16 b) ↔ a = b := by
    rw [← BitVec.toNat_inj, ofNat16_toNat ha, ofNat16_toNat hb]
  unfold cmpNeq boolByte bne
  by_cases h : a = b <;> simp [this, h]

theorem cmpGth_toNat {a b : Nat} (ha : a < 65536) (hb : b < 65536) :
    (cmpGth (BitVec.ofNat 16 a) (BitVec.ofNat 16 b)).toNat = if a > b then 1 else 0 := by
  unfold cmpGth boolByte BitVec.ult
  rw [ofNat16_toNat ha, ofNat16_toNat hb]
  by_cases h : b < a <;> simp [h]

theorem cmpLth_toNat {a b : Nat} (ha : a < 65536) (hb : b < 65536) :
    (cmpLth (BitVec.ofNat 16 a) (BitVec.ofNat 16 b)).toNat = if a < b then 1 else 0 := by
  unfold cmpLth boolByte BitVec.ult
  rw [ofNat16_toNat ha, ofNat16_toNat hb]
  by_cases h : a < b <;> simp [h]

/-- The non-zero test of JCI and JCN. -/
theorem isTrue_ofNat {c : Nat} (hc : c < 256) : isTrue (BitVec.ofNat 8 c) = decide (c ≠ 0) := by
  have : (BitVec.ofNat 8 c = 0#8) ↔ c = 0 := by
    rw [← BitVec.toNat_inj]; simp; omega
  unfold isTrue bne
  by_cases h : c = 0 <;> simp [this, h]

/-! ### Addresses -/

theorem eaZero_toNat {a : Nat} (ha : a < 256) : (eaZero (BitVec.ofNat 8 a)).toNat = a := by
  rw [eaZero, zext8_ofNat ha, ofNat16_toNat (by omega)]

/-- `(pc1 + sext8(o)) mod 65536`. -/
theorem eaRelative_toNat (pc1 : Short) {o : Nat} (ho : o < 256) :
    (eaRelative pc1 (BitVec.ofNat 8 o)).toNat = relativeTo pc1.toNat o := by
  have := pc1.isLt
  have h2 : (BitVec.ofNat 8 o).toInt = sextInt o := by
    rw [BitVec.toInt_eq_toNat_cond]; simp [sextInt]; split <;> split <;> omega
  have h3 : (sext8 (BitVec.ofNat 8 o)).toNat = (sextInt o % 65536).toNat := by
    unfold sext8 BitVec.signExtend
    rw [BitVec.toNat_ofInt, h2]; rfl
  rw [eaRelative, BitVec.toNat_add, h3, relativeTo]; omega

/-- `Jump(a)`: absolute in short mode, relative else. -/
theorem jumpTarget_toNat {m : Mode} (pc1 : Short) {a : Nat} (ha : a < 2 ^ m.width) :
    (jumpTarget m pc1 (BitVec.ofNat 16 a)).toNat = if m.short then a else relativeTo pc1.toNat a := by
  have h1 := lt_short_of_width ha
  unfold jumpTarget
  unfold Mode.width at ha
  split
  · exact ofNat16_toNat h1
  · rw [if_neg ‹_›] at ha
    have h2 : loByte (BitVec.ofNat 16 a) = BitVec.ofNat 8 a := by
      apply BitVec.eq_of_toNat_eq; rw [loByte_toNat, ofNat16_toNat h1]; simp
    rw [h2]; exact eaRelative_toNat pc1 (by omega)

/-! ### Items and Ram items -/

@[simp] theorem item_toNat (s : State) (m : Mode) (o : Nat) : (BitVec.ofNat 16 (s.item m o)).toNat = s.item m o :=
  ofNat16_toNat (lt_short_of_width (s.item_lt m o))

theorem mod_width_lt (m : Mode) (a : Nat) : a % 2 ^ m.width < 2 ^ m.width := Nat.mod_lt _ (by positivity)

theorem ramKey_eq (a : Short) : ramKey a = a.toNat := by simp [ramKey, pageKey]

theorem ramKey_lt (a : Short) : ramKey a < Config.bufferSize := by
  have := a.isLt
  rw [ramKey_eq]; simp [Config.bufferSize, Config.ramPages, Config.ramPageSize]; omega

theorem State.ramItem_lt (s : State) (m : Mode) (a : Nat) : s.ramItem m a < 2 ^ m.width := by
  have h1 := (s.mem.read a).isLt
  have h2 := (s.mem.read ((a + 1) % 65536)).isLt
  unfold State.ramItem Mode.width State.ram
  split <;> simp <;> omega

@[simp] theorem State.ramItem_popped (s : State) (m n : Mode) (p a : Nat) :
    (s.popped m p).ramItem n a = s.ramItem n a := by simp [State.ramItem, State.ram]

/-- `Peek(a)` (R129). -/
theorem peek_ramItem (m : Mode) (a : Short) (l : Local) :
    peek m a l = .ok (BitVec.ofNat 16 (l.st.ramItem m a.toNat)) l := by
  have h1 := (l.st.mem.read a.toNat).isLt
  have h2 := (l.st.mem.read ((a.toNat + 1) % 65536)).isLt
  simp only [peek, State.ramItem, State.ram]
  split
  · congr 1
    apply BitVec.eq_of_toNat_eq
    simp only [State.memRead2, State.memRead1, ramKey_eq, joinBytes_toNat, BitVec.toNat_add]
    simp; omega
  · congr 1
    apply BitVec.eq_of_toNat_eq
    simp [zext8, State.memRead1, ramKey_eq]

/-- `Poke(a, v)` (R129). -/
theorem poke_withRamItem (m : Mode) (a v : Short) (l : Local) :
    poke m a v l = .ok () ⟨l.st.withRamItem m a.toNat v.toNat, l.kc⟩ := by
  have hv := v.isLt
  have h1 : hiByte v = BitVec.ofNat 8 (v.toNat / 256) := by
    apply BitVec.eq_of_toNat_eq; rw [hiByte_toNat]; simp; omega
  have h2 : loByte v = BitVec.ofNat 8 (v.toNat % 256) := by apply BitVec.eq_of_toNat_eq; rw [loByte_toNat]; simp
  have h3 : loByte v = BitVec.ofNat 8 v.toNat := by apply BitVec.eq_of_toNat_eq; rw [loByte_toNat]; simp
  simp only [poke, State.withRamItem]
  split
  · simp only [State.memWrite2, State.memWrite1, ramKey_eq, h1, h2, BitVec.toNat_add]; rfl
  · simp only [State.memWrite1, ramKey_eq, h3]

/-- Read after a store of the operand width: the stored item, and every other byte as before (R56). -/
theorem State.withRamItem_reads {s : State} {m : Mode} {a v : Nat} (hw : s.mem.wf Config.bufferSize = true)
    (ha : a < 65536) (hv : v < 2 ^ m.width) :
    (∀ b, b ≠ a → (m.short = true → b ≠ (a + 1) % 65536) → (s.withRamItem m a v).mem.read b = s.mem.read b) ∧
      (s.withRamItem m a v).ramItem m a = v := by
  have hb : a < Config.bufferSize := by simp [Config.bufferSize, Config.ramPages, Config.ramPageSize]; omega
  unfold State.withRamItem State.ramItem State.ram
  unfold Mode.width at hv
  by_cases h : m.short
  · simp only [if_pos h] at hv ⊢
    have w1 := Memory.wf_write hw hb (BitVec.ofNat 8 (v / 256))
    refine ⟨fun b h1 h2 => by rw [Memory.read_write_other _ _ (h2 h), Memory.read_write_other _ _ h1], ?_⟩
    rw [Memory.read_write_other _ _ (show a ≠ (a + 1) % 65536 by omega), Memory.read_write_self hw,
      Memory.read_write_self w1]
    simp; omega
  · simp only [if_neg h] at hv ⊢
    refine ⟨fun b h1 h2 => by rw [Memory.read_write_other _ _ h1], ?_⟩
    rw [Memory.read_write_self hw]; simp; omega

/-! ### Pushes after pops, and the shared shapes of meanings -/

/-- An item pushed to the source stack after pops of `p` bytes (R137). -/
theorem pushValue_popLocal {m : Mode} {s : State} {p : Nat} {v : Short} (h : s.room m p m.bytes)
    (hv : v.toNat < 2 ^ m.width) :
    pushValue m m.src v (popLocal m s p) = .ok () ⟨(s.popped m p).withItem m m.src v.toNat, (popLocal m s p).kc⟩ :=
  pushValue_ok (by rw [popLocal_st, State.depth_popped]; exact h) hv

/-- Two pops of the operand width. -/
theorem twoPops {m : Mode} {s : State} (h : 2 * m.bytes ≤ s.depth m.src) (f : Short → Short → Micro Unit) :
    andThen (popValue m) (fun b => andThen (popValue m) fun a => f a b) (popLocal m s 0) =
      f (BitVec.ofNat 16 (s.item m m.bytes)) (BitVec.ofNat 16 (s.item m 0)) (popLocal m s (2 * m.bytes)) := by
  have h1 := popValue_popLocal (m := m) (s := s) (p := 0) (by omega)
  rw [Nat.zero_add] at h1
  have h2 := popValue_popLocal (m := m) (s := s) (p := m.bytes) (by omega)
  rw [← Nat.two_mul] at h2
  rw [andThen_ok h1, andThen_ok h2]

end Sys2Proof.Machine
end

