-- ==== Sys2Proof/Laws/PerInstr.lean ====
section
/-! SUPPORT. The per-instruction family RoundTrip: decoding an encoded instruction gives it back, whatever follows it. -/

namespace Sys2Proof.Laws.RoundTrip

/-- The instruction's bytes, followed by any others, decode to it and leave the others. -/
def Statement (i : Instr) : Prop := ∀ rest : List Byte, decode (encode i ++ rest) = .ok (i, rest)

/-- The shape of every base opcode: one byte, no immediates, eight modes. -/
theorem of_base {f : Mode → Instr} (himm : ∀ m, (f m).immediates = [])
    (h : ∀ s r k : Bool, immediateCount (f ⟨s, r, k⟩).opcode = 0 ∧
      decodeBytes (f ⟨s, r, k⟩).opcode 0 0 = f ⟨s, r, k⟩) (m : Mode) : Statement (f m) := by
  obtain ⟨s, r, k⟩ := m
  intro rest
  obtain ⟨h0, h1⟩ := h s r k
  simp only [encode, himm, List.cons_append, List.nil_append, decode, h0, h1]

theorem brk : Statement .brk := fun _ => rfl
theorem jci (off : Short) : Statement (.jci off) := by
  intro rest
  simp [encode, Instr.opcode, Instr.immediates, shortBytes, decode, immediateCount, decodeBytes, opGroup, opIndex,
    highField, decodeImmediate]
theorem jmi (off : Short) : Statement (.jmi off) := by
  intro rest
  simp [encode, Instr.opcode, Instr.immediates, shortBytes, decode, immediateCount, decodeBytes, opGroup, opIndex,
    highField, decodeImmediate]
theorem jsi (off : Short) : Statement (.jsi off) := by
  intro rest
  simp [encode, Instr.opcode, Instr.immediates, shortBytes, decode, immediateCount, decodeBytes, opGroup, opIndex,
    highField, decodeImmediate]
theorem lit (v : Byte) : Statement (.lit v) := by
  intro rest
  simp [encode, Instr.opcode, Instr.immediates, decode, immediateCount, decodeBytes, opGroup, opIndex, highField,
    decodeImmediate]
theorem lit2 (v : Short) : Statement (.lit2 v) := by
  intro rest
  simp [encode, Instr.opcode, Instr.immediates, shortBytes, decode, immediateCount, decodeBytes, opGroup, opIndex,
    highField, decodeImmediate]
theorem litr (v : Byte) : Statement (.litr v) := by
  intro rest
  simp [encode, Instr.opcode, Instr.immediates, decode, immediateCount, decodeBytes, opGroup, opIndex, highField,
    decodeImmediate]
theorem lit2r (v : Short) : Statement (.lit2r v) := by
  intro rest
  simp [encode, Instr.opcode, Instr.immediates, shortBytes, decode, immediateCount, decodeBytes, opGroup, opIndex,
    highField, decodeImmediate]
theorem inc (m : Mode) : Statement (.inc m) := of_base (fun _ => rfl) (by decide) m
theorem pop (m : Mode) : Statement (.pop m) := of_base (fun _ => rfl) (by decide) m
theorem nip (m : Mode) : Statement (.nip m) := of_base (fun _ => rfl) (by decide) m
theorem swp (m : Mode) : Statement (.swp m) := of_base (fun _ => rfl) (by decide) m
theorem rot (m : Mode) : Statement (.rot m) := of_base (fun _ => rfl) (by decide) m
theorem dup (m : Mode) : Statement (.dup m) := of_base (fun _ => rfl) (by decide) m
theorem ovr (m : Mode) : Statement (.ovr m) := of_base (fun _ => rfl) (by decide) m
theorem equ (m : Mode) : Statement (.equ m) := of_base (fun _ => rfl) (by decide) m
theorem neq (m : Mode) : Statement (.neq m) := of_base (fun _ => rfl) (by decide) m
theorem gth (m : Mode) : Statement (.gth m) := of_base (fun _ => rfl) (by decide) m
theorem lth (m : Mode) : Statement (.lth m) := of_base (fun _ => rfl) (by decide) m
theorem jmp (m : Mode) : Statement (.jmp m) := of_base (fun _ => rfl) (by decide) m
theorem jcn (m : Mode) : Statement (.jcn m) := of_base (fun _ => rfl) (by decide) m
theorem jsr (m : Mode) : Statement (.jsr m) := of_base (fun _ => rfl) (by decide) m
theorem sth (m : Mode) : Statement (.sth m) := of_base (fun _ => rfl) (by decide) m
theorem ldz (m : Mode) : Statement (.ldz m) := of_base (fun _ => rfl) (by decide) m
theorem stz (m : Mode) : Statement (.stz m) := of_base (fun _ => rfl) (by decide) m
theorem ldr (m : Mode) : Statement (.ldr m) := of_base (fun _ => rfl) (by decide) m
theorem str (m : Mode) : Statement (.str m) := of_base (fun _ => rfl) (by decide) m
theorem lda (m : Mode) : Statement (.lda m) := of_base (fun _ => rfl) (by decide) m
theorem sta (m : Mode) : Statement (.sta m) := of_base (fun _ => rfl) (by decide) m
theorem dei (m : Mode) : Statement (.dei m) := of_base (fun _ => rfl) (by decide) m
theorem deo (m : Mode) : Statement (.deo m) := of_base (fun _ => rfl) (by decide) m
theorem add (m : Mode) : Statement (.add m) := of_base (fun _ => rfl) (by decide) m
theorem sub (m : Mode) : Statement (.sub m) := of_base (fun _ => rfl) (by decide) m
theorem mul (m : Mode) : Statement (.mul m) := of_base (fun _ => rfl) (by decide) m
theorem div (m : Mode) : Statement (.div m) := of_base (fun _ => rfl) (by decide) m
theorem and (m : Mode) : Statement (.and m) := of_base (fun _ => rfl) (by decide) m
theorem ora (m : Mode) : Statement (.ora m) := of_base (fun _ => rfl) (by decide) m
theorem eor (m : Mode) : Statement (.eor m) := of_base (fun _ => rfl) (by decide) m
theorem sft (m : Mode) : Statement (.sft m) := of_base (fun _ => rfl) (by decide) m

end Sys2Proof.Laws.RoundTrip
end

