-- ==== Sys2Proof/Tests/Slice0.lean ====
section
/-! SUPPORT. The package's own tests: well-formedness, decoding of words written out from the spec, test vectors of
spec/95_test_vectors.md, and a witness for the hypotheses of every statement. Every expected value is the spec's. -/

open Sys2Proof Sys2Proof.Machine Sys2Proof.Claims

namespace Sys2Proof.Tests

/-! ### States for the tests

One step from a state as the table gives it; what is seen is both stacks, the program counters of the live activations
and what the host was told. -/

/-- Bytes into Ram from address `a` on. -/
def place (s : State) (a : Short) (bytes : List Byte) : State :=
  match bytes with
  | [] => s
  | b :: rest => place (s.memWrite1 a b) (a + 1) rest

/-- Several stretches of bytes into Ram. -/
def placeAll (s : State) (mem : List (Short × List Byte)) : State :=
  match mem with
  | [] => s
  | (a, bytes) :: rest => placeAll (place s a bytes) rest

/-- A stack with these contents, deepest first. -/
def stackOf (bytes : List Byte) : Stack := bytes.foldl Stack.put8 Stack.empty

/-- An enabled machine about to fetch `code` at `pc`. -/
def machine (pc : Short) (code w r : List Byte) (mem : List (Short × List Byte)) (script : List HostAction) : State :=
  placeAll (place { State.reset with
    wst := stackOf w
    rst := stackOf r
    dev := [(0x0F, 1)]
    acts := [⟨pc, false, none⟩]
    script := script } pc code) mem

/-- The state after one step, where there is one. -/
def after (s : State) : Option State :=
  match step s with
  | .next t => some t
  | .fault _ => none
  | .refused _ => none

/-- Both stacks, the live program counters and the log after one step. -/
def seen (s : State) : Option (List Byte × List Byte × List Short × List Event) :=
  (after s).map fun t => (t.wst.contents, t.rst.contents, t.acts.map Activation.pc, t.log)

/-- Bytes of Ram after one step. -/
def stored (s : State) (addresses : List Short) : List Byte :=
  match after s with
  | some t => addresses.map t.memRead1
  | none => []

/-! ### Well-formedness

Every value of every operand field is legal, so no well-formedness check refuses anything (30_encoding.md R86, R88): the
fields' types are as wide as the fields. What the decoder refuses is a byte sequence that ends too early. -/

theorem test_wellFormed_every_mode : ∀ s r k : Bool, (Instr.sft ⟨s, r, k⟩).wellFormed = true := by decide
theorem test_wellFormed_immediates : (Instr.jci 0xFFFF).wellFormed = true ∧ (Instr.lit2r 0x8000).wellFormed = true := by
  decide
theorem test_decode_refuses_nothing : decode [] = .error .noOpcode := by decide
theorem test_decode_refuses_truncated :
    decode [0x80] = .error .missingImmediate ∧ decode [0xA0, 0x12] = .error .missingImmediate ∧
      decode [0x20] = .error .missingImmediate ∧ decode [0x60, 0x00] = .error .missingImmediate := by decide

/-! ### Decoding, a word for every constructor

The words are written out from 30_encoding.md R80 (keep, return, short, then the five bits of the base opcode), R84 and
R85. -/

theorem test_decode_immediate :
    decode [0b00000000] = .ok (.brk, []) ∧
    decode [0b00100000, 0x12, 0x34] = .ok (.jci 0x1234, []) ∧
    decode [0b01000000, 0xFF, 0xFD] = .ok (.jmi 0xFFFD, []) ∧
    decode [0b01100000, 0x00, 0x05] = .ok (.jsi 0x0005, []) ∧
    decode [0b10000000, 0x2A] = .ok (.lit 0x2A, []) ∧
    decode [0b10100000, 0x12, 0x34] = .ok (.lit2 0x1234, []) ∧
    decode [0b11000000, 0x07] = .ok (.litr 0x07, []) ∧
    decode [0b11100000, 0x01, 0x08, 0x6C] = .ok (.lit2r 0x0108, [0x6C]) := by decide
theorem test_decode_stack :
    decode [0b00100001] = .ok (.inc ⟨true, false, false⟩, []) ∧
    decode [0b01000010] = .ok (.pop ⟨false, true, false⟩, []) ∧
    decode [0b10000011] = .ok (.nip ⟨false, false, true⟩, []) ∧
    decode [0b01100100] = .ok (.swp ⟨true, true, false⟩, []) ∧
    decode [0b10100101] = .ok (.rot ⟨true, false, true⟩, []) ∧
    decode [0b11000110] = .ok (.dup ⟨false, true, true⟩, []) ∧
    decode [0b11100111] = .ok (.ovr ⟨true, true, true⟩, []) := by decide
theorem test_decode_compare :
    decode [0b00001000] = .ok (.equ ⟨false, false, false⟩, []) ∧
    decode [0b00101001] = .ok (.neq ⟨true, false, false⟩, []) ∧
    decode [0b01001010] = .ok (.gth ⟨false, true, false⟩, []) ∧
    decode [0b10001011] = .ok (.lth ⟨false, false, true⟩, []) := by decide
theorem test_decode_control :
    decode [0b01101100] = .ok (.jmp ⟨true, true, false⟩, []) ∧
    decode [0b10101101] = .ok (.jcn ⟨true, false, true⟩, []) ∧
    decode [0b11001110] = .ok (.jsr ⟨false, true, true⟩, []) ∧
    decode [0b11101111] = .ok (.sth ⟨true, true, true⟩, []) := by decide
theorem test_decode_memory :
    decode [0b00010000] = .ok (.ldz ⟨false, false, false⟩, []) ∧
    decode [0b00110001] = .ok (.stz ⟨true, false, false⟩, []) ∧
    decode [0b01010010] = .ok (.ldr ⟨false, true, false⟩, []) ∧
    decode [0b10010011] = .ok (.str ⟨false, false, true⟩, []) ∧
    decode [0b01110100] = .ok (.lda ⟨true, true, false⟩, []) ∧
    decode [0b10110101] = .ok (.sta ⟨true, false, true⟩, []) := by decide
theorem test_decode_device :
    decode [0b11010110] = .ok (.dei ⟨false, true, true⟩, []) ∧
    decode [0b11110111] = .ok (.deo ⟨true, true, true⟩, []) := by decide
theorem test_decode_arith :
    decode [0b00011000] = .ok (.add ⟨false, false, false⟩, []) ∧
    decode [0b00111001] = .ok (.sub ⟨true, false, false⟩, []) ∧
    decode [0b01011010] = .ok (.mul ⟨false, true, false⟩, []) ∧
    decode [0b10011011] = .ok (.div ⟨false, false, true⟩, []) ∧
    decode [0b01111100] = .ok (.and ⟨true, true, false⟩, []) ∧
    decode [0b10111101] = .ok (.ora ⟨true, false, true⟩, []) ∧
    decode [0b11011110] = .ok (.eor ⟨false, true, true⟩, []) ∧
    decode [0b11111111] = .ok (.sft ⟨true, true, true⟩, []) := by decide

/-! ### The host's questions: a table word decodes, and the next step runs it -/

theorem test_decodeTableWord :
    decodeTableWord 8 0x3A = some (.mul ⟨true, false, false⟩) ∧ decodeTableWord 24 0x050020 = some (.jci 0x0005) ∧
      decodeTableWord 8 0xA0 = some (.lit2 0x0000) := by decide
theorem test_withFetchWord :
    seen (State.reset.withFetchWord 16 0x2A80) = some ([0x2A], [], [0x0102], []) := by decide

/-! ### Test vectors (spec/95_test_vectors.md, Part 2) -/

/-- BRK, spec/95_test_vectors.md line 80. -/
theorem test_brk : seen (machine 0x0100 [0x00] [] [] [] []) =
    some ([], [], [], [.evalReturn .broke]) := by decide
/-- JCI, spec/95_test_vectors.md line 83. -/
theorem test_jci : seen (machine 0x0100 [0x20, 0xff, 0xfd] [0xff] [] [] []) =
    some ([], [], [0x0100], []) := by decide
/-- JCI, spec/95_test_vectors.md line 82. -/
theorem test_jci_2 : seen (machine 0x0100 [0x20, 0x00, 0x05] [0x00] [] [] []) =
    some ([], [], [0x0103], []) := by decide
/-- JMI, spec/95_test_vectors.md line 87. -/
theorem test_jmi : seen (machine 0x0100 [0x40, 0xff, 0xfd] [] [] [] []) =
    some ([], [], [0x0100], []) := by decide
/-- JSI, spec/95_test_vectors.md line 91. -/
theorem test_jsi : seen (machine 0x0100 [0x60, 0xff, 0xfd] [0x09] [] [] []) =
    some ([0x09], [0x01, 0x03], [0x0100], []) := by decide
/-- LIT, spec/95_test_vectors.md line 106. -/
theorem test_lit : seen (machine 0xffff [0x80] [] [] [(0x0000, [0x77])] []) =
    some ([0x77], [], [0x0001], []) := by decide
/-- LIT2, spec/95_test_vectors.md line 108. -/
theorem test_lit2 : seen (machine 0xfffe [0xa0] [] [] [(0xffff, [0x12]), (0x0000, [0x34])] []) =
    some ([0x12, 0x34], [], [0x0001], []) := by decide
/-- LITr, spec/95_test_vectors.md line 97. -/
theorem test_litr : seen (machine 0x0100 [0xc0, 0x07] [] [] [] []) =
    some ([], [0x07], [0x0102], []) := by decide
/-- LIT2r, spec/95_test_vectors.md line 98. -/
theorem test_lit2r : seen (machine 0x0100 [0xe0, 0x01, 0x08] [] [] [] []) =
    some ([], [0x01, 0x08], [0x0103], []) := by decide
/-- INC2, spec/95_test_vectors.md line 123. -/
theorem test_inc : seen (machine 0x0100 [0x21] [0x00, 0xff] [] [] []) =
    some ([0x01, 0x00], [], [0x0101], []) := by decide
/-- INCr, spec/95_test_vectors.md line 127. -/
theorem test_inc_2 : seen (machine 0x0100 [0x41] [0x05] [0x07] [] []) =
    some ([0x05], [0x08], [0x0101], []) := by decide
/-- POP2, spec/95_test_vectors.md line 132. -/
theorem test_pop : seen (machine 0x0100 [0x22] [0x01, 0x02, 0x03] [] [] []) =
    some ([0x01], [], [0x0101], []) := by decide
/-- POPk, spec/95_test_vectors.md line 136. -/
theorem test_pop_2 : seen (machine 0x0100 [0x82] [0x01] [] [] []) =
    some ([0x01], [], [0x0101], []) := by decide
/-- NIP2, spec/95_test_vectors.md line 141. -/
theorem test_nip : seen (machine 0x0100 [0x23] [0x12, 0x34, 0x56, 0x78] [] [] []) =
    some ([0x56, 0x78], [], [0x0101], []) := by decide
/-- NIPk, spec/95_test_vectors.md line 142. -/
theorem test_nip_2 : seen (machine 0x0100 [0x83] [0x01, 0x02] [] [] []) =
    some ([0x01, 0x02, 0x02], [], [0x0101], []) := by decide
/-- SWP2, spec/95_test_vectors.md line 146. -/
theorem test_swp : seen (machine 0x0100 [0x24] [0x00, 0x01, 0x00, 0x02] [] [] []) =
    some ([0x00, 0x02, 0x00, 0x01], [], [0x0101], []) := by decide
/-- SWPk, spec/95_test_vectors.md line 147. -/
theorem test_swp_2 : seen (machine 0x0100 [0x84] [0x01, 0x02] [] [] []) =
    some ([0x01, 0x02, 0x02, 0x01], [], [0x0101], []) := by decide
/-- ROT2, spec/95_test_vectors.md line 151. -/
theorem test_rot : seen (machine 0x0100 [0x25] [0x00, 0x01, 0x00, 0x02, 0x00, 0x03] [] [] []) =
    some ([0x00, 0x02, 0x00, 0x03, 0x00, 0x01], [], [0x0101], []) := by decide
/-- ROTk, spec/95_test_vectors.md line 152. -/
theorem test_rot_2 : seen (machine 0x0100 [0x85] [0x01, 0x02, 0x03] [] [] []) =
    some ([0x01, 0x02, 0x03, 0x02, 0x03, 0x01], [], [0x0101], []) := by decide
/-- DUP2, spec/95_test_vectors.md line 155. -/
theorem test_dup : seen (machine 0x0100 [0x26] [0x12, 0x34] [] [] []) =
    some ([0x12, 0x34, 0x12, 0x34], [], [0x0101], []) := by decide
/-- DUPk, spec/95_test_vectors.md line 156. -/
theorem test_dup_2 : seen (machine 0x0100 [0x86] [0x07] [] [] []) =
    some ([0x07, 0x07, 0x07], [], [0x0101], []) := by decide
/-- OVR2, spec/95_test_vectors.md line 165. -/
theorem test_ovr : seen (machine 0x0100 [0x27] [0x00, 0x01, 0x00, 0x02] [] [] []) =
    some ([0x00, 0x01, 0x00, 0x02, 0x00, 0x01], [], [0x0101], []) := by decide
/-- OVRk, spec/95_test_vectors.md line 166. -/
theorem test_ovr_2 : seen (machine 0x0100 [0x87] [0x01, 0x02] [] [] []) =
    some ([0x01, 0x02, 0x01, 0x02, 0x01], [], [0x0101], []) := by decide
/-- EQU2, spec/95_test_vectors.md line 198. -/
theorem test_equ : seen (machine 0x0100 [0x28] [0x12, 0x34, 0x12, 0x35] [] [] []) =
    some ([0x00], [], [0x0101], []) := by decide
/-- EQUk, spec/95_test_vectors.md line 203. -/
theorem test_equ_2 : seen (machine 0x0100 [0x88] [0x05, 0x05] [] [] []) =
    some ([0x05, 0x05, 0x01], [], [0x0101], []) := by decide
/-- NEQ2, spec/95_test_vectors.md line 199. -/
theorem test_neq : seen (machine 0x0100 [0x29] [0x12, 0x34, 0x12, 0x35] [] [] []) =
    some ([0x01], [], [0x0101], []) := by decide
/-- GTH, spec/95_test_vectors.md line 192. -/
theorem test_gth : seen (machine 0x0100 [0x0a] [0x80, 0x7f] [] [] []) =
    some ([0x01], [], [0x0101], []) := by decide
/-- GTH2k, spec/95_test_vectors.md line 204. -/
theorem test_gth_2 : seen (machine 0x0100 [0xaa] [0x01, 0x00, 0x00, 0xff] [] [] []) =
    some ([0x01, 0x00, 0x00, 0xff, 0x01], [], [0x0101], []) := by decide
/-- LTHr, spec/95_test_vectors.md line 205. -/
theorem test_lth : seen (machine 0x0100 [0x4b] [] [0x02, 0x03] [] []) =
    some ([], [0x01], [0x0101], []) := by decide
/-- LTH2, spec/95_test_vectors.md line 201. -/
theorem test_lth_2 : seen (machine 0x0100 [0x2b] [0x01, 0x00, 0x00, 0xff] [] [] []) =
    some ([0x00], [], [0x0101], []) := by decide
/-- JMP, spec/95_test_vectors.md line 227. -/
theorem test_jmp : seen (machine 0x0010 [0x0c] [0x80] [] [] []) =
    some ([], [], [0xff91], []) := by decide
/-- JMP2r, spec/95_test_vectors.md line 230. -/
theorem test_jmp_2 : seen (machine 0x0100 [0x6c] [] [0x01, 0x06] [] []) =
    some ([], [], [0x0106], []) := by decide
/-- JCN, spec/95_test_vectors.md line 237. -/
theorem test_jcn : seen (machine 0x01ff [0x0d] [0x80, 0xfb] [] [] []) =
    some ([], [], [0x01fb], []) := by decide
/-- JCN2, spec/95_test_vectors.md line 239. -/
theorem test_jcn_2 : seen (machine 0x0100 [0x2d] [0x00, 0x02, 0x00] [] [] []) =
    some ([], [], [0x0101], []) := by decide
/-- JSR2r, spec/95_test_vectors.md line 249. -/
theorem test_jsr : seen (machine 0x0103 [0x6e] [] [0x02, 0x00] [] []) =
    some ([0x01, 0x04], [], [0x0200], []) := by decide
/-- JSR, spec/95_test_vectors.md line 247. -/
theorem test_jsr_2 : seen (machine 0x0103 [0x0e] [0xf0] [] [] []) =
    some ([], [0x01, 0x04], [0x00f4], []) := by decide
/-- STH2r, spec/95_test_vectors.md line 259. -/
theorem test_sth : seen (machine 0x0100 [0x6f] [] [0x01, 0x04] [] []) =
    some ([0x01, 0x04], [], [0x0101], []) := by decide
/-- STHk, spec/95_test_vectors.md line 260. -/
theorem test_sth_2 : seen (machine 0x0100 [0x8f] [0x0a] [] [] []) =
    some ([0x0a], [0x0a], [0x0101], []) := by decide
/-- LDZ2, spec/95_test_vectors.md line 283. -/
theorem test_ldz : seen (machine 0x0200 [0x30] [0xff] [] [(0x00ff, [0x12, 0x34])] []) =
    some ([0x12, 0x34], [], [0x0201], []) := by decide
/-- LDZk, spec/95_test_vectors.md line 284. -/
theorem test_ldz_2 : seen (machine 0x0100 [0x90] [0x10] [] [(0x0010, [0xab])] []) =
    some ([0x10, 0xab], [], [0x0101], []) := by decide
/-- STZ2, spec/95_test_vectors.md line 293. -/
theorem test_stz : seen (machine 0x0200 [0x31] [0x12, 0x34, 0xff] [] [] []) =
    some ([], [], [0x0201], []) ∧
    stored (machine 0x0200 [0x31] [0x12, 0x34, 0xff] [] [] [])
      [0x00ff, 0x0100] = [0x12, 0x34] := by decide
/-- LDR, spec/95_test_vectors.md line 303. -/
theorem test_ldr : seen (machine 0x0102 [0x12] [0x80] [] [(0x0083, [0x66])] []) =
    some ([0x66], [], [0x0103], []) := by decide
/-- LDR2, spec/95_test_vectors.md line 302. -/
theorem test_ldr_2 : seen (machine 0x0102 [0x32] [0xfe] [] [(0x0101, [0x55])] []) =
    some ([0x55, 0x32], [], [0x0103], []) := by decide
/-- STR2, spec/95_test_vectors.md line 311. -/
theorem test_str : seen (machine 0x0104 [0x33] [0x12, 0x34, 0x80] [] [] []) =
    some ([], [], [0x0105], []) ∧
    stored (machine 0x0104 [0x33] [0x12, 0x34, 0x80] [] [] [])
      [0x0085, 0x0086] = [0x12, 0x34] := by decide
/-- STRk, spec/95_test_vectors.md line 312. -/
theorem test_str_2 : seen (machine 0x0104 [0x93] [0xaa, 0x03] [] [] []) =
    some ([0xaa, 0x03], [], [0x0105], []) ∧
    stored (machine 0x0104 [0x93] [0xaa, 0x03] [] [] [])
      [0x0108] = [0xaa] := by decide
/-- LDA, spec/95_test_vectors.md line 315. -/
theorem test_lda : seen (machine 0x0100 [0x14] [0x02, 0x01] [] [(0x0200, [0x12, 0x34])] []) =
    some ([0x34], [], [0x0101], []) := by decide
/-- LDA2, spec/95_test_vectors.md line 317. -/
theorem test_lda_2 : seen (machine 0x0100 [0x34] [0xff, 0xff] [] [(0xffff, [0xab]), (0x0000, [0xcd])] []) =
    some ([0xab, 0xcd], [], [0x0101], []) := by decide
/-- STA2, spec/95_test_vectors.md line 326. -/
theorem test_sta : seen (machine 0x0100 [0x35] [0x12, 0x34, 0xff, 0xff] [] [] []) =
    some ([], [], [0x0101], []) ∧
    stored (machine 0x0100 [0x35] [0x12, 0x34, 0xff, 0xff] [] [] [])
      [0x0000, 0xffff] = [0x34, 0x12] := by decide
/-- DEI2, spec/95_test_vectors.md line 348. -/
theorem test_dei : seen (machine 0x0100 [0x36] [0xff] [] [] [.ret 0x0f, .ret 0xf0]) =
    some ([0x0f, 0xf0], [], [0x0101], [.deviceIn 0x00, .deviceIn 0xff]) := by decide
/-- DEIk, spec/95_test_vectors.md line 349. -/
theorem test_dei_2 : seen (machine 0x0100 [0x96] [0x12] [] [] [.ret 0x41]) =
    some ([0x12, 0x41], [], [0x0101], [.deviceIn 0x12]) := by decide
/-- DEO2, spec/95_test_vectors.md line 359. -/
theorem test_deo : seen (machine 0x0100 [0x37] [0x12, 0x34, 0xff] [] [] [.ret 0x00, .ret 0x00]) =
    some ([], [], [0x0101], [.deviceOut 0x00 0x34, .deviceOut 0xff 0x12]) := by decide
/-- DEOk, spec/95_test_vectors.md line 360. -/
theorem test_deo_2 : seen (machine 0x0100 [0x97] [0x41, 0x18] [] [] [.ret 0x00]) =
    some ([0x41, 0x18], [], [0x0101], [.deviceOut 0x18 0x41]) := by decide
/-- ADD2kr, spec/95_test_vectors.md line 382. -/
theorem test_add : seen (machine 0x0100 [0xf8] [0x09] [0x00, 0x01, 0x00, 0x02] [] []) =
    some ([0x09], [0x00, 0x01, 0x00, 0x02, 0x00, 0x03], [0x0101], []) := by decide
/-- ADD2, spec/95_test_vectors.md line 379. -/
theorem test_add_2 : seen (machine 0x0100 [0x38] [0x00, 0xff, 0x00, 0x01] [] [] []) =
    some ([0x01, 0x00], [], [0x0101], []) := by decide
/-- SUB, spec/95_test_vectors.md line 389. -/
theorem test_sub : seen (machine 0x0100 [0x19] [0x03, 0x05] [] [] []) =
    some ([0xfe], [], [0x0101], []) := by decide
/-- SUB2, spec/95_test_vectors.md line 392. -/
theorem test_sub_2 : seen (machine 0x0100 [0x39] [0x12, 0x34, 0x00, 0x35] [] [] []) =
    some ([0x11, 0xff], [], [0x0101], []) := by decide
/-- MUL2, spec/95_test_vectors.md line 398. -/
theorem test_mul : seen (machine 0x0100 [0x3a] [0x00, 0x12, 0x00, 0x34] [] [] []) =
    some ([0x03, 0xa8], [], [0x0101], []) := by decide
/-- MUL, spec/95_test_vectors.md line 396. -/
theorem test_mul_2 : seen (machine 0x0100 [0x1a] [0xff, 0xff] [] [] []) =
    some ([0x01], [], [0x0101], []) := by decide
/-- DIV2, spec/95_test_vectors.md line 409. -/
theorem test_div : seen (machine 0x0100 [0x3b] [0xff, 0xff, 0x00, 0x10] [] [] []) =
    some ([0x0f, 0xff], [], [0x0101], []) := by decide
/-- DIVk, spec/95_test_vectors.md line 414. -/
theorem test_div_2 : seen (machine 0x0100 [0x9b] [0x07, 0x00] [] [] []) =
    some ([0x07, 0x00], [], [], [.evalReturn (.fault .divideByZero), .halt 0x9b 3 0x0100]) := by decide
/-- AND2, spec/95_test_vectors.md line 425. -/
theorem test_and : seen (machine 0x0100 [0x3c] [0xff, 0x00, 0x0f, 0xf0] [] [] []) =
    some ([0x0f, 0x00], [], [0x0101], []) := by decide
/-- ORA2, spec/95_test_vectors.md line 426. -/
theorem test_ora : seen (machine 0x0100 [0x3d] [0xff, 0x00, 0x0f, 0xf0] [] [] []) =
    some ([0xff, 0xf0], [], [0x0101], []) := by decide
/-- EOR2, spec/95_test_vectors.md line 427. -/
theorem test_eor : seen (machine 0x0100 [0x3e] [0xff, 0x00, 0x0f, 0xf0] [] [] []) =
    some ([0xf0, 0xf0], [], [0x0101], []) := by decide
/-- SFT2, spec/95_test_vectors.md line 445. -/
theorem test_sft : seen (machine 0x0100 [0x3f] [0x12, 0x34, 0x48] [] [] []) =
    some ([0x01, 0x20], [], [0x0101], []) := by decide
/-- SFT, spec/95_test_vectors.md line 434. -/
theorem test_sft_2 : seen (machine 0x0100 [0x1f] [0x81, 0x11] [] [] []) =
    some ([0x80], [], [0x0101], []) := by decide

/-- The rest of a DEI2 whose first callback returns, at port 0xFF (R240, R243; wrap by 46_device.md's corner case). -/
theorem test_dei2_second_call : seen { machine 0x0100 [] [] [] [] [.ret 0x12, .ret 0x34] with
    acts := [⟨0x0101, true, some ⟨⟨0x36, ⟨true, false, false⟩, 0x0101, none⟩, .deiHigh 0xFF⟩⟩] } =
    some ([0x12, 0x34], [], [0x0101], [.deviceIn 0x00]) := by decide
/-- A fault's `Halt` returns: the activation ends and nothing resumes it (R277, R281). -/
theorem test_halt_returns : seen { machine 0x0100 [] [0x05] [] [] [.ret 0x00] with
    acts := [⟨0x0101, true, some ⟨⟨0x02, ⟨false, false, false⟩, 0x0101, none⟩, .halt .underflow⟩⟩] } =
    some ([0x05], [], [], [.evalReturn (.fault .underflow)]) := by decide

/-- A host given as an argument: it remembers the port it was last asked for, and does `answer` of it. -/
def portHost (answer : Byte → HostAction) : HostParam Byte where
  hear g e := match e with
    | .deviceIn port => port
    | _ => g
  act g := (g, answer g)
/-- A host whose answer depends on the port (R6, U1). -/
def incHost : HostParam Byte := portHost fun port => .ret (port + 1)
/-- The host's state, the working stack and the live activations after one step under a host. -/
def seenUnder (H : HostParam Byte) (g : Byte) (s : State) : Option (Byte × List Byte × List Activation) :=
  match stepUnder H (g, s) with
  | .next (g', t) => some (g', t.wst.contents, t.acts)
  | .fault _ => none
  | .refused _ => none
/-- The fetch of a DEI ends in its call, and the host hears the port (R240, U1). -/
theorem test_stepUnder_hears_the_port : seenUnder incHost 0x00 (machine 0x0100 [0x16] [0x12] [] [] []) =
    some (0x12, [], [⟨0x0101, true, some ⟨⟨0x16, ⟨false, false, false⟩, 0x0101, none⟩, .deiByte⟩⟩]) := by decide
/-- "The value is whatever the host returns" (R240): here it depends on the port the host heard. -/
theorem test_stepUnder_answers : seenUnder incHost 0x12 { machine 0x0100 [0x16] [] [] [] [] with
    acts := [⟨0x0101, true, some ⟨⟨0x16, ⟨false, false, false⟩, 0x0101, none⟩, .deiByte⟩⟩] } =
    some (0x12, [0x13], [⟨0x0101, true, none⟩]) := by decide

/-- A host that writes the enable byte goes on to `Eval` (R302), one action a step: from reset under `listHost` the core
runs the byte at 0x0100, a BRK, and the host hears its end. -/
theorem test_machineUnder_boots :
    (match (machineUnder listHost [.write (.dev 0x0F) 1, .eval 0x0100]).run 3
        (machineUnder listHost [.write (.dev 0x0F) 1, .eval 0x0100]).reset with
      | .next gs => some (gs.1, gs.2.dev, gs.2.acts, gs.2.log)
      | .fault _ => none
      | .refused _ => none) = some ([], [(0x0F, 1)], [], [.evalReturn .broke]) := by decide
/-- A host that writes inside `DeviceIn` goes on to return (R38 (b)): the write has been made, the return is next. -/
theorem test_stepUnder_writes_in_a_callback :
    (match stepUnder listHost ([.write (.dev 0x0F) 7, .ret 0x41], { machine 0x0100 [0x16] [] [] [] [] with
        acts := [⟨0x0101, true, some ⟨⟨0x16, ⟨false, false, false⟩, 0x0101, none⟩, .deiByte⟩⟩] }) with
      | .next (l, t) => some (l, t.dev, t.acts.length)
      | .fault _ => none
      | .refused _ => none) = some ([.ret 0x41], [(0x0F, 7)], 1) := by decide

/-! ### What tokens emit (30_encoding.md R90, R94) -/

/-- R94, the example of its row `#hh`: `#01 #02 ADD`. -/
theorem test_emit_literals : emitText ['#', '0', '1', ' ', '#', '0', '2', '\n', 'A', 'D', 'D'] =
    some [0x80, 0x01, 0x80, 0x02, 0x18] := by decide
/-- R94, the row `( ... )`: a comment emits nothing, and comments nest. -/
theorem test_emit_comment : emitToken ['('] = some [] ∧
    emitText ['(', ' ', 'P', 'O', 'P', ' ', '(', ' ', '#', '0', ' ', ')', ' ', 'P', 'O', 'P', ' ', ')', ' ', 'I', 'N', 'C'] =
      some [0x01] := by decide

/-! ### Witnesses: states and operands that meet the hypotheses of the statements, at the edges of their ranges -/

/-- An enabled machine whose one activation runs at 0x0100, with `w` and `r` bytes (all 0) on its stacks. -/
def withDepths (w r : Nat) (script : List HostAction) : State :=
  { State.reset with
    wst := ⟨[], BitVec.ofNat 8 w⟩
    rst := ⟨[], BitVec.ofNat 8 r⟩
    dev := [(0x0F, 1)]
    acts := [⟨0x0100, true, none⟩]
    script := script }

/-- Every such machine has a running activation, and its host's script is the one given: the hypotheses on `acts` and
`script` of the statements below are met by each of the witnesses' states. -/
theorem witness_acts_and_script (w r : Nat) (script : List HostAction) :
    (withDepths w r script).acts = ⟨0x0100, true, none⟩ :: [] ∧ (withDepths w r script).script = script := ⟨rfl, rfl⟩

/-- Byte mode and short mode, and the same with keep. -/
def mB : Mode := ⟨false, false, false⟩
def mS : Mode := ⟨true, false, false⟩
def mBk : Mode := ⟨false, false, true⟩
def mSk : Mode := ⟨true, false, true⟩

theorem witness_BaseOpcodesHaveEightModes : baseInstrs[0]? = some Instr.inc ∧ baseInstrs[30]? = some Instr.sft := ⟨rfl, rfl⟩
theorem witness_DecodeOfEncode : (Instr.lit2r 0xFFFF).wellFormed = true ∧ Instr.brk.wellFormed = true := by decide
theorem witness_EncodeOfDecode : decode [0xE0, 0x01, 0x08, 0x6C] = .ok (.lit2r 0x0108, [0x6C]) := by decide
theorem witness_SpellingRoundTrip :
    mnemonicTable[0]? = some (['L', 'I', 'T'], 0x80) ∧ mnemonicTable[31]? = some (['S', 'F', 'T'], 0x1F) ∧
      ∀ c ∈ ['k', '2', 'r'], c = '2' ∨ c = 'r' ∨ c = 'k' := ⟨rfl, rfl, by simp⟩
/-- The first and the last value are those of 95_test_vectors.md S6; the others are the ends of R95's range. -/
theorem witness_PatchesReachTheirTarget :
    patchRelative8 0x010D 0x0104 = some 0xF5 ∧ patchRelative8 0x0100 0x0181 = some 0x7F ∧
      patchRelative8 0x0100 0x0182 = none ∧ patchRelative8 0x0100 0x0082 = some 0x80 ∧
      patchRelative8 0x0100 0x0081 = none ∧ patchRelative16 0x0101 0x0100 = [0xFF, 0xFD] := by decide

theorem witness_running : runsAt (withDepths 0 0 []) 0x0100 true [] := ⟨rfl, by decide, by decide⟩
theorem witness_StepRunsTheDecodedInstruction :
    (withDepths 0 0 []).acts = [⟨0x0100, true, none⟩] ∧ (0x0100 : Short) ≠ 0 ∧ (withDepths 0 0 []).enabled = true := by
  decide
theorem witness_LoopTopEndsTheActivation :
    ({ State.reset with acts := [⟨0, true, none⟩] } : State).acts = [⟨0, true, none⟩] ∧
      (0xFFFF : Short) ≠ 0 ∧ State.reset.dev.read 0x0F = 0 := by decide
theorem witness_EvalIsANoOpWhereItMayNotStart :
    ({ State.reset with acts := [⟨0x0100, false, none⟩] } : State).acts = ⟨0x0100, false, none⟩ :: [] ∧
      State.reset.dev.read 0x0F = 0 ∧ ({ withDepths 0 0 [] with acts := [⟨0, false, none⟩] } : State).acts = ⟨0, false, none⟩ :: [] := by
  decide
theorem witness_HostActsBetweenActivations :
    State.reset.acts = [] ∧ State.reset.script = [] ∧
      ({ State.reset with script := [.write (.dev 0x0F) 1, .eval 0x0100] } : State).acts = [] := by decide
theorem witness_HostActsBetweenActivations_host :
    listHost.act [.write (.dev 0x0F) 1, .eval 0x0100] = ([.eval 0x0100], .write (.dev 0x0F) 1) ∧
      listHost.act [.eval 0x0100] = ([], .eval 0x0100) ∧ listHost.act [.read .wstPtr] = ([], .read .wstPtr) ∧
      listHost.act [] = ([], .pause) ∧
      ({ State.reset with script := [.pause] } : State).script = .pause :: [] := by decide
theorem witness_HostWriteReachesOnePlace : State.reset.wf = true ∧ Space.page 1 0 ≠ Space.page 0 0 := by decide
theorem witness_BootStartsTheRom :
    (List.replicate 65280 (0x00 : Byte)).length ≤ 65280 ∧ 65280 < (List.replicate 65281 (0x00 : Byte)).length := by
  simp only [List.length_replicate]; omega
/-- A machine with `n` bytes on the working stack whose one activation, a DEI2's or a DEO2's, waits in `aw`. -/
def waiting (aw : Await) (n : Nat) (script : List HostAction) : State :=
  { withDepths n 0 script with acts := [⟨0x0101, true, some ⟨⟨0x36, mS, 0x0101, none⟩, aw⟩⟩] }
theorem witness_CallbackReturnsToItsInstruction_scripts :
    [.read .wstPtr, .write (.dev 0x0F) 0].all HostAction.isAccess = true ∧
      (waiting .deiByte 0 [.read .wstPtr, .write (.dev 0x0F) 0, .ret 0x41]).script =
        [.read .wstPtr, .write (.dev 0x0F) 0] ++ .ret 0x41 :: [] ∧
      (waiting .deoLast 0 [.read .wstPtr, .write (.dev 0x0F) 0, .eval 0x0200]).script =
        [.read .wstPtr, .write (.dev 0x0F) 0] ++ .eval 0x0200 :: [] ∧
      (waiting .deoLast 0 [.read .wstPtr, .pause]).script = [.read .wstPtr] ++ .pause :: [] ∧
      (waiting (.deiHigh 0xFF) 0 [.ret 0x12, .ret 0x34]).script = [] ++ .ret 0x12 :: [.ret 0x34] ∧
      (waiting (.deoHigh 0xFF 0) 0 [.ret 0x12, .eval 0x0200]).script = [] ++ .ret 0x12 :: [.eval 0x0200] := by decide
theorem witness_CallbackReturnsToItsInstruction_depths :
    ((waiting .deiByte 255 []).afterAccesses [.write .wstPtr 254]).depth .wst ≠ 255 ∧
      ((waiting .deiByte 254 []).afterAccesses [.write .wstPtr 255]).depth .wst = 255 ∧
      ((waiting (.deiLow 0) 253 []).afterAccesses [.read .wstPtr]).depth .wst < 254 ∧
      254 ≤ ((waiting (.deiHigh 0) 253 []).afterAccesses [.write .wstPtr 254]).depth .wst := by decide
theorem witness_NestedActivationStartsInDeviceOut :
    2 ≤ (withDepths 2 0 [.eval 0x0200]).depth mB.src ∧ mB.short = false ∧
      (withDepths 2 0 [.eval 0x0200]).script = .eval 0x0200 :: [] := by decide

theorem witness_MemoryReadsAndWrites :
    State.reset.wf = true ∧ (0x0001 : Short) ≠ 0xFFFF ∧ (0x0001 : Short) ≠ 0xFFFF + 1 := by decide
theorem witness_BytePushAndPop :
    (withDepths 255 0 []).depth .wst = 255 ∧ (withDepths 254 0 []).depth .wst ≠ 255 ∧
      (withDepths 0 0 []).depth .wst = 0 ∧ (withDepths 1 0 []).depth .wst ≠ 0 ∧
      (⟨withDepths 0 0 [], some 1⟩ : Local).kc = some 1 ∧ (⟨withDepths 0 0 [], none⟩ : Local).kc = none := by decide
theorem witness_ShortPushAndPop :
    254 ≤ (withDepths 254 0 []).depth .wst ∧ (withDepths 253 0 []).depth .wst < 254 ∧
      (withDepths 1 0 []).depth .wst ≤ 1 ∧ 2 ≤ (withDepths 2 0 []).depth .wst ∧
      (1 : Byte).toNat ≤ 1 ∧ 2 ≤ (2 : Byte).toNat := by decide
theorem witness_StacksAreLastInFirstOut :
    (withDepths 254 0 []).wf = true ∧ (withDepths 254 0 []).depth .wst + 1 ≤ 255 ∧
      (withDepths 253 0 []).wf = true ∧ (withDepths 253 0 []).depth .wst + 2 ≤ 255 := by decide

/-- With `witness_running`, for BreakEndsTheActivation, ImmediateJump and LiteralsComeFromMemory. -/
theorem witness_immediate_steps :
    (withDepths 0 0 []).memRead1 0x0100 = 0x00 ∧ (place (withDepths 0 0 []) 0x0100 [0x40]).memRead1 0x0100 = 0x40 ∧
      (place (withDepths 254 0 []) 0x0100 [0x80]).memRead1 0x0100 = 0x80 ∧
      (place (withDepths 0 253 []) 0x0100 [0xE0]).memRead1 0x0100 = 0xE0 := by decide
theorem witness_ImmediateConditionalJumpAndCall :
    1 ≤ (withDepths 1 253 []).depth .wst ∧ (withDepths 1 253 []).depth .rst + 2 ≤ 255 := by decide
theorem witness_LiteralsArePushed :
    (withDepths 254 0 []).depth .wst + 1 ≤ 255 ∧ (withDepths 253 0 []).depth .wst + 2 ≤ 255 ∧
      (withDepths 0 254 []).depth .rst + 1 ≤ 255 ∧ (withDepths 0 253 []).depth .rst + 2 ≤ 255 := by decide
theorem witness_LiteralsComeFromMemory :
    (withDepths 254 0 []).depth .wst ≠ 255 ∧ (withDepths 255 0 []).depth .wst = 255 ∧
      (withDepths 0 253 []).depth .rst < 254 ∧ 254 ≤ (withDepths 0 254 []).depth .rst := by decide

theorem witness_ShuffleResults_bytes :
    (withDepths 1 0 []).room mB 1 1 ∧ (withDepths 254 0 []).room mBk 1 1 ∧ (withDepths 2 0 []).room mB 2 2 ∧
      (withDepths 253 0 []).room mBk 2 2 ∧ (withDepths 252 0 []).room mBk 3 3 ∧ (withDepths 254 0 []).room mB 1 2 ∧
      (withDepths 254 0 []).room mB 2 3 ∧ mBk.bytes ≤ (withDepths 254 0 []).depth mBk.src := by decide
theorem witness_ShuffleResults_shorts :
    (withDepths 253 0 []).room mSk 2 2 ∧ (withDepths 251 0 []).room mSk 4 4 ∧ (withDepths 249 0 []).room mSk 6 6 ∧
      (withDepths 253 0 []).room mS 2 4 ∧ (withDepths 253 0 []).room mS 4 6 ∧
      3 * mSk.bytes ≤ (withDepths 249 0 []).depth mSk.src := by decide
theorem witness_ComparisonResults :
    2 * mSk.bytes ≤ (withDepths 254 0 []).depth mSk.src ∧ (withDepths 254 0 []).room mSk (2 * mSk.bytes) 1 := by decide
theorem witness_JumpResults :
    (withDepths 3 0 []).acts = [⟨0x0100, true, none⟩] ∧ mS.bytes + 1 ≤ (withDepths 3 0 []).depth mS.src ∧
      mB.bytes ≤ (withDepths 1 0 []).depth mB.src := by decide
theorem witness_CallAndStashResults :
    mS.bytes ≤ (withDepths 2 253 []).depth mS.src ∧ (withDepths 2 253 []).depth mS.dst + 2 ≤ 255 ∧
      (withDepths 2 253 []).depth mS.dst + mS.bytes ≤ 255 := by decide
theorem witness_LoadResults :
    1 ≤ (withDepths 254 0 []).depth mS.src ∧ (withDepths 254 0 []).room mS 1 mS.bytes ∧
      2 ≤ (withDepths 253 0 []).depth mSk.src ∧ (withDepths 253 0 []).room mSk 2 mSk.bytes := by decide
theorem witness_StoreResults :
    1 + mS.bytes ≤ (withDepths 3 0 []).depth mS.src ∧ 2 + mS.bytes ≤ (withDepths 4 0 []).depth mS.src := by decide
theorem witness_StoresLeaveOtherBytes :
    (withDepths 3 0 []).wf = true ∧ 1 + mS.bytes ≤ (withDepths 3 0 []).depth mS.src ∧
      ∃ t, exec (.str mS) (withDepths 3 0 []) = .next t := ⟨by decide, by decide, _, rfl⟩
theorem witness_StoresAreFetched :
    (withDepths 2 0 []).wf = true ∧ (withDepths 2 0 []).enabled = true ∧ 2 ≤ (withDepths 2 0 []).depth mB.src ∧
      (withDepths 2 0 []).byteBelow mB.src 0 = 0 := by decide

/-- For DeviceInputResults, and with the script [] for DeviceInputOfASilentHost. -/
theorem witness_DeviceInput :
    1 ≤ (withDepths 254 0 [.ret 0x41, .ret 0x42]).depth mS.src ∧
      (withDepths 254 0 [.ret 0x41, .ret 0x42]).room mS 1 mS.bytes ∧
      (withDepths 254 0 [.ret 0x41]).room mBk 1 mBk.bytes := by decide
theorem witness_DeviceOutputResults :
    1 + mS.bytes ≤ (withDepths 3 0 []).depth mS.src ∧ 1 + mB.bytes ≤ (withDepths 2 0 []).depth mB.src := by decide
theorem witness_HostWritesInDeviceInAreSeen :
    1 ≤ (withDepths 1 0 []).depth mB.src ∧
      (((withDepths 1 0 []).popped mB 1).hostWrite .wstPtr 254).depth mB.src + 1 ≤ 255 := by decide

/-- A DEI in keep mode and in short mode about to be fetched, and a waiting one with a host that answers, at the edges. -/
theorem witness_HostWritesInDeviceInAreSeen_host :
    runsAt (place (withDepths 1 0 []) 0x0100 [0xB6]) 0x0100 true [] ∧
      (place (withDepths 1 0 []) 0x0100 [0xB6]).memRead1 0x0100 = (Instr.dei mSk).opcode ∧
      1 ≤ (place (withDepths 1 0 []) 0x0100 [0xB6]).depth mSk.src ∧
      incHost.act 0x12 = (0x12, .ret 0x13) ∧ (waiting .deiByte 254 []).depth mS.src ≠ 255 ∧
      listHost.act [.write (.dev 0x0F) 0, .ret 0x13] = ([.ret 0x13], .write (.dev 0x0F) 0) := by
  refine ⟨⟨rfl, by decide, by decide⟩, by decide, by decide, by decide, by decide, rfl⟩

/-- For ArithmeticResults and BitwiseResults. -/
theorem witness_ArithmeticResults :
    2 * mSk.bytes ≤ (withDepths 253 0 []).depth mSk.src ∧ (withDepths 253 0 []).room mSk (2 * mSk.bytes) mSk.bytes := by
  decide
theorem witness_DivisionResult :
    (machine 0x0100 [] [0x07, 0x02] [] [] []).item mB 0 ≠ 0 ∧
      2 * mB.bytes ≤ (machine 0x0100 [] [0x07, 0x02] [] [] []).depth mB.src ∧
      (machine 0x0100 [] [0x07, 0x02] [] [] []).room mB (2 * mB.bytes) mB.bytes := by decide
theorem witness_ShiftResult :
    1 + mSk.bytes ≤ (withDepths 253 0 []).depth mSk.src ∧ (withDepths 253 0 []).room mSk (1 + mSk.bytes) mSk.bytes := by
  decide

theorem witness_FaultEntry :
    (withDepths 0 0 [.ret 0x00]).acts = ⟨0x0100, true, none⟩ :: [] ∧ (withDepths 0 0 [.ret 0x00]).script = .ret 0x00 :: [] ∧
      (withDepths 0 0 [.eval 0x0200]).script = .eval 0x0200 :: [] := by decide
theorem witness_ClosedFormOfFaults :
    closedFault (.add mB) (withDepths 1 0 []) = some .underflow ∧
      closedFault (.div mBk) (withDepths 255 0 []) = some .divideByZero ∧
      closedFault (.add mBk) (withDepths 255 0 []) = some .overflow ∧
      closedFault (.add mBk) (withDepths 254 0 []) = none := by decide
theorem witness_DivisionByZero :
    2 * mBk.bytes ≤ (withDepths 255 0 []).depth mBk.src ∧ (withDepths 255 0 []).item mBk 0 = 0 := by decide
theorem witness_FaultKeepsEarlierPops :
    (popSizes (.rot mS)).length = 3 ∧ ((popSizes (.rot mS)).take 2).sum ≤ (withDepths 5 0 []).depth mS.src ∧
      (withDepths 5 0 []).depth mS.src < ((popSizes (.rot mS)).take 3).sum ∧
      ((popSizes (.jcn mS)).take 1).sum ≤ (withDepths 2 0 []).depth mS.src ∧
      (withDepths 2 0 []).depth mS.src < ((popSizes (.jcn mS)).take 2).sum := by decide
/-- The second is R274's example, OVRk at depth 253. -/
theorem witness_FaultKeepsEarlierPushes :
    (mB.bytes ≤ (withDepths 255 0 []).depth mB.src ∧ (withDepths 255 0 []).room mB mB.bytes (1 * mB.bytes) ∧
      ¬ (withDepths 255 0 []).room mB mB.bytes ((1 + 1) * mB.bytes)) ∧
    ((withDepths 253 0 []).room mBk (2 * mBk.bytes) (2 * mBk.bytes) ∧
      ¬ (withDepths 253 0 []).room mBk (2 * mBk.bytes) ((2 + 1) * mBk.bytes)) ∧
    closedFault (.dei mS) (withDepths 255 0 []) = some .overflow ∧
    closedFault (.jsr mB) (withDepths 1 254 []) = some .overflow ∧
    ∀ m, Instr.jsr mB ≠ .swp m ∧ Instr.jsr mB ≠ .rot m ∧ Instr.jsr mB ≠ .dup m ∧ Instr.jsr mB ≠ .ovr m ∧
      Instr.jsr mB ≠ .dei m := by
  refine ⟨by decide, by decide, by decide, by decide, fun m => by simp⟩
theorem witness_FaultsLeaveMemory :
    (withDepths 2 0 []).script = [] ∧ (withDepths 2 0 []).faultSeen = false ∧
      ∃ t, exec (.sta mS) (withDepths 2 0 []) = .next t ∧ t.faultSeen = true := ⟨rfl, rfl, _, rfl, rfl⟩

/-- A step from a legal state whose calls fit: for StepKeepsLegal, StepKeepsCallsFitting and LogOnlyGrows, and with
`witness_no_host_writes` for the statements about what only the host writes. -/
theorem witness_steps :
    (withDepths 2 0 [.read .wstPtr]).wf = true ∧ (withDepths 2 0 [.read .wstPtr]).callsFit = true ∧
      ∃ t, step (withDepths 2 0 [.read .wstPtr]) = .next t := ⟨by decide, by decide, _, rfl⟩
theorem witness_no_host_writes :
    (∀ port v, .write (.dev port) v ∉ (withDepths 2 0 [.read .wstPtr]).script) ∧
      (∀ p a v, .write (.page p a) v ∉ (withDepths 2 0 [.read .wstPtr]).script) ∧
      (∀ i v, .write (.wstDat i) v ∉ (withDepths 2 0 [.read .wstPtr]).script ∧
        .write (.rstDat i) v ∉ (withDepths 2 0 [.read .wstPtr]).script) ∧
      ∀ sp v, .write sp v ∉ (withDepths 2 0 [.read .wstPtr]).script := by simp [withDepths]
theorem witness_OnlyStoresWriteMemory : storesToRam (.ldz mB) = false ∧ storesToRam (.deo mB) = false := by decide
theorem witness_KeepModeKeepsOperands :
    (modeOf (.rot mSk)).keep = true ∧ ∃ t, exec (.rot mSk) (withDepths 250 0 []) = .next t := ⟨rfl, _, rfl⟩
theorem witness_FaultRecordStays :
    ({ withDepths 0 0 [] with faultSeen := true } : State).faultSeen = true ∧
      ∃ t, step { withDepths 0 0 [] with faultSeen := true } = .next t := ⟨rfl, _, rfl⟩
/-- `NotStarted` (entry 0, and enable byte 0), `PcZero`, `Disabled`, Break. -/
theorem witness_ActivationsEndInFiveWays :
    (∃ t, step { withDepths 0 0 [] with acts := [⟨0, false, none⟩] } = .next t ∧ t.acts = []) ∧
      (∃ t, step { State.reset with acts := [⟨0x0100, false, none⟩] } = .next t ∧ t.acts = []) ∧
      (∃ t, step { withDepths 0 0 [] with acts := [⟨0, true, none⟩] } = .next t ∧ t.acts = []) ∧
      (∃ t, step { State.reset with acts := [⟨0xFFFF, true, none⟩] } = .next t ∧ t.acts = []) ∧
      ∃ t, step (withDepths 0 0 []) = .next t ∧ t.acts = [] :=
  ⟨⟨_, rfl, rfl⟩, ⟨_, rfl, rfl⟩, ⟨_, rfl, rfl⟩, ⟨_, rfl, rfl⟩, _, rfl, rfl⟩
/-- A fault of this step in a machine that has had one before, and a waiting `Halt`. -/
theorem witness_ActivationsEndInFiveWays_faults :
    (∃ t, step (place { withDepths 0 0 [.read .wstPtr] with faultSeen := true } 0x0100 [0x02]) = .next t ∧ t.acts = []) ∧
      ∃ t, step (waiting (.halt .overflow) 0 [.ret 0]) = .next t ∧ t.acts = [] :=
  ⟨⟨_, rfl, rfl⟩, _, rfl, rfl⟩
theorem witness_OuterActivationsStay :
    ({ withDepths 0 0 [] with acts := [⟨0x0100, true, none⟩, ⟨0x0201, true, some ⟨⟨0x17, mB, 0x0201, none⟩, .deoLast⟩⟩] } :
      State).acts = ⟨0x0100, true, none⟩ :: [⟨0x0201, true, some ⟨⟨0x17, mB, 0x0201, none⟩, .deoLast⟩⟩] := by decide

end Sys2Proof.Tests
end

section
/-! What one action of the active host does to a step, and what a DEI does up to its first callback. -/

open Sys2Proof Sys2Proof.Machine Sys2Proof.Claims

namespace Sys2Proof.Proofs

/-! ### Updates that commute -/

@[simp] theorem hostRead_setScript (s : State) (l : List HostAction) (sp : Space) :
    ({ s with script := l } : State).hostRead sp = s.hostRead sp := by cases sp <;> rfl

@[simp] theorem hostWrite_setScript (s : State) (l : List HostAction) (sp : Space) (v : Byte) :
    ({ s with script := l } : State).hostWrite sp v = { s.hostWrite sp v with script := l } := by cases sp <;> rfl

theorem hostWrite_tell (s : State) (e : Event) (sp : Space) (v : Byte) :
    (s.tell e).hostWrite sp v = (s.hostWrite sp v).tell e := by cases sp <;> rfl

/-- The host's accesses neither look at the activations nor change them (R36). -/
theorem afterAccesses_setActs (s : State) (acts : List Activation) (accesses : List HostAction) :
    ({ s with acts := acts } : State).afterAccesses accesses = { s.afterAccesses accesses with acts := acts } := by
  induction accesses generalizing s with
  | nil => rfl
  | cons a more ih =>
    cases a with
    | read sp =>
      have h : ({ s with acts := acts } : State).hostRead sp = s.hostRead sp := by cases sp <;> rfl
      simpa only [State.afterAccesses, h] using ih { s with log := .hostRead sp (s.hostRead sp) :: s.log }
    | write sp v =>
      have h : ({ s with acts := acts } : State).hostWrite sp v = { s.hostWrite sp v with acts := acts } := by
        cases sp <;> rfl
      simpa only [State.afterAccesses, h] using ih (s.hostWrite sp v)
    | eval _ | ret _ | pause => exact ih s

/-- Pops neither look at the script and the activations nor change them. -/
theorem popped_setScript_setActs (s : State) (l : List HostAction) (acts : List Activation) (m : Mode) (p : Nat) :
    ({ s with script := l, acts := acts } : State).popped m p = { s.popped m p with script := l, acts := acts } := by
  obtain ⟨short, ret, keep⟩ := m
  cases ret <;> cases keep <;> rfl

/-! ### Who acts in a step -/

theorem step_idle {s : State} (h : s.acts = []) : step s = hostIdle s := by simp only [step, h]

theorem step_waiting {s : State} {pc : Short} {started : Bool} {c : Callback} {rest : List Activation}
    (h : s.acts = ⟨pc, started, some c⟩ :: rest) : step s = .next (hostTurn (resume c.dec c.await) s) := by
  simp only [step, h]

theorem step_running {s : State} {pc : Short} {started : Bool} {rest : List Activation}
    (h : runsAt s pc started rest) :
    step s = exec (s.fetch pc) { s with acts := ⟨pc + 1, true, none⟩ :: rest } := by
  obtain ⟨hacts, hpc, henabled⟩ := h
  have hloop : loopEnd ⟨pc, started, none⟩ s = none := by simp only [loopEnd, if_neg hpc, henabled, if_true]
  simp only [step, hacts, hloop, State.beginInstr, State.mapInner_of_acts hacts]

theorem hostIsActive_idle {s : State} (h : s.acts = []) : s.hostIsActive = true := by simp only [State.hostIsActive, h]

theorem hostIsActive_waiting {s : State} {pc : Short} {started : Bool} {c : Callback} {rest : List Activation}
    (h : s.acts = ⟨pc, started, some c⟩ :: rest) : s.hostIsActive = true := by
  simp only [State.hostIsActive, h, Option.isSome_some]

theorem hostIsActive_running {s : State} {pc : Short} {started : Bool} {rest : List Activation}
    (h : s.acts = ⟨pc, started, none⟩ :: rest) : s.hostIsActive = false := by
  simp only [State.hostIsActive, h, Option.isSome_none]

/-! ### The active host's turn -/

/-- Where the turn of an active host ends without a return, the step is that turn, between activations and inside a
callback alike (R38). -/
theorem step_hostRun {s t : State} {stop : HostStop} (hactive : s.hostIsActive = true)
    (hrun : hostRun s.script s = (stop, t)) (hstop : stop = .called ∨ stop = .paused) : step s = .next t := by
  obtain ⟨mem, wst, rst, dev, acts, script, freeCount, log, faultSeen⟩ := s
  rcases acts with - | ⟨⟨pc, started, - | c⟩, rest⟩
  · rw [step_idle rfl, hostIdle, hrun]
    rcases hstop with rfl | rfl <;> rfl
  · cases hactive
  · rw [step_waiting rfl, hostTurn, hrun]
    rcases hstop with rfl | rfl <;> rfl

/-- A host that returns after some accesses: the callback goes on with its byte, on the state the accesses left. -/
theorem hostTurn_accesses_ret {k : Option Byte → State → State} {s : State} {a : Activation} {rest : List Activation}
    {accesses : List HostAction} {v : Byte} {l : List HostAction} (hacc : accesses.all HostAction.isAccess = true)
    (hs : s.script = accesses ++ .ret v :: l) (ha : s.acts = a :: rest) :
    hostTurn k s =
      k (some v) { s.afterAccesses accesses with script := l, acts := { a with call := none } :: rest } := by
  have hacts : ({ s.afterAccesses accesses with script := l } : State).acts = a :: rest := by
    rw [← ha]; exact s.afterAccesses_acts accesses
  simp only [hostTurn, hs, hostRun_accesses hacc, hostRun_ret, State.mapInner_of_acts hacts]

/-- The same from the call on. -/
theorem callHost_accesses_ret {d : Decoder} {aw : Await} {k : Option Byte → State → State} {s : State} {a : Activation}
    {rest : List Activation} {accesses : List HostAction} {v : Byte} {l : List HostAction}
    (hacc : accesses.all HostAction.isAccess = true) (hs : s.script = accesses ++ .ret v :: l)
    (ha : s.acts = a :: rest) :
    callHost d aw k s =
      k (some v) { s.afterAccesses accesses with script := l, acts := { a with call := none } :: rest } := by
  let waiting : State := { s with acts := { a with call := some ⟨d, aw⟩ } :: rest }
  rw [callHost, State.mapInner_of_acts ha, hostTurn_accesses_ret (s := waiting) hacc hs rfl, afterAccesses_setActs]

/-! ### One action of a host given as an argument -/

section
variable {σ : Type} {H : HostParam σ} {g g' : σ} {s : State}

/-- An action that is no return, and of which the host hears nothing. -/
theorem stepUnder_unheard {a : HostAction} {t : State} {stop : HostStop} (hactive : s.hostIsActive = true)
    (hact : H.act g = (g', a)) (hrun : hostRun [a, .pause] { s with script := [a, .pause] } = (stop, t))
    (hstop : stop = .called ∨ stop = .paused) (hlog : t.log = s.log) :
    stepUnder H (g, s) = .next (g', { t with script := [] }) := by
  rw [stepUnder_act hactive hact (step_hostRun (s := { s with script := [a, .pause] }) hactive hrun hstop),
    newEvents_same hlog, List.foldl_nil]

theorem stepUnder_eval {entry : Short} (hactive : s.hostIsActive = true) (hact : H.act g = (g', .eval entry)) :
    stepUnder H (g, s) = .next (g', { s with script := [], acts := ⟨entry, false, none⟩ :: s.acts }) :=
  stepUnder_unheard hactive hact (hostRun_eval ..) (.inl rfl) rfl

theorem stepUnder_write {sp : Space} {v : Byte} (hactive : s.hostIsActive = true)
    (hact : H.act g = (g', .write sp v)) :
    stepUnder H (g, s) = .next (g', { s.hostWrite sp v with script := [] }) := by
  rw [stepUnder_unheard hactive hact ((hostRun_write ..).trans (hostRun_pause ..)) (.inr rfl) (by simp),
    hostWrite_setScript]

theorem stepUnder_pause (hactive : s.hostIsActive = true) (hact : H.act g = (g', .pause)) :
    stepUnder H (g, s) = .next (g', { s with script := [] }) :=
  stepUnder_unheard hactive hact (t := { s with script := [.pause] }) (hostRun_pause ..) (.inr rfl) rfl

theorem stepUnder_read {sp : Space} (hactive : s.hostIsActive = true) (hact : H.act g = (g', .read sp)) :
    stepUnder H (g, s) = .next (H.hear g' (.hostRead sp (s.hostRead sp)),
      { s with script := [], log := .hostRead sp (s.hostRead sp) :: s.log }) := by
  let asked : State := { s with script := [.read sp, .pause] }
  have hread : asked.hostRead sp = s.hostRead sp := hostRead_setScript ..
  have hrun : hostRun asked.script asked =
      (.paused, { s with script := [], log := .hostRead sp (s.hostRead sp) :: s.log }) := by
    rw [← hread]; rfl
  rw [stepUnder_act hactive hact (step_hostRun (s := asked) hactive hrun (.inr rfl)), newEvents_one rfl]; rfl

end

/-- Settles O13: each action of the script by `step_hostRun`, each action of a host by its own lemma; no activation is
live, so the one that `Eval` starts is the only one. -/
theorem hostActsBetweenActivations : Obligations.HostActsBetweenActivations := by
  unfold Obligations.HostActsBetweenActivations
  intro s hacts
  have hactive := hostIsActive_idle hacts
  refine ⟨fun hs => ?_, fun entry l hs => ?_, fun sp v entry l hs => ?_, fun l hs => ?_, fun σ H g g' =>
    ⟨fun entry hact => ?_, fun sp v => stepUnder_write hactive, fun sp => stepUnder_read hactive,
      stepUnder_pause hactive⟩⟩
  · rw [step_idle hacts, hostIdle, hs, hostRun_silent, ← hs]
  · refine step_hostRun hactive (stop := .called) ?_ (.inl rfl)
    rw [hs, hostRun_eval, hacts]
  · refine step_hostRun hactive (stop := .called) ?_ (.inl rfl)
    rw [hs, hostRun_write, hostRun_eval, State.hostWrite_acts, hacts]
  · refine step_hostRun hactive (stop := .paused) ?_ (.inr rfl)
    rw [hs, hostRun_pause]
  · rw [stepUnder_eval hactive hact, hacts]

/-! ### DEI up to its first callback -/

/-- The port DEI calls first: the byte on top of the source stack (R240). -/
def deiPort (m : Mode) (s : State) : Byte := BitVec.ofNat 8 (s.byteBelow m.src 0)

/-- The first `DeviceIn` of a DEI that starts in `s`, with what the decoder keeps across it (R33, R38 (b), R240). -/
def deiCallback (m : Mode) (s : State) : Callback where
  dec := ⟨(Instr.dei m).opcode, m, s.pc, if m.keep then some (BitVec.ofNat 8 (s.depth m.src - 1)) else none⟩
  await := if m.short then .deiHigh (deiPort m s) else .deiByte

/-- A DEI with an operand pops the port and calls `DeviceIn`; the rest of it is what that callback returns to. -/
theorem exec_dei {m : Mode} {s : State} (h : 1 ≤ s.depth m.src) :
    exec (.dei m) s = .next (deviceIn (deiCallback m s).dec (deiPort m s) (deiCallback m s).await
      (resume (deiCallback m s).dec (deiCallback m s).await) (s.popped m 1)) := by
  have hpop : pop8 m.src ⟨s, (startDecoder (Instr.dei m).opcode m s).kc⟩ = .ok (deiPort m s) (popLocal m s 1) := by
    rw [start_popLocal]; exact pop8_popLocal h
  simp only [exec, execDei, deliverThen, hpop]
  by_cases hshort : m.short = true
  · simp only [deiCallback, if_pos hshort, resume]; rfl
  · simp only [deiCallback, if_neg hshort, resume]; rfl

/-- A byte-mode DEI pushes the byte its callback returned, where there is room (R240). -/
theorem afterDeiByte_some {d : Decoder} {v : Byte} {s : State} (h : s.depth d.mode.src + 1 ≤ 255) :
    afterDeiByte d (some v) s = s.withByte d.mode.src v.toNat := deliver_ok (push8_ok h)

/-- No byte after the opcode byte has a part in decoding a DEI (R81). -/
theorem fetch_dei {s : State} {pc : Short} {m : Mode} (h : s.memRead1 pc = (Instr.dei m).opcode) :
    s.fetch pc = .dei m := by
  obtain ⟨short, ret, keep⟩ := m
  rw [State.fetch, h]
  cases short <;> cases ret <;> cases keep <;> rfl

/-- Byte mode, under a script that writes once and returns: the byte is pushed on the stack as the host left it. -/
theorem exec_dei_write_ret {s : State} {m : Mode} {sp : Space} {b v : Byte} {l : List HostAction} {a : Activation}
    {rest : List Activation} (hacts : s.acts = a :: rest) (hcall : a.call = none) (hdepth : 1 ≤ s.depth m.src)
    (hbyte : m.short = false) (hs : s.script = .write sp b :: .ret v :: l)
    (hroom : ((s.popped m 1).hostWrite sp b).depth m.src + 1 ≤ 255) :
    exec (.dei m) s = .next ({ (s.popped m 1).hostWrite sp b with
      script := l, log := .deviceIn (deiPort m s) :: s.log }.withByte m.src v.toNat) := by
  have hawait : (deiCallback m s).await = .deiByte := by simp [deiCallback, hbyte]
  have hleft : { ((s.popped m 1).tell (.deviceIn (deiPort m s))).afterAccesses [.write sp b] with
      script := l, acts := { a with call := none } :: rest } =
      { (s.popped m 1).hostWrite sp b with script := l, log := .deviceIn (deiPort m s) :: s.log } := by
    have hacts' : ((s.popped m 1).hostWrite sp b).acts = { a with call := none } :: rest := by
      rw [State.hostWrite_acts, State.popped_acts, hacts, ← hcall]
    have hlog : ((s.popped m 1).hostWrite sp b).log = s.log := by simp
    rw [State.afterAccesses, hostWrite_tell, State.tell, hlog, ← hacts']; rfl
  rw [exec_dei hdepth, hawait, deviceIn, callHost_accesses_ret (accesses := [.write sp b]) rfl
    (by simpa using hs) (by simpa using hacts), hleft]
  exact congrArg _ (afterDeiByte_some hroom)

/-- The step that fetches a DEI ends in its first callback, and the host has heard the port. -/
theorem stepUnder_dei {σ : Type} {H : HostParam σ} {g : σ} {s : State} {pc : Short} {started : Bool}
    {rest : List Activation} {m : Mode} (hruns : runsAt s pc started rest)
    (hop : s.memRead1 pc = (Instr.dei m).opcode) (hdepth : 1 ≤ s.depth m.src) :
    stepUnder H (g, s) = .next (H.hear g (.deviceIn (deiPort m s)), { s.popped m 1 with
      script := []
      acts := ⟨pc + 1, true, some (deiCallback m { s with acts := ⟨pc + 1, true, none⟩ :: rest })⟩ :: rest
      log := .deviceIn (deiPort m s) :: s.log }) := by
  let fetched : State := { s with script := [.pause], acts := ⟨pc + 1, true, none⟩ :: rest }
  have hexec : step { s with script := [.pause] } = exec (.dei m) fetched := by
    rw [step_running (s := { s with script := [.pause] }) hruns, fetch_dei (s := { s with script := [.pause] }) hop]
  have hstep : step { s with script := [.pause] } = .next { s.popped m 1 with
      script := []
      acts := ⟨pc + 1, true, some (deiCallback m fetched)⟩ :: rest
      log := .deviceIn (deiPort m s) :: s.log } := by
    rw [hexec, exec_dei (s := fetched) hdepth, popped_setScript_setActs, deviceIn, callHost_pause rfl rfl,
      State.tell_log, State.popped_log]
    rfl
  rw [stepUnder_core (hostIsActive_running hruns.1) hstep, newEvents_one rfl]; rfl

/-- A host that returns a byte to a waiting byte-mode DEI: the byte is pushed. -/
theorem stepUnder_ret_deiByte {σ : Type} {H : HostParam σ} {g g' : σ} {s : State} {pc : Short} {started : Bool}
    {rest : List Activation} {d : Decoder} {v : Byte} (hacts : s.acts = ⟨pc, started, some ⟨d, .deiByte⟩⟩ :: rest)
    (hact : H.act g = (g', .ret v)) (hroom : s.depth d.mode.src ≠ 255) :
    stepUnder H (g, s) = .next (g', { s with
      script := [], acts := ⟨pc, started, none⟩ :: rest }.withByte d.mode.src v.toNat) := by
  have hdepth : s.depth d.mode.src + 1 ≤ 255 := by have := s.depth_lt d.mode.src; omega
  have hstep : step { s with script := [.ret v, .pause] } = .next ({ s with
      script := [.pause], acts := ⟨pc, started, none⟩ :: rest }.withByte d.mode.src v.toNat) := by
    rw [step_waiting (s := { s with script := [.ret v, .pause] }) hacts,
      hostTurn_accesses_ret (s := { s with script := [.ret v, .pause] }) (accesses := []) rfl rfl hacts]
    exact congrArg _ (afterDeiByte_some hdepth)
  rw [stepUnder_act (hostIsActive_waiting hacts) hact hstep, newEvents_same (by simp)]
  cases d.mode.src <;> rfl

/-- Settles O38: DEI's own lemmas for the step that fetches it and for the return; while it waits, the lemmas about one
action of the active host. -/
theorem hostWritesInDeviceInAreSeen : Obligations.HostWritesInDeviceInAreSeen := by
  unfold Obligations.HostWritesInDeviceInAreSeen
  refine ⟨fun s m pc1 started rest sp b v l hacts hdepth hbyte hs hroom =>
    exec_dei_write_ret hacts rfl hdepth hbyte hs hroom, fun σ H g g' s pc started rest =>
    ⟨fun m => stepUnder_dei, fun d v => stepUnder_ret_deiByte, fun c hacts => ?_⟩⟩
  have hactive := hostIsActive_waiting hacts
  refine ⟨fun sp w => stepUnder_write hactive, fun sp => stepUnder_read hactive, fun entry hact => ?_,
    stepUnder_pause hactive⟩
  rw [stepUnder_eval hactive hact, hacts]

end Sys2Proof.Proofs
end

section
/-! Reads of Ram after one- and two-byte writes (20_memory.md). -/

open Sys2Proof Sys2Proof.Machine Sys2Proof.Claims

namespace Sys2Proof.Proofs

theorem ramKey_ne {a c : Short} (h : c ≠ a) : ramKey c ≠ ramKey a := by
  rw [ramKey_eq, ramKey_eq]; exact fun hk => h (BitVec.eq_of_toNat_eq hk)

/-- The second byte of a short has an address of its own, at 0xFFFF too (R52). -/
theorem ne_nextAddress (a : Short) : a ≠ a + 1 := by bv_omega

/-- In a legal state the backing buffer is in canonical form. -/
theorem mem_wf_of_wf {s : State} (h : s.wf = true) : s.mem.wf Config.bufferSize = true := by
  simp only [State.wf, Bool.and_eq_true] at h
  obtain ⟨⟨⟨⟨hmem, -⟩, -⟩, -⟩, -⟩ := h
  exact hmem

/-! ### One byte -/

theorem memRead1_memWrite1_same {s : State} (h : s.mem.wf Config.bufferSize = true) (a : Short) (b : Byte) :
    (s.memWrite1 a b).memRead1 a = b := Memory.read_write_self h (ramKey a) b

theorem memRead1_memWrite1_other (s : State) {a c : Short} (b : Byte) (h : c ≠ a) :
    (s.memWrite1 a b).memRead1 c = s.memRead1 c := Memory.read_write_other s.mem b (ramKey_ne h)

theorem mem_wf_memWrite1 {s : State} (h : s.mem.wf Config.bufferSize = true) (a : Short) (b : Byte) :
    (s.memWrite1 a b).mem.wf Config.bufferSize = true := Memory.wf_write h (ramKey_lt a) b

/-! ### Two bytes -/

theorem memRead1_memWrite2_high {s : State} (h : s.mem.wf Config.bufferSize = true) (a v : Short) :
    (s.memWrite2 a v).memRead1 a = hiByte v := by
  rw [State.memWrite2, memRead1_memWrite1_other _ _ (ne_nextAddress a), memRead1_memWrite1_same h]

theorem memRead1_memWrite2_low {s : State} (h : s.mem.wf Config.bufferSize = true) (a v : Short) :
    (s.memWrite2 a v).memRead1 (a + 1) = loByte v := by
  rw [State.memWrite2, memRead1_memWrite1_same (mem_wf_memWrite1 h a (hiByte v))]

theorem memRead1_memWrite2_other (s : State) {a c : Short} (v : Short) (h : c ≠ a) (h' : c ≠ a + 1) :
    (s.memWrite2 a v).memRead1 c = s.memRead1 c := by
  rw [State.memWrite2, memRead1_memWrite1_other _ _ h', memRead1_memWrite1_other _ _ h]

theorem memRead2_memWrite2 {s : State} (h : s.mem.wf Config.bufferSize = true) (a v : Short) :
    (s.memWrite2 a v).memRead2 a = v := by
  rw [State.memRead2, memRead1_memWrite2_high h, memRead1_memWrite2_low h, joinBytes_hi_lo]

/-- Settles O18: each clause is a rule of the one-byte or the two-byte accesses, with the bytes of a short as numbers. -/
theorem memoryReadsAndWrites : Obligations.MemoryReadsAndWrites := by
  unfold Obligations.MemoryReadsAndWrites
  intro s a v b hwf
  have hmem := mem_wf_of_wf hwf
  refine ⟨memRead1_memWrite1_same hmem a b, ?_, memRead2_memWrite2 hmem a v, ?_, ?_,
    fun c => memRead1_memWrite1_other s b, fun c => memRead1_memWrite2_other s v⟩
  · rw [State.memRead2, joinBytes_toNat]
  · rw [memRead1_memWrite2_high hmem, hiByte_toNat]
  · rw [memRead1_memWrite2_low hmem, loByte_toNat]

end Sys2Proof.Proofs
end

section
/-! The assembler's spelling of opcode bytes and its patches, as numbers (30_encoding.md R91 to R95). -/

open Sys2Proof Sys2Proof.Machine Sys2Proof.Claims

namespace Sys2Proof.Proofs

/-! ### Mode bits of an opcode byte -/

/-- A bit of the opcode byte where it is asked for. -/
def modeBit (a : Bool) (bit : Byte) : Byte := if a then bit else 0

theorem baseOpcode_eq (op : Byte) (m : Mode) :
    baseOpcode op m = op ||| modeBit m.short 0x20 ||| modeBit m.ret 0x40 ||| modeBit m.keep 0x80 := rfl

theorem modeBit_or (a b : Bool) (bit : Byte) : modeBit (a || b) bit = modeBit a bit ||| modeBit b bit := by
  cases a <;> cases b <;> simp [modeBit]

theorem getLsbD_modeBit (a : Bool) (bit : Byte) (i : Nat) : (modeBit a bit).getLsbD i = (a && bit.getLsbD i) := by
  cases a <;> simp [modeBit]

/-- Every mode bit lies above the base opcode (R80). -/
theorem modeBit_toNat_mod (a : Bool) {bit : Byte} (h : bit.toNat % 32 = 0) : (modeBit a bit).toNat % 32 = 0 := by
  cases a
  · rfl
  · exact h

/-- The mode with the bits of both. -/
def addModes (m m' : Mode) : Mode := ⟨m.short || m'.short, m.ret || m'.ret, m.keep || m'.keep⟩

theorem baseOpcode_baseOpcode (op : Byte) (m m' : Mode) :
    baseOpcode (baseOpcode op m) m' = baseOpcode op (addModes m m') := by
  simp only [baseOpcode_eq, addModes, modeBit_or]; ac_rfl

theorem baseOpcode_toNat_mod (op : Byte) (m : Mode) : (baseOpcode op m).toNat % 32 = op.toNat % 32 := by
  have or_mod (x y : Byte) : (x ||| y).toNat % 32 = x.toNat % 32 ||| y.toNat % 32 := Nat.or_mod_two_pow (n := 5)
  simp (disch := decide) only [baseOpcode_eq, or_mod, modeBit_toNat_mod, Nat.or_zero]

theorem modeField_baseOpcode (op : Byte) (m : Mode) :
    modeField (baseOpcode op m) = addModes (modeField op) m := by
  simp [modeField, baseOpcode_eq, addModes, getLsbD_modeBit, -BitVec.getLsbD_eq_getElem]

/-! ### Suffixes -/

/-- The mode that a list of suffixes asks for (R91). -/
def suffixMode (suffixes : List Char) : Mode :=
  ⟨decide ('2' ∈ suffixes), decide ('r' ∈ suffixes), decide ('k' ∈ suffixes)⟩

theorem suffixMode_cons (c : Char) (rest : List Char) :
    suffixMode (c :: rest) = addModes (suffixMode [c]) (suffixMode rest) := by
  simp [suffixMode, addModes]

/-- One suffix adds the bit of its mode to the byte. -/
theorem foldSuffixes_cons {b : Byte} {c : Char} {rest : List Char} (h : c = '2' ∨ c = 'r' ∨ c = 'k') :
    foldSuffixes b (c :: rest) = foldSuffixes (baseOpcode b (suffixMode [c])) rest := by
  rcases h with rfl | rfl | rfl <;> simp [foldSuffixes, suffixBit, suffixMode, baseOpcode]

/-- Suffixes in any order, repeated or not, give the byte the bits of their mode. -/
theorem foldSuffixes_eq (b : Byte) {suffixes : List Char} (h : ∀ c ∈ suffixes, c = '2' ∨ c = 'r' ∨ c = 'k') :
    foldSuffixes b suffixes = some (baseOpcode b (suffixMode suffixes)) := by
  induction suffixes generalizing b with
  | nil => simp [foldSuffixes, suffixMode, baseOpcode]
  | cons c rest ih =>
    obtain ⟨hc, hrest⟩ := List.forall_mem_cons.mp h
    rw [foldSuffixes_cons hc, ih _ hrest, baseOpcode_baseOpcode, ← suffixMode_cons]

/-! ### The mnemonic table -/

/-- The `n`-th entry is found by its name of three characters; its byte is base opcode `n` with no mode bit, but LIT's
keep bit (R92). -/
theorem mnemonicTable_entry {n : Nat} {name : List Char} {base : Byte}
    (h : mnemonicTable[n]? = some (name, base)) :
    name.length = 3 ∧ mnemonicTable.lookup name = some base ∧ base.toNat % 32 = n ∧
      modeField base = ⟨false, false, decide (n = 0)⟩ := by
  have table : ∀ entry ∈ mnemonicTable.zipIdx, entry.1.1.length = 3 ∧
      mnemonicTable.lookup entry.1.1 = some entry.1.2 ∧ entry.1.2.toNat % 32 = entry.2 ∧
      modeField entry.1.2 = ⟨false, false, decide (entry.2 = 0)⟩ := by decide
  exact table ((name, base), n) (List.mk_mem_zipIdx_iff_getElem?.mpr h)

theorem findOpcode_append {name suffixes : List Char} {base : Byte} (hlen : name.length = 3)
    (h : mnemonicTable.lookup name = some base) :
    findOpcode (name ++ suffixes) = foldSuffixes base suffixes := by
  simp only [findOpcode, List.take_left' hlen, List.drop_left' hlen, h]

/-- Settles O6: the table's entry gives the base byte, the suffixes add the bits of their mode to it. -/
theorem spellingRoundTrip : Obligations.SpellingRoundTrip := by
  unfold Obligations.SpellingRoundTrip
  intro n name base suffixes hentry hsuffixes
  obtain ⟨hlen, hlookup, hop, hmode⟩ := mnemonicTable_entry hentry
  refine ⟨_, (findOpcode_append hlen hlookup).trans (foldSuffixes_eq base hsuffixes), ?_, ?_⟩
  · rw [baseOpcode_toNat_mod, hop]
  · simp [modeField_baseOpcode, hmode, addModes, suffixMode, Bool.or_comm]

/-! ### Patches -/

/-- `sext8` of R9 is the signed value of a byte. -/
theorem sextInt_toNat (b : Byte) : sextInt b.toNat = b.toInt := by
  rw [BitVec.toInt_eq_toNat_cond, sextInt]
  split <;> split <;> omega

theorem sextInt_ofInt {off : Int} (h : -128 ≤ off ∧ off ≤ 127) : sextInt (BitVec.ofInt 8 off).toNat = off := by
  rw [sextInt_toNat]
  exact BitVec.toInt_ofInt_eq_self (by decide) h.1 (by omega)

theorem shortBytes_eq (v : Short) :
    shortBytes v = [BitVec.ofNat 8 (v.toNat / 256), BitVec.ofNat 8 (v.toNat % 256)] := by
  simp only [shortBytes, ← hiByte_toNat, ← loByte_toNat, BitVec.ofNat_toNat, BitVec.setWidth_eq]

theorem patchRelative8_eq_none_iff (site target : Nat) :
    patchRelative8 site target = none ↔ target + 128 < site + 2 ∨ site + 2 + 127 < target := by
  simp only [patchRelative8, ite_eq_right_iff, reduceCtorEq, imp_false]; omega

theorem relativeTo_patchRelative8 {site target : Nat} {b : Byte} (htarget : target < 65536)
    (h : patchRelative8 site target = some b) : relativeTo (site + 2) b.toNat = target := by
  obtain ⟨hrange, hb⟩ := Option.ite_none_right_eq_some.mp h
  cases hb
  rw [relativeTo, sextInt_ofInt hrange]; omega

/-- Settles O7: `pc1` plus the offset that a relative patch writes is the target; the other patches are its bytes. -/
theorem patchesReachTheirTarget : Obligations.PatchesReachTheirTarget := by
  unfold Obligations.PatchesReachTheirTarget
  refine ⟨fun site target _ htarget => ⟨patchRelative8_eq_none_iff site target,
    fun _ => relativeTo_patchRelative8 htarget⟩, loByte_toNat, shortBytes_eq, fun site target => ⟨_, _, rfl, ?_⟩⟩
  rw [← joinBytes_toNat, joinBytes_hi_lo]; bv_omega

end Sys2Proof.Proofs
end

section
/-! The loop top (40_primitives_decoder_loop.md R140 to R143) and the byte primitives of the stacks (R120, R123). -/

open Sys2Proof Sys2Proof.Machine Sys2Proof.Claims

namespace Sys2Proof.Proofs

/-! ### The fetched instruction -/

/-- Only the immediate family has bytes after the opcode byte, and of it not BRK (R81, R85). -/
theorem highField_of_immediateCount_zero {b : Byte} (hcount : immediateCount b = 0) (hgroup : opGroup b = 0)
    (hindex : opIndex b = 0) : highField b = 0 := by
  revert b; decide

/-- Where no byte follows the opcode byte, none has a part in decoding it (R81). -/
theorem decodeBytes_of_immediateCount_zero {b : Byte} (h : immediateCount b = 0) (b1 b2 : Byte) :
    decodeBytes b b1 b2 = decodeBytes b 0 0 := by
  unfold decodeBytes
  split
  case h_1 hgroup hindex => rw [highField_of_immediateCount_zero h hgroup hindex]; rfl
  all_goals rfl

/-- The longest instruction has three bytes, so three bytes always hold one: the one the machine fetches (R81, R88). -/
theorem decode_three_bytes (b b1 b2 : Byte) : ∃ tail, decode [b, b1, b2] = .ok (decodeBytes b b1 b2, tail) := by
  by_cases hone : b = 0x80 ∨ b = 0xC0
  · refine ⟨[b2], ?_⟩
    rcases hone with rfl | rfl <;> rfl
  · by_cases htwo : b = 0xA0 ∨ b = 0xE0 ∨ b = 0x20 ∨ b = 0x40 ∨ b = 0x60
    · refine ⟨[], ?_⟩
      rcases htwo with rfl | rfl | rfl | rfl | rfl <;> rfl
    · have hzero : immediateCount b = 0 := by rw [immediateCount, if_neg hone, if_neg htwo]
      exact ⟨[b1, b2], by simp only [decode, hzero, decodeBytes_of_immediateCount_zero hzero b1 b2]⟩

/-- Settles O10: three bytes hold the instruction that `State.fetch` reads, and `step_running` runs it. -/
theorem stepRunsTheDecodedInstruction : Obligations.StepRunsTheDecodedInstruction := by
  unfold Obligations.StepRunsTheDecodedInstruction
  intro s pc started rest hacts hpc henabled
  obtain ⟨tail, hdecode⟩ := decode_three_bytes (s.memRead1 pc) (s.memRead1 (pc + 1)) (s.memRead1 (pc + 2))
  exact ⟨_, tail, hdecode, step_running ⟨hacts, hpc, henabled⟩⟩

/-! ### The end of an activation at the loop top -/

theorem step_loopEnd {s : State} {pc : Short} {started : Bool} {rest : List Activation} {r : EvalResult}
    (hacts : s.acts = ⟨pc, started, none⟩ :: rest) (h : loopEnd ⟨pc, started, none⟩ s = some r) :
    step s = .next { s with acts := rest, log := .evalReturn r :: s.log } := by
  simp only [step, hacts, h, State.endActivation, List.tail_cons]

/-- An activation that has not started and may not start has the result `NotStarted` (R37). -/
theorem loopEnd_notStarted {s : State} {entry : Short} (h : entry = 0 ∨ s.dev.read 0x0F = 0) :
    loopEnd ⟨entry, false, none⟩ s = some .notStarted := by
  rcases h with rfl | hzero
  · simp [loopEnd]
  · have hdisabled : s.enabled = false := by simpa [State.enabled, Config.devEnable] using hzero
    simp [loopEnd, hdisabled]

/-- Settles O11: the loop top's result is `NotStarted` under either cause, and the step hands it back. -/
theorem evalIsANoOpWhereItMayNotStart : Obligations.EvalIsANoOpWhereItMayNotStart := by
  unfold Obligations.EvalIsANoOpWhereItMayNotStart
  intro s entry rest hacts h
  exact step_loopEnd hacts (loopEnd_notStarted h)

/-! ### Byte pops at any cursor -/

theorem pop8_of_cursor_zero {k : StackId} {l : Local} (h : l.cursor k = 0) : pop8 k l = .raised .underflow l := by
  simp only [pop8, if_pos h]

theorem pop8_of_cursor_ne_zero {k : StackId} {l : Local} (h : l.cursor k ≠ 0) :
    pop8 k l = .ok (BitVec.ofNat 8 (l.st.datum k ((l.cursor k).toNat - 1))) (l.setCursor k (l.cursor k - 1)) := by
  have hbelow : (l.cursor k - 1).toNat = (l.cursor k).toNat - 1 := by bv_omega
  simp only [pop8, if_neg h, Stack.byte, State.datum, hbelow, BitVec.ofNat_toNat, BitVec.setWidth_eq]

theorem cursor_of_none {l : Local} (h : l.kc = none) (k : StackId) :
    l.cursor k = BitVec.ofNat 8 (l.st.depth k) := by
  simp only [Local.cursor, h, State.ptr_eq]

theorem cursor_of_some {l : Local} {c : Byte} (h : l.kc = some c) (k : StackId) : l.cursor k = c := by
  simp only [Local.cursor, h]

/-- Settles O19: the push by `push8_ok` and `push8_overflow`, the pop by its two cases with the cursor of either mode. -/
theorem bytePushAndPop : Obligations.BytePushAndPop := by
  unfold Obligations.BytePushAndPop
  intro l k v
  have hlt := l.st.depth_lt k
  refine ⟨fun h => push8_overflow (by omega), fun h => push8_ok (by omega), fun hkc => ?_, fun c hkc => ?_⟩
  · have hcursor := cursor_of_none hkc k
    refine ⟨fun h => pop8_of_cursor_zero (by rw [hcursor, h]; rfl), fun h => ?_⟩
    have hne : l.cursor k ≠ 0 := by rw [hcursor]; bv_omega
    rw [pop8_of_cursor_ne_zero hne, hcursor, ofNat8_sub_one (by omega), BitVec.toNat_ofNat, Nat.mod_eq_of_lt hlt]
    simp only [Local.setCursor, hkc]
  · have hcursor := cursor_of_some hkc k
    refine ⟨fun h => pop8_of_cursor_zero (hcursor.trans h), fun h => ?_⟩
    rw [pop8_of_cursor_ne_zero (hcursor.trans_ne h), hcursor]
    simp only [Local.setCursor, hkc]

end Sys2Proof.Proofs
end

section
/-! What a faulting instruction leaves (60_exceptions.md R274): every instruction begins with its pops, so an Underflow
keeps the pops before it; what follows is one push, several pushes, or the calls of a DEI, and an Overflow keeps the
pushes before it. -/

open Sys2Proof Sys2Proof.Machine Sys2Proof.Claims

namespace Sys2Proof.Proofs

/-! ### A fault taken while the host has nothing to do -/

/-- A fault discards the innermost activation, whatever has become of it. -/
theorem faultTaken_mapInner (d : Decoder) (f : VmFault) (s : State) (g : Activation → Activation) :
    faultTaken d f (s.mapInner g) = faultTaken d f s := by
  obtain ⟨mem, wst, rst, dev, acts, script, freeCount, log, faultSeen⟩ := s
  cases acts <;> rfl

/-- What becomes of the innermost activation does not touch the stacks. -/
@[simp] theorem depth_mapInner (s : State) (g : Activation → Activation) (k : StackId) :
    (s.mapInner g).depth k = s.depth k := by rw [State.depth, State.mapInner_stack, State.depth]

@[simp] theorem setPc_pc (s : State) : s.setPc s.pc = s := by
  obtain ⟨mem, wst, rst, dev, acts, script, freeCount, log, faultSeen⟩ := s
  cases acts <;> rfl

/-! ### Where pseudocode raises a fault -/

/-- From `l`, the pseudocode `x` raises `f` in the state `t`, or in `t` with another program counter, which the fault
discards. -/
def RaisesIn {α : Type} (f : VmFault) (t : State) (l : Local) (x : Micro α) : Prop :=
  ∃ pc kc, x l = .raised f ⟨t.setPc pc, kc⟩

section
variable {α β : Type} {f : VmFault} {t : State} {l l' : Local}

theorem RaisesIn.of_raised {x : Micro α} (h : x l = .raised f l') : RaisesIn f l'.st l x :=
  ⟨l'.st.pc, l'.kc, by rw [h, setPc_pc]⟩

theorem RaisesIn.of_run {x y : Micro α} (hrun : x l = y l') (h : RaisesIn f t l' y) : RaisesIn f t l x := by
  obtain ⟨pc, kc, hy⟩ := h
  exact ⟨pc, kc, hrun.trans hy⟩

theorem RaisesIn.first {x : Micro α} (h : RaisesIn f t l x) (rest : α → Micro β) :
    RaisesIn f t l (andThen x rest) := by
  obtain ⟨pc, kc, hx⟩ := h
  exact ⟨pc, kc, andThen_raised hx⟩

theorem RaisesIn.after {x : Micro α} {a : α} {rest : α → Micro β} (hx : x l = .ok a l')
    (h : RaisesIn f t l' (rest a)) : RaisesIn f t l (andThen x rest) := .of_run (andThen_ok hx) h

/-- Under a host that has nothing to do, the fault is taken in the state in which it was raised. -/
theorem deliverThen_faultTaken {d : Decoder} {x : Micro α} {k : α → Local → State} {s : State}
    (hscript : t.script = []) (h : RaisesIn f t ⟨s, d.kc⟩ x) : deliverThen d x k s = faultTaken d f t := by
  obtain ⟨pc, kc, hx⟩ := h
  have hset : (t.setPc pc).script = [] := by rw [State.setPc, State.mapInner_script, hscript]
  rw [deliverThen, hx]
  exact (raiseFault_silent hset).trans (faultTaken_mapInner d f t _)

/-- The same for an instruction that starts in `s`. -/
theorem deliverThen_afterFault {ins : Byte} {m : Mode} {x : Micro α} {k : α → Local → State} {s : State}
    (hscript : t.script = []) (hpc : t.pc = s.pc) (h : RaisesIn f t (popLocal m s 0) x) :
    deliverThen (startDecoder ins m s) x k s = t.afterFault ins f := by
  rw [← start_popLocal ins] at h
  rw [deliverThen_faultTaken hscript h, State.afterFault, hpc]; rfl

end

/-! ### Pseudocode that begins with pops -/

/-- `x` pops `n` bytes from the source stack, and its result is `v s p` after pops of `p` bytes from `s`. -/
structure IsPop {α : Type} (m : Mode) (n : Nat) (x : Micro α) (v : State → Nat → α) : Prop where
  ok : ∀ s p, n + p ≤ s.depth m.src → x (popLocal m s p) = .ok (v s p) (popLocal m s (n + p))
  underflow : ∀ s p, s.depth m.src < n + p → x (popLocal m s p) = .raised .underflow (popLocal m s p)

theorem isPop_pop8 (m : Mode) : IsPop m 1 (pop8 m.src) fun s p => BitVec.ofNat 8 (s.byteBelow m.src p) where
  ok s p h := by rw [Nat.add_comm 1 p] at h ⊢; exact pop8_popLocal h
  underflow s p h := pop8_popLocal_underflow (by omega)

theorem isPop_pop16 (m : Mode) : IsPop m 2 (pop16 m.src) fun s p => BitVec.ofNat 16 (s.shortBelow m.src p) where
  ok s p h := by rw [Nat.add_comm 2 p] at h ⊢; exact pop16_popLocal h
  underflow s p h := pop16_popLocal_underflow (by omega)

theorem isPop_popValue (m : Mode) : IsPop m m.bytes (popValue m) fun s p => BitVec.ofNat 16 (s.item m p) where
  ok s p h := by rw [Nat.add_comm m.bytes p] at h ⊢; exact popValue_popLocal h
  underflow s p h := popValue_popLocal_underflow (by omega)

/-- After pops of `p` bytes from `s`, the pseudocode `x` makes pops of the sizes `ns` and goes on as `r`. -/
inductive PopsThen {α : Type} (m : Mode) (s : State) : Nat → List Nat → Micro α → Micro α → Prop where
  | rest {p : Nat} {r : Micro α} : PopsThen m s p [] r r
  | pop {β : Type} {p n : Nat} {ns : List Nat} {x : Micro β} {v : State → Nat → β} {f : β → Micro α} {r : Micro α}
      (hx : IsPop m n x v) (hf : PopsThen m s (n + p) ns (f (v s p)) r) :
      PopsThen m s p (n :: ns) (andThen x f) r

theorem andThen_done {α : Type} (x : Micro α) : andThen x done = x := by
  funext l
  cases h : x l with
  | ok a l' => exact andThen_ok h
  | raised f l' => exact andThen_raised h

/-- Pseudocode that is one pop. -/
theorem PopsThen.single {α : Type} {m : Mode} {s : State} {p n : Nat} {x : Micro α} {v : State → Nat → α}
    (hx : IsPop m n x v) : PopsThen m s p [n] x (done (v s p)) := by
  rw [← andThen_done x]; exact .pop hx .rest

theorem PopsThen.run {α : Type} {m : Mode} {s : State} {p : Nat} {ns : List Nat} {x r : Micro α}
    (h : PopsThen m s p ns x r) (hdepth : ns.sum + p ≤ s.depth m.src) :
    x (popLocal m s p) = r (popLocal m s (ns.sum + p)) := by
  induction h with
  | rest => rw [List.sum_nil, Nat.zero_add]
  | @pop _ p n ns _ _ _ _ hx _ ih =>
    have hsum : (n :: ns).sum + p = ns.sum + (n + p) := by rw [List.sum_cons]; omega
    rw [hsum] at hdepth ⊢
    rw [andThen_ok (hx.ok s p (by omega)), ih hdepth]

/-- The first `j` pops succeed and the next one does not. -/
theorem PopsThen.underflow {α : Type} {m : Mode} {s : State} {p j : Nat} {ns : List Nat} {x r : Micro α}
    (h : PopsThen m s p ns x r) (hj : j < ns.length) (hdone : (ns.take j).sum + p ≤ s.depth m.src)
    (hnext : s.depth m.src < (ns.take (j + 1)).sum + p) :
    x (popLocal m s p) = .raised .underflow (popLocal m s ((ns.take j).sum + p)) := by
  induction h generalizing j with
  | rest => cases hj
  | @pop _ p n ns _ _ _ _ hx _ ih =>
    cases j with
    | zero =>
      rw [List.take_zero, List.sum_nil, Nat.zero_add]
      exact andThen_raised (hx.underflow s p (by simpa using hnext))
    | succ j =>
      have hsum (j : Nat) : ((n :: ns).take (j + 1)).sum + p = (ns.take j).sum + (n + p) := by
        rw [List.take_succ_cons, List.sum_cons]; omega
      rw [hsum] at hdone hnext ⊢
      rw [andThen_ok (hx.ok s p (by omega))]
      exact ih (Nat.lt_of_succ_lt_succ hj) hdone hnext

/-! ### Pseudocode whose first push has no room -/

section
variable {l : Local} {k : StackId}

theorem push8_raises {v : Byte} (h : ¬ l.st.depth k + 1 ≤ 255) : RaisesIn .overflow l.st l (push8 k v) :=
  .of_raised (push8_overflow h)

theorem push16_raises {v : Short} (h : ¬ l.st.depth k + 2 ≤ 255) : RaisesIn .overflow l.st l (push16 k v) :=
  .of_raised (push16_overflow h)

theorem pushValue_raises {m : Mode} {v : Short} (h : ¬ l.st.depth k + m.bytes ≤ 255) :
    RaisesIn .overflow l.st l (pushValue m k v) := .of_raised (pushValue_overflow h)

/-- The literal is skipped before the push (R164, R166). -/
theorem literalByte_raises {v : Byte} (h : ¬ l.st.depth k + 1 ≤ 255) :
    RaisesIn .overflow l.st l (literalByte k v) :=
  ⟨l.st.pc + 1, l.kc, push8_overflow (by rwa [State.setPc, depth_mapInner])⟩

/-- The literal is skipped before the push (R165, R167). -/
theorem literalShort_raises {v : Short} (h : ¬ l.st.depth k + 2 ≤ 255) :
    RaisesIn .overflow l.st l (literalShort k v) :=
  ⟨l.st.pc + 2, l.kc, push16_overflow (by rwa [State.setPc, depth_mapInner])⟩

end

/-! ### The closed form's Overflow (R137) -/

theorem closedFault_eq_overflow_iff {i : Instr} {s : State} :
    closedFault i s = some .overflow ↔ popBytes i ≤ s.depth (modeOf i).src ∧ zeroDivisor i s = false ∧
      ¬ (s.room (modeOf i) (popBytes i) (pushSrc i) ∧ s.depth (modeOf i).dst + pushDst i ≤ 255) := by
  unfold closedFault
  split_ifs <;> simp_all

section
variable {i : Instr} {s : State}

theorem no_room_src (h : closedFault i s = some .overflow) (hdst : pushDst i = 0) :
    ¬ (popLocal (modeOf i) s (popBytes i)).st.depth (modeOf i).src + pushSrc i ≤ 255 := by
  obtain ⟨-, -, hroom⟩ := closedFault_eq_overflow_iff.mp h
  have := s.depth_lt (modeOf i).dst
  rw [popLocal_st, State.depth_popped]
  exact fun hsrc => hroom ⟨hsrc, by omega⟩

theorem no_room_dst (h : closedFault i s = some .overflow) (hsrc : pushSrc i = 0) :
    ¬ (popLocal (modeOf i) s (popBytes i)).st.depth (modeOf i).dst + pushDst i ≤ 255 := by
  obtain ⟨-, -, hroom⟩ := closedFault_eq_overflow_iff.mp h
  have hpopped := (s.popped (modeOf i) (popBytes i)).depth_lt (modeOf i).src
  rw [State.depth_popped] at hpopped
  rw [popLocal_st, State.depth_dst_popped]
  exact fun hdst => hroom ⟨by rw [State.room, hsrc]; omega, hdst⟩

theorem closedFault_ne_overflow (hsrc : pushSrc i = 0) (hdst : pushDst i = 0) :
    closedFault i s ≠ some .overflow := by
  intro h
  have := (popLocal (modeOf i) s (popBytes i)).st.depth_lt (modeOf i).src
  have := no_room_src h hdst
  omega

end

/-! ### Every instruction is its pops and a rest -/

/-- The instructions whose rest, after their pops, is at most one push and no call of the host before it. -/
def PushesOnce (i : Instr) : Prop := ∀ m, i ≠ .swp m ∧ i ≠ .rot m ∧ i ≠ .dup m ∧ i ≠ .ovr m ∧ i ≠ .dei m

/-- An instruction other than BRK makes the pops of `popSizes`; what follows them overflows at once where the closed form
says Overflow and the instruction has no more than one push. -/
theorem exec_eq_pops_then {i : Instr} (s : State) (hi : i ≠ .brk) :
    ∃ (α : Type) (x r : Micro α) (k : α → Local → State),
      exec i s = .next (deliverThen (startDecoder i.opcode (modeOf i) s) x k s) ∧
      PopsThen (modeOf i) s 0 (popSizes i) x r ∧
      (PushesOnce i → closedFault i s = some .overflow →
        RaisesIn .overflow (s.popped (modeOf i) (popBytes i)) (popLocal (modeOf i) s (popBytes i)) r) := by
  cases i with
  | brk => exact absurd rfl hi
  | jci off =>
    exact ⟨_, _, _, _, rfl, .pop (isPop_pop8 .plain) .rest, fun _ h => absurd h (closedFault_ne_overflow rfl rfl)⟩
  | jmi off => exact ⟨_, _, _, _, rfl, .rest, fun _ h => absurd h (closedFault_ne_overflow rfl rfl)⟩
  | jsi off =>
    exact ⟨_, _, _, _, rfl, .rest, fun _ h =>
      .after (getPc_run _) ((push16_raises (no_room_dst h rfl)).first _)⟩
  | lit v | litr v => exact ⟨_, _, _, _, rfl, .rest, fun _ h => literalByte_raises (no_room_src h rfl)⟩
  | lit2 v | lit2r v => exact ⟨_, _, _, _, rfl, .rest, fun _ h => literalShort_raises (no_room_src h rfl)⟩
  | inc m =>
    exact ⟨_, _, _, _, rfl, .pop (isPop_popValue m) .rest, fun _ h => pushValue_raises (no_room_src h rfl)⟩
  | sth m =>
    exact ⟨_, _, _, _, rfl, .pop (isPop_popValue m) .rest, fun _ h => pushValue_raises (no_room_dst h rfl)⟩
  | pop m | jmp m =>
    exact ⟨_, _, _, _, rfl, .pop (isPop_popValue m) .rest, fun _ h => absurd h (closedFault_ne_overflow rfl rfl)⟩
  | jsr m =>
    exact ⟨_, _, _, _, rfl, .pop (isPop_popValue m) .rest, fun _ h =>
      .after (getPc_run _) ((push16_raises (no_room_dst h rfl)).first _)⟩
  | jcn m =>
    exact ⟨_, _, _, _, rfl, .pop (isPop_popValue m) (.pop (isPop_pop8 m) .rest),
      fun _ h => absurd h (closedFault_ne_overflow rfl rfl)⟩
  | nip m | add m | sub m | mul m | and m | ora m | eor m =>
    exact ⟨_, _, _, _, rfl, .pop (isPop_popValue m) (.pop (isPop_popValue m) .rest),
      fun _ h => pushValue_raises (no_room_src h rfl)⟩
  | div m =>
    refine ⟨_, _, _, _, rfl, .pop (isPop_popValue m) (.pop (isPop_popValue m) .rest), fun _ h => ?_⟩
    obtain ⟨-, hdivisor, -⟩ := closedFault_eq_overflow_iff.mp h
    have hne : BitVec.ofNat 16 (s.item m 0) ≠ 0 := by
      intro hzero
      have hitem : s.item m 0 = 0 := by rw [← item_toNat, hzero]; rfl
      simp [zeroDivisor, hitem] at hdivisor
    rw [if_neg hne]
    exact pushValue_raises (no_room_src h rfl)
  | equ m | neq m | gth m | lth m =>
    exact ⟨_, _, _, _, rfl, .pop (isPop_popValue m) (.pop (isPop_popValue m) .rest),
      fun _ h => push8_raises (no_room_src h rfl)⟩
  | sft m =>
    exact ⟨_, _, _, _, rfl, .pop (isPop_pop8 m) (.pop (isPop_popValue m) .rest),
      fun _ h => pushValue_raises (no_room_src h rfl)⟩
  | stz m | str m | deo m =>
    exact ⟨_, _, _, _, rfl, .pop (isPop_pop8 m) (.pop (isPop_popValue m) .rest),
      fun _ h => absurd h (closedFault_ne_overflow rfl rfl)⟩
  | sta m =>
    exact ⟨_, _, _, _, rfl, .pop (isPop_pop16 m) (.pop (isPop_popValue m) .rest),
      fun _ h => absurd h (closedFault_ne_overflow rfl rfl)⟩
  | ldz m =>
    exact ⟨_, _, _, _, rfl, .pop (isPop_pop8 m) .rest, fun _ h =>
      .after (peek_ramItem ..) (pushValue_raises (no_room_src h rfl))⟩
  | ldr m =>
    exact ⟨_, _, _, _, rfl, .pop (isPop_pop8 m) .rest, fun _ h =>
      .after (getPc_run _) (.after (peek_ramItem ..) (pushValue_raises (no_room_src h rfl)))⟩
  | lda m =>
    exact ⟨_, _, _, _, rfl, .pop (isPop_pop16 m) .rest, fun _ h =>
      .after (peek_ramItem ..) (pushValue_raises (no_room_src h rfl))⟩
  | dup m =>
    exact ⟨_, _, _, _, rfl, .pop (isPop_popValue m) .rest, fun h => absurd (h m) (by simp)⟩
  | swp m | ovr m =>
    exact ⟨_, _, _, _, rfl, .pop (isPop_popValue m) (.pop (isPop_popValue m) .rest), fun h => absurd (h m) (by simp)⟩
  | rot m =>
    exact ⟨_, _, _, _, rfl, .pop (isPop_popValue m) (.pop (isPop_popValue m) (.pop (isPop_popValue m) .rest)),
      fun h => absurd (h m) (by simp)⟩
  | dei m => exact ⟨_, _, _, _, rfl, .single (isPop_pop8 m), fun h => absurd (h m) (by simp)⟩

/-- Settles O46: an instruction begins with its pops, and the one without an operand raises the fault. -/
theorem faultKeepsEarlierPops : Obligations.FaultKeepsEarlierPops := by
  unfold Obligations.FaultKeepsEarlierPops
  intro i s j hscript hj hdone hnext
  have hi : i ≠ .brk := by rintro rfl; cases hj
  obtain ⟨α, x, r, k, hexec, hpops, -⟩ := exec_eq_pops_then s hi
  rw [hexec]
  exact congrArg _ (deliverThen_afterFault (by simpa) (by simp) (.of_raised (hpops.underflow hj hdone hnext)))

/-! ### An Overflow of the only push -/

theorem exec_overflow_of_pushesOnce {i : Instr} {s : State} (hscript : s.script = []) (honce : PushesOnce i)
    (hfault : closedFault i s = some .overflow) :
    exec i s = .next ((s.popped (modeOf i) (popBytes i)).afterFault i.opcode .overflow) := by
  have hi : i ≠ .brk := by rintro rfl; exact closedFault_ne_overflow rfl rfl hfault
  obtain ⟨hdepth, -, -⟩ := closedFault_eq_overflow_iff.mp hfault
  obtain ⟨α, x, r, k, hexec, hpops, hraises⟩ := exec_eq_pops_then s hi
  rw [hexec, deliverThen_afterFault (by simpa) (by simp) (.of_run (hpops.run hdepth) (hraises honce hfault))]

/-! ### An Overflow among several pushes -/

/-- Pushes of items of the operand width, `v` first. -/
def pushItems (m : Mode) (k : StackId) (v : Nat) (vs : List Nat) : Micro Unit :=
  match vs with
  | [] => pushValue m k (BitVec.ofNat 16 v)
  | w :: ws => andThen (pushValue m k (BitVec.ofNat 16 v)) fun _ => pushItems m k w ws

theorem pushItems_raises {m : Mode} {k : StackId} {v j : Nat} {vs : List Nat} {l : Local}
    (hitems : ∀ w ∈ v :: vs, w < 2 ^ m.width) (hj : j < (v :: vs).length) (hroom : l.st.depth k + j * m.bytes ≤ 255)
    (hnext : ¬ l.st.depth k + (j + 1) * m.bytes ≤ 255) :
    RaisesIn .overflow (withItems l.st m k ((v :: vs).take j)) l (pushItems m k v vs) := by
  induction vs generalizing v j l with
  | nil =>
    obtain rfl : j = 0 := by simpa using hj
    exact pushValue_raises (by simpa using hnext)
  | cons w ws ih =>
    cases j with
    | zero => exact (pushValue_raises (by simpa using hnext)).first _
    | succ j =>
      rw [Nat.succ_mul] at hroom
      rw [Nat.succ_mul, Nat.succ_mul] at hnext
      obtain ⟨hv, hws⟩ := List.forall_mem_cons.mp hitems
      have hnat : (BitVec.ofNat 16 v).toNat = v := ofNat16_toNat (lt_short_of_width hv)
      have hdepth := l.st.depth_withItem m k v (by omega)
      refine .after (pushValue_ok (by omega) (by rwa [hnat])) ?_
      rw [hnat]
      exact ih hws (Nat.lt_of_succ_lt_succ hj) (by rw [hdepth]; omega) (by rw [hdepth, Nat.succ_mul]; omega)

@[simp] theorem withItems_script (s : State) (m : Mode) (k : StackId) (vs : List Nat) :
    (withItems s m k vs).script = s.script := by
  induction vs generalizing s with
  | nil => rfl
  | cons v vs ih => exact (ih _).trans (s.withItem_script m k v)

@[simp] theorem withItems_pc (s : State) (m : Mode) (k : StackId) (vs : List Nat) :
    (withItems s m k vs).pc = s.pc := by
  induction vs generalizing s with
  | nil => rfl
  | cons v vs ih => exact (ih _).trans (s.withItem_pc m k v)

/-- Pseudocode that is pops of `p` bytes and then pushes of items: the pops and the pushes that had room have been
made. -/
theorem runMicro_overflow_of_pushItems {i : Instr} {m : Mode} {s : State} {x : Micro Unit} {ns : List Nat}
    {p v j : Nat} {vs : List Nat} (hpops : PopsThen m s 0 ns x (pushItems m m.src v vs)) (hsum : ns.sum = p)
    (hitems : ∀ w ∈ v :: vs, w < 2 ^ m.width) (hscript : s.script = []) (hdepth : p ≤ s.depth m.src)
    (hj : j < (v :: vs).length) (hroom : s.room m p (j * m.bytes)) (hnext : ¬ s.room m p ((j + 1) * m.bytes)) :
    runMicro i m x s =
      .next ((withItems (s.popped m p) m m.src ((v :: vs).take j)).afterFault i.opcode .overflow) := by
  subst hsum
  rw [State.room, ← State.depth_popped] at hroom hnext
  exact congrArg _ (deliverThen_afterFault (by simpa) (by simp)
    (.of_run (hpops.run hdepth) (pushItems_raises hitems hj hroom hnext)))

/-! ### An Overflow of a DEI -/

/-- A host that has nothing to do returns from `DeviceIn` at once, and the activation wakes. -/
theorem deviceIn_silent {d : Decoder} {port : Byte} {aw : Await} {k : Option Byte → State → State} {s : State}
    (hscript : s.script = []) : deviceIn d port aw k s = k none (s.tell (.deviceIn port)).woken := by
  obtain ⟨mem, wst, rst, dev, acts, script, freeCount, log, faultSeen⟩ := s
  cases hscript
  cases acts <;> rfl

section
variable {d : Decoder} {s : State} (hscript : s.script = [])
include hscript

theorem afterDeiByte_overflow (hroom : ¬ s.depth d.mode.src + 1 ≤ 255) :
    afterDeiByte d none s = faultTaken d .overflow { s with freeCount := s.freeCount + 1 } :=
  deliverThen_faultTaken (t := { s with freeCount := s.freeCount + 1 }) hscript (push8_raises hroom)

theorem afterDeiLow_overflow {hi : Byte} (hroom : ¬ s.depth d.mode.src + 2 ≤ 255) :
    afterDeiLow d hi none s = faultTaken d .overflow { s with freeCount := s.freeCount + 1 } :=
  deliverThen_faultTaken (t := { s with freeCount := s.freeCount + 1 }) hscript (push16_raises hroom)

/-- The second call is made, and the push after it has no room. -/
theorem afterDeiHigh_overflow {port : Byte} (hroom : ¬ s.depth d.mode.src + 2 ≤ 255) :
    afterDeiHigh d port none s = faultTaken d .overflow
      { s with freeCount := s.freeCount + 2, log := .deviceIn (port + 1) :: s.log } := by
  let called : State := { s with freeCount := s.freeCount + 1 }
  let asked : State := called.tell (.deviceIn (port + 1))
  have hdepth : asked.woken.depth d.mode.src = s.depth d.mode.src := depth_mapInner asked _ d.mode.src
  calc afterDeiHigh d port none s
    _ = afterDeiLow d (Config.deviceByte s.freeCount) none asked.woken := deviceIn_silent (s := called) hscript
    _ = faultTaken d .overflow { asked.woken with freeCount := asked.woken.freeCount + 1 } :=
      afterDeiLow_overflow (by simpa [State.woken, asked, called]) (by rwa [hdepth])
    _ = _ := by simp [faultTaken, State.woken, asked, called]

end

theorem nextPort_eq (p : Byte) : nextPort p = p + 1 := by
  apply BitVec.eq_of_toNat_eq; simp [nextPort]

theorem exec_dei_overflow {m : Mode} {s : State} (hscript : s.script = [])
    (hfault : closedFault (.dei m) s = some .overflow) : ∃ n,
    exec (.dei m) s = .next ({ s.popped m 1 with
      freeCount := n
      log := (if m.short then [Event.deviceIn (nextPort (deiPort m s))] else []) ++
        Event.deviceIn (deiPort m s) :: s.log }.afterFault (Instr.dei m).opcode .overflow) := by
  obtain ⟨hpops, -, -⟩ := closedFault_eq_overflow_iff.mp hfault
  have hport : 1 ≤ s.depth m.src := hpops
  have hroom : ¬ (s.popped m 1).depth m.src + m.bytes ≤ 255 := no_room_src hfault rfl
  let asked : State := (s.popped m 1).tell (.deviceIn (deiPort m s))
  have hsilent : asked.woken.script = [] := by simpa [State.woken, asked]
  have hdepth : asked.woken.depth m.src = (s.popped m 1).depth m.src := depth_mapInner asked _ m.src
  rw [← hdepth] at hroom
  rw [exec_dei hport, deviceIn_silent (by simpa)]
  by_cases hshort : m.short = true
  · have hawait : (deiCallback m s).await = .deiHigh (deiPort m s) := by simp [deiCallback, hshort]
    rw [Mode.bytes, if_pos hshort] at hroom
    refine ⟨s.freeCount + 2, ?_⟩
    rw [hawait, resume, afterDeiHigh_overflow hsilent hroom]
    simp [faultTaken, State.afterFault, State.pc, State.woken, asked, deiCallback, nextPort_eq, hshort]
  · have hawait : (deiCallback m s).await = .deiByte := by simp [deiCallback, hshort]
    rw [Mode.bytes, if_neg hshort] at hroom
    refine ⟨s.freeCount + 1, ?_⟩
    rw [hawait, resume, afterDeiByte_overflow hsilent hroom]
    simp [faultTaken, State.afterFault, State.pc, State.woken, asked, deiCallback, hshort]

/-- Settles O47: each push has room or raises the fault; before the first one stand only pops, and the calls of a DEI. -/
theorem faultKeepsEarlierPushes : Obligations.FaultKeepsEarlierPushes := by
  unfold Obligations.FaultKeepsEarlierPushes
  refine ⟨fun s m i p vs j hscript h hdepth hj hroom hnext => ?_, fun s m => exec_dei_overflow,
    fun i s hscript hfault honce => exec_overflow_of_pushesOnce hscript honce hfault⟩
  have hsum : [m.bytes, m.bytes].sum = 2 * m.bytes := by simp [Nat.two_mul]
  rcases h with ⟨rfl, rfl, rfl⟩ | ⟨rfl, rfl, rfl⟩ | ⟨rfl, rfl, rfl⟩ | ⟨rfl, rfl, rfl⟩
  · exact runMicro_overflow_of_pushItems (.pop (isPop_popValue m) (.pop (isPop_popValue m) .rest)) hsum
      (by simp [State.item_lt]) hscript hdepth hj hroom hnext
  · have hsum3 : [m.bytes, m.bytes, m.bytes].sum = 3 * m.bytes := by rw [List.sum_cons, hsum]; omega
    rw [Nat.two_mul] at hj ⊢
    exact runMicro_overflow_of_pushItems
      (.pop (isPop_popValue m) (.pop (isPop_popValue m) (.pop (isPop_popValue m) .rest))) hsum3
      (by simp [State.item_lt]) hscript hdepth hj hroom hnext
  · exact runMicro_overflow_of_pushItems (.pop (isPop_popValue m) .rest) List.sum_singleton
      (by simp [State.item_lt]) hscript hdepth hj hroom hnext
  · exact runMicro_overflow_of_pushItems (.pop (isPop_popValue m) (.pop (isPop_popValue m) .rest)) hsum
      (by simp [State.item_lt]) hscript hdepth hj hroom hnext

end Sys2Proof.Proofs
end

section
/-! The immediate family (41_immediate.md): BRK, JMI and the four literals, as whole steps from the fetched byte on. -/

open Sys2Proof Sys2Proof.Machine Sys2Proof.Claims

namespace Sys2Proof.Proofs

/-! ### Addresses after the opcode byte -/

theorem pcPlus_eq (pc : Short) (n : Nat) : pcPlus pc n = pc + BitVec.ofNat 16 n := by
  apply BitVec.eq_of_toNat_eq; simp [pcPlus]

/-- The target of JCI, JMI and JSI, counted from `pc1` (R82). -/
theorem immediateTarget_eq_pcPlus (pc1 off : Short) : immediateTarget pc1 off = pcPlus pc1 (2 + off.toNat) := by
  simp only [immediateTarget, afterImmediate2, pcPlus_eq, BitVec.ofNat_add, BitVec.ofNat_toNat, BitVec.setWidth_eq,
    BitVec.add_assoc]; rfl

theorem pcPlus_next (pc : Short) (n : Nat) : pcPlus (pc + 1) n = pcPlus pc (1 + n) := by
  simp only [pcPlus_eq, BitVec.ofNat_add, BitVec.add_assoc]; rfl

/-- A two-byte immediate is the short at `pc1` (R82). -/
theorem joinBytes_fetched (s : State) (pc : Short) :
    joinBytes (s.memRead1 (pc + 1)) (s.memRead1 (pc + 2)) = s.memRead2 (pc + 1) := by
  rw [State.memRead2, BitVec.add_assoc]; rfl

/-! ### Skipping a literal and pushing it -/

theorem withByte_setPc (s : State) (t : Short) (k : StackId) (v : Nat) :
    (s.setPc t).withByte k v = (s.withByte k v).setPc t := by
  obtain ⟨mem, wst, rst, dev, acts, script, freeCount, log, faultSeen⟩ := s
  cases acts <;> cases k <;> rfl

theorem withShort_setPc (s : State) (t : Short) (k : StackId) (v : Nat) :
    (s.setPc t).withShort k v = (s.withShort k v).setPc t := by
  simp only [State.withShort, withByte_setPc]

theorem withByte_setActs (s : State) (acts : List Activation) (k : StackId) (v : Nat) :
    ({ s with acts := acts } : State).withByte k v = { s.withByte k v with acts := acts } := by cases k <;> rfl

theorem withShort_setActs (s : State) (acts : List Activation) (k : StackId) (v : Nat) :
    ({ s with acts := acts } : State).withShort k v = { s.withShort k v with acts := acts } := by
  simp only [State.withShort, withByte_setActs]

/-- A byte literal with room: it is skipped, then pushed (R164, R166). -/
theorem literalByte_ok {l : Local} {k : StackId} {v : Byte} (h : l.st.depth k + 1 ≤ 255) :
    literalByte k v l = .ok () ⟨(l.st.withByte k v.toNat).setPc (l.st.pc + 1), l.kc⟩ := by
  rw [← withByte_setPc]
  exact push8_ok (by rwa [State.setPc, depth_mapInner])

/-- A short literal with room: it is skipped, then pushed (R165, R167). -/
theorem literalShort_ok {l : Local} {k : StackId} {v : Short} (h : l.st.depth k + 2 ≤ 255) :
    literalShort k v l = .ok () ⟨(l.st.withShort k v.toNat).setPc (l.st.pc + 2), l.kc⟩ := by
  rw [← withShort_setPc]
  exact push16_ok (by rwa [State.setPc, depth_mapInner])

/-! ### BRK and JMI -/

/-- Settles O22: `exec` of BRK is the end of the activation, and byte 0x00 is fetched as BRK. -/
theorem breakEndsTheActivation : Obligations.BreakEndsTheActivation := by
  unfold Obligations.BreakEndsTheActivation
  refine ⟨fun s => rfl, fun s pc started rest hruns hop => ?_⟩
  have hfetch : s.fetch pc = .brk := by rw [State.fetch, hop]; rfl
  rw [step_running hruns, hfetch]; rfl

theorem exec_jmi {s : State} {off pc1 : Short} {started : Bool} {call : Option Callback} {rest : List Activation}
    (hacts : s.acts = ⟨pc1, started, call⟩ :: rest) :
    exec (.jmi off) s = .next { s with acts := ⟨pcPlus pc1 (2 + off.toNat), started, call⟩ :: rest } :=
  calc exec (.jmi off) s
    _ = .next (s.setPc (immediateTarget s.pc off)) := rfl
    _ = _ := by rw [State.setPc_of_acts hacts, State.pc_of_acts hacts, immediateTarget_eq_pcPlus]

/-- Settles O23: `exec_jmi` after the fetch, which reads the offset at `pc1`. -/
theorem immediateJump : Obligations.ImmediateJump := by
  unfold Obligations.ImmediateJump
  refine ⟨fun s off pc1 started call rest => exec_jmi, fun s pc started rest hruns hop => ?_⟩
  have hfetch : s.fetch pc = .jmi (s.memRead2 (pc + 1)) := by rw [State.fetch, hop, ← joinBytes_fetched]; rfl
  rw [step_running hruns, hfetch, exec_jmi rfl, pcPlus_next, ← Nat.add_assoc]

/-! ### The four literals: one instruction of each width for each stack -/

/-- LIT or LITr: the byte literal of stack `k`. -/
def byteLiteral (k : StackId) (v : Byte) : Instr :=
  match k with
  | .wst => .lit v
  | .rst => .litr v

/-- LIT2 or LIT2r: the short literal of stack `k`. -/
def shortLiteral (k : StackId) (v : Short) : Instr :=
  match k with
  | .wst => .lit2 v
  | .rst => .lit2r v

theorem exec_byteLiteral (k : StackId) (v : Byte) (s : State) :
    exec (byteLiteral k v) s = runMicro (byteLiteral k v) (modeOf (byteLiteral k v)) (literalByte k v) s := by
  cases k <;> rfl

theorem exec_shortLiteral (k : StackId) (v : Short) (s : State) :
    exec (shortLiteral k v) s = runMicro (shortLiteral k v) (modeOf (shortLiteral k v)) (literalShort k v) s := by
  cases k <;> rfl

theorem fetch_byteLiteral {s : State} {pc : Short} {k : StackId} {v : Byte}
    (hop : s.memRead1 pc = (byteLiteral k v).opcode) : s.fetch pc = byteLiteral k (s.memRead1 (pc + 1)) := by
  rw [State.fetch, hop]
  cases k <;> dsimp only [byteLiteral, Instr.opcode] <;> rfl

theorem fetch_shortLiteral {s : State} {pc : Short} {k : StackId} {v : Short}
    (hop : s.memRead1 pc = (shortLiteral k v).opcode) : s.fetch pc = shortLiteral k (s.memRead2 (pc + 1)) := by
  rw [State.fetch, hop, ← joinBytes_fetched]
  cases k <;> dsimp only [shortLiteral, Instr.opcode] <;> rfl

section
variable {s : State} {k : StackId} {pc1 : Short} {started : Bool} {call : Option Callback} {rest : List Activation}

theorem exec_byteLiteral_ok {v : Byte} (hacts : s.acts = ⟨pc1, started, call⟩ :: rest)
    (hroom : s.depth k + 1 ≤ 255) : exec (byteLiteral k v) s =
      .next { s.withByte k v.toNat with acts := ⟨pcPlus pc1 1, started, call⟩ :: rest } := by
  have hacts' : (s.withByte k v.toNat).acts = ⟨pc1, started, call⟩ :: rest := by rw [State.withByte_acts, hacts]
  rw [exec_byteLiteral, runMicro_ok (literalByte_ok (by simpa using hroom)), popLocal_st, State.popped_zero,
    State.pc_of_acts hacts, State.setPc_of_acts hacts', pcPlus_eq]
  rfl

theorem exec_shortLiteral_ok {v : Short} (hacts : s.acts = ⟨pc1, started, call⟩ :: rest)
    (hroom : s.depth k + 2 ≤ 255) : exec (shortLiteral k v) s =
      .next { s.withShort k v.toNat with acts := ⟨pcPlus pc1 2, started, call⟩ :: rest } := by
  have hacts' : (s.withShort k v.toNat).acts = ⟨pc1, started, call⟩ :: rest := by rw [State.withShort_acts, hacts]
  rw [exec_shortLiteral, runMicro_ok (literalShort_ok (by simpa using hroom)), popLocal_st, State.popped_zero,
    State.pc_of_acts hacts, State.setPc_of_acts hacts', pcPlus_eq]
  rfl

/-- A byte literal without room (R137): nothing is pushed. -/
theorem exec_byteLiteral_overflow {v : Byte} (hscript : s.script = []) (hfull : ¬ s.depth k + 1 ≤ 255) :
    exec (byteLiteral k v) s = .next (s.afterFault (byteLiteral k v).opcode .overflow) := by
  rw [exec_byteLiteral]
  exact congrArg _ (deliverThen_faultTaken hscript (literalByte_raises hfull))

/-- A short literal without room (R137): nothing is pushed. -/
theorem exec_shortLiteral_overflow {v : Short} (hscript : s.script = []) (hfull : ¬ s.depth k + 2 ≤ 255) :
    exec (shortLiteral k v) s = .next (s.afterFault (shortLiteral k v).opcode .overflow) := by
  rw [exec_shortLiteral]
  exact congrArg _ (deliverThen_faultTaken hscript (literalShort_raises hfull))

end

/-- What an Overflow of the instruction just fetched at `pc` leaves. -/
theorem afterFault_overflow_of_fetched (s : State) (pc : Short) (ins : Byte) (rest : List Activation) :
    ({ s with acts := ⟨pc + 1, true, none⟩ :: rest } : State).afterFault ins .overflow = { s with
      acts := rest
      faultSeen := true
      log := .evalReturn (.fault .overflow) :: .halt ins 2 pc :: s.log } := by
  simp [State.afterFault, State.pc, VmFault.code]

/-- Settles O26: the fetch reads the literal at `pc1`; its meaning pushes it where there is room, or else overflows. -/
theorem literalsComeFromMemory : Obligations.LiteralsComeFromMemory := by
  unfold Obligations.LiteralsComeFromMemory
  intro s pc started rest k hruns
  have hlt := s.depth_lt k
  let fetched : State := { s with acts := ⟨pc + 1, true, none⟩ :: rest }
  have hdepth : fetched.depth k = s.depth k := by cases k <;> rfl
  refine ⟨fun hop => ?_, fun hop => ?_⟩
  · have hop' : s.memRead1 pc = (byteLiteral k (s.memRead1 (pc + 1))).opcode := hop.trans (by cases k <;> rfl)
    rw [step_running hruns, fetch_byteLiteral hop', hop']
    refine ⟨fun hroom => ?_, fun hfull hscript => ?_⟩
    · rw [exec_byteLiteral_ok (s := fetched) rfl (by omega), withByte_setActs, pcPlus_next]
    · rw [exec_byteLiteral_overflow (s := fetched) hscript (by omega), afterFault_overflow_of_fetched]
  · have hop' : s.memRead1 pc = (shortLiteral k (s.memRead2 (pc + 1))).opcode := hop.trans (by cases k <;> rfl)
    rw [step_running hruns, fetch_shortLiteral hop', hop']
    refine ⟨fun hroom => ?_, fun hfull hscript => ?_⟩
    · rw [exec_shortLiteral_ok (s := fetched) rfl (by omega), withShort_setActs, pcPlus_next]
    · rw [exec_shortLiteral_overflow (s := fetched) hscript (by omega), afterFault_overflow_of_fetched]

end Sys2Proof.Proofs
end

section
/-! What each waiting callback returns to (46_device.md R240, R241, R243): a host that returns wakes the activation, and
the rest of its instruction is a push, a second call, nothing, or the end of the activation. -/

open Sys2Proof Sys2Proof.Machine Sys2Proof.Claims

namespace Sys2Proof.Proofs

/-! ### A waiting activation wakes -/

/-- A host whose script ends after some accesses returns at once, without a byte, on the state they left. -/
theorem hostTurn_accesses_silent {k : Option Byte → State → State} {s : State} {a : Activation}
    {rest : List Activation} {accesses : List HostAction} (hacc : accesses.all HostAction.isAccess = true)
    (hs : s.script = accesses) (ha : s.acts = a :: rest) :
    hostTurn k s =
      k none { s.afterAccesses accesses with script := [], acts := { a with call := none } :: rest } := by
  have hacts : ({ s.afterAccesses accesses with script := [] } : State).acts = a :: rest := by
    rw [← ha]; exact s.afterAccesses_acts accesses
  have hrun := hostRun_accesses hacc [] s
  rw [List.append_nil, hostRun_silent] at hrun
  simp only [hostTurn, hs, hrun, State.mapInner_of_acts hacts]

section
variable {s : State} {pc : Short} {started : Bool} {d : Decoder} {aw : Await} {rest : List Activation}
  {accesses : List HostAction} (hacts : s.acts = ⟨pc, started, some ⟨d, aw⟩⟩ :: rest)
  (hacc : accesses.all HostAction.isAccess = true)
include hacts hacc

theorem step_waiting_ret {v : Byte} {l : List HostAction} (hs : s.script = accesses ++ .ret v :: l) :
    step s = .next (resume d aw (some v)
      { s.afterAccesses accesses with script := l, acts := ⟨pc, started, none⟩ :: rest }) := by
  rw [step_waiting hacts, hostTurn_accesses_ret hacc hs hacts]

theorem step_waiting_silent (hs : s.script = accesses) :
    step s = .next (resume d aw none
      { s.afterAccesses accesses with script := [], acts := ⟨pc, started, none⟩ :: rest }) := by
  rw [step_waiting hacts, hostTurn_accesses_silent hacc hs hacts]

theorem step_waiting_eval {entry : Short} {l : List HostAction} (hs : s.script = accesses ++ .eval entry :: l) :
    step s = .next { s.afterAccesses accesses with
      script := l, acts := ⟨entry, false, none⟩ :: ⟨pc, started, some ⟨d, aw⟩⟩ :: rest } := by
  refine step_hostRun (hostIsActive_waiting hacts) (stop := .called) ?_ (.inl rfl)
  rw [hs, hostRun_accesses hacc, hostRun_eval, State.afterAccesses_acts, hacts]

theorem step_waiting_pause {l : List HostAction} (hs : s.script = accesses ++ .pause :: l) :
    step s = .next { s.afterAccesses accesses with script := l } := by
  refine step_hostRun (hostIsActive_waiting hacts) (stop := .paused) ?_ (.inr rfl)
  rw [hs, hostRun_accesses hacc, hostRun_pause]

end

/-! ### The second call of a short transfer: the caller is awake -/

section
variable {d : Decoder} {aw : Await} {k : Option Byte → State → State} {s : State} {pc : Short} {started : Bool}
  {rest : List Activation} (ha : s.acts = ⟨pc, started, none⟩ :: rest)
include ha

/-- A host that returns at once leaves an awake caller as it was. -/
theorem callHost_awake_ret {v : Byte} {l : List HostAction} (hs : s.script = .ret v :: l) :
    callHost d aw k s = k (some v) { s with script := l } := by
  rw [callHost_ret hs ha, ← ha]

theorem callHost_awake_silent (hs : s.script = []) : callHost d aw k s = k none s := by
  rw [callHost_silent hs ha, ← ha]

end

/-! ### The rest of a DEI (R240) -/

section
variable {d : Decoder} {hi v : Byte} {s : State}

theorem room_of_depth_ne {k : StackId} (h : s.depth k ≠ 255) : s.depth k + 1 ≤ 255 := by
  have := s.depth_lt k; omega

/-- The short is pushed, where there is room. -/
theorem afterDeiLow_some (h : s.depth d.mode.src < 254) :
    afterDeiLow d hi (some v) s = s.withShort d.mode.src (256 * hi.toNat + v.toNat) := by
  rw [← joinBytes_toNat]
  exact deliver_ok (push16_ok (show s.depth d.mode.src + 2 ≤ 255 by omega))

theorem afterDeiByte_some_overflow (hscript : s.script = []) (h : s.depth d.mode.src = 255) :
    afterDeiByte d (some v) s = faultTaken d .overflow s :=
  deliverThen_faultTaken hscript (push8_raises (show ¬ s.depth d.mode.src + 1 ≤ 255 by omega))

theorem afterDeiLow_some_overflow (hscript : s.script = []) (h : 254 ≤ s.depth d.mode.src) :
    afterDeiLow d hi (some v) s = faultTaken d .overflow s :=
  deliverThen_faultTaken hscript (push16_raises (show ¬ s.depth d.mode.src + 2 ≤ 255 by omega))

/-- The second `DeviceIn` is at the next port (decision D6). -/
theorem afterDeiHigh_some (port : Byte) :
    afterDeiHigh d port (some v) s =
      callHost d (.deiLow v) (afterDeiLow d v) (s.tell (.deviceIn (nextPort port))) := by
  rw [nextPort_eq]; rfl

/-! Without a byte from the host, the free one of the count stands for it (log entry 2). -/

theorem afterDeiByte_none :
    afterDeiByte d none s =
      afterDeiByte d (some (Config.deviceByte s.freeCount)) { s with freeCount := s.freeCount + 1 } := rfl

theorem afterDeiLow_none :
    afterDeiLow d hi none s =
      afterDeiLow d hi (some (Config.deviceByte s.freeCount)) { s with freeCount := s.freeCount + 1 } := rfl

theorem afterDeiHigh_none (port : Byte) :
    afterDeiHigh d port none s =
      afterDeiHigh d port (some (Config.deviceByte s.freeCount)) { s with freeCount := s.freeCount + 1 } := rfl

/-- Both calls of an awake DEI2 under a host that does nothing, where there is room: two free bytes make the short. -/
theorem afterDeiHigh_silent {port : Byte} {pc : Short} {started : Bool} {rest : List Activation}
    (ha : s.acts = ⟨pc, started, none⟩ :: rest) (hs : s.script = []) (hroom : s.depth d.mode.src < 254) :
    ∃ (x y : Byte) (n : Nat), afterDeiHigh d port none s = { s with
      freeCount := n
      log := .deviceIn (nextPort port) :: s.log }.withShort d.mode.src (256 * x.toNat + y.toNat) := by
  let asked : State := { s with freeCount := s.freeCount + 1, log := .deviceIn (nextPort port) :: s.log }
  refine ⟨Config.deviceByte s.freeCount, Config.deviceByte asked.freeCount, asked.freeCount + 1, ?_⟩
  rw [afterDeiHigh_none, afterDeiHigh_some]
  exact (callHost_awake_silent (s := asked) ha hs).trans (afterDeiLow_none.trans (afterDeiLow_some hroom))

end

/-! ### The rest of a DEO and of `Halt` (R241, R277) -/

/-- The second `DeviceOut` is at the next port (decision D6). -/
theorem afterDeoHigh_eq (d : Decoder) (port lo : Byte) (b : Option Byte) (s : State) :
    afterDeoHigh d port lo b s = callHost d .deoLast afterDeoLast (s.tell (.deviceOut (nextPort port) lo)) := by
  rw [nextPort_eq]; rfl

theorem endActivation_of_acts {s : State} {a : Activation} {rest : List Activation} (ha : s.acts = a :: rest)
    (r : EvalResult) : s.endActivation r = { s with acts := rest, log := .evalReturn r :: s.log } := by
  rw [State.endActivation, ha, List.tail_cons]

/-- Settles O16: the step is the host's turn, and a return is the rest of the waiting instruction on the state the host
left, one lemma for each callback and for each way its own second call ends. -/
theorem callbackReturnsToItsInstruction : Obligations.CallbackReturnsToItsInstruction := by
  unfold Obligations.CallbackReturnsToItsInstruction
  intro s pc started d aw rest accesses v l hacts hacc
  refine ⟨fun entry => step_waiting_eval hacts hacc, step_waiting_pause hacts hacc, fun hs h hh => ?_,
    fun hs h hh => ?_⟩
  · have ha : h.acts = ⟨pc, started, none⟩ :: rest := by rw [hh]
    have hscript : h.script = l := by rw [hh]
    rw [step_waiting_ret hacts hacc hs, ← hh]
    cases aw with
    | deiByte =>
      exact ⟨fun hroom => congrArg _ (afterDeiByte_some (room_of_depth_ne hroom)), fun hfull hl =>
        congrArg _ (afterDeiByte_some_overflow (hscript.trans hl) hfull)⟩
    | deiHigh port =>
      simp only [resume, afterDeiHigh_some]
      refine ⟨fun entry l' hl => congrArg _ (callHost_eval (s := h.tell _) (hscript.trans hl) ha),
        fun w l' hl => ?_⟩
      rw [callHost_awake_ret (s := h.tell _) ha (hscript.trans hl)]
      exact ⟨fun hroom => congrArg _ (afterDeiLow_some hroom), fun hfull hl' =>
        congrArg _ (afterDeiLow_some_overflow hl' hfull)⟩
    | deiLow hi =>
      exact ⟨fun hroom => congrArg _ (afterDeiLow_some hroom), fun hfull hl =>
        congrArg _ (afterDeiLow_some_overflow (hscript.trans hl) hfull)⟩
    | deoHigh port lo =>
      simp only [resume, afterDeoHigh_eq]
      refine ⟨fun entry l' hl => congrArg _ (callHost_eval (s := h.tell _) (hscript.trans hl) ha),
        fun w l' hl => ?_⟩
      rcases hl with hl | ⟨hl, rfl⟩
      · exact congrArg _ (callHost_awake_ret (s := h.tell _) ha (hscript.trans hl))
      · rw [← hl, ← hscript]
        exact congrArg _ (callHost_awake_silent (s := h.tell _) ha (hscript.trans hl))
    | deoLast => rfl
    | halt f => exact congrArg _ (endActivation_of_acts ha _)
  · have ha : h.acts = ⟨pc, started, none⟩ :: rest := by rw [hh]
    have hscript : h.script = [] := by rw [hh]
    rw [step_waiting_silent hacts hacc hs, ← hh]
    cases aw with
    | deiByte =>
      exact fun hroom => ⟨_, h.freeCount + 1, congrArg _
        (afterDeiByte_none.trans (afterDeiByte_some (room_of_depth_ne (s := h) hroom)))⟩
    | deiHigh port =>
      intro hroom
      obtain ⟨x, y, n, hdone⟩ := afterDeiHigh_silent (port := port) ha hscript hroom
      exact ⟨x, y, n, congrArg _ hdone⟩
    | deiLow hi =>
      exact fun hroom => ⟨_, h.freeCount + 1, congrArg _ (afterDeiLow_none.trans (afterDeiLow_some hroom))⟩
    | deoHigh port lo =>
      simp only [resume, afterDeoHigh_eq]
      exact congrArg _ (callHost_awake_silent (s := h.tell _) ha hscript)
    | deoLast => rfl
    | halt f => exact congrArg _ (endActivation_of_acts ha _)

end Sys2Proof.Proofs
end

section
/-! Decoding and encoding undo each other (30_encoding.md R80 to R88). -/

open Sys2Proof Sys2Proof.Laws Sys2Proof.Machine Sys2Proof.Claims

namespace Sys2Proof.Proofs

/-! ### Decoding what was encoded -/

/-- The round trip of every instruction, from the one lemma each constructor has. -/
theorem decode_encode (i : Instr) (rest : List Byte) : decode (encode i ++ rest) = .ok (i, rest) := by
  cases i with
  | brk => exact RoundTrip.brk rest
  | jci off => exact RoundTrip.jci off rest
  | jmi off => exact RoundTrip.jmi off rest
  | jsi off => exact RoundTrip.jsi off rest
  | lit v => exact RoundTrip.lit v rest
  | lit2 v => exact RoundTrip.lit2 v rest
  | litr v => exact RoundTrip.litr v rest
  | lit2r v => exact RoundTrip.lit2r v rest
  | inc m => exact RoundTrip.inc m rest
  | pop m => exact RoundTrip.pop m rest
  | nip m => exact RoundTrip.nip m rest
  | swp m => exact RoundTrip.swp m rest
  | rot m => exact RoundTrip.rot m rest
  | dup m => exact RoundTrip.dup m rest
  | ovr m => exact RoundTrip.ovr m rest
  | equ m => exact RoundTrip.equ m rest
  | neq m => exact RoundTrip.neq m rest
  | gth m => exact RoundTrip.gth m rest
  | lth m => exact RoundTrip.lth m rest
  | jmp m => exact RoundTrip.jmp m rest
  | jcn m => exact RoundTrip.jcn m rest
  | jsr m => exact RoundTrip.jsr m rest
  | sth m => exact RoundTrip.sth m rest
  | ldz m => exact RoundTrip.ldz m rest
  | stz m => exact RoundTrip.stz m rest
  | ldr m => exact RoundTrip.ldr m rest
  | str m => exact RoundTrip.str m rest
  | lda m => exact RoundTrip.lda m rest
  | sta m => exact RoundTrip.sta m rest
  | dei m => exact RoundTrip.dei m rest
  | deo m => exact RoundTrip.deo m rest
  | add m => exact RoundTrip.add m rest
  | sub m => exact RoundTrip.sub m rest
  | mul m => exact RoundTrip.mul m rest
  | div m => exact RoundTrip.div m rest
  | and m => exact RoundTrip.and m rest
  | ora m => exact RoundTrip.ora m rest
  | eor m => exact RoundTrip.eor m rest
  | sft m => exact RoundTrip.sft m rest

/-- Settles O4: `decode_encode`; well-formedness refuses nothing. -/
theorem decodeOfEncode : Obligations.DecodeOfEncode := by
  unfold Obligations.DecodeOfEncode
  exact fun i rest _ => decode_encode i rest

/-- Settles O1: each of the nine words is the encoding of its instruction. -/
theorem sampleWordsDecode : Obligations.SampleWordsDecode := by
  unfold Obligations.SampleWordsDecode
  exact ⟨decode_encode .brk [], decode_encode (.jci 0x0005) [], decode_encode (.lit2r 0x0108) [],
    decode_encode (.rot ⟨false, true, true⟩) [], decode_encode (.gth ⟨true, false, true⟩) [],
    decode_encode (.jmp ⟨true, true, false⟩) [], decode_encode (.sta ⟨true, false, false⟩) [],
    decode_encode (.deo ⟨false, false, true⟩) [], decode_encode (.add ⟨true, true, true⟩) []⟩

/-- The `n`-th base mnemonic is the one byte with base opcode `n + 1` and its mode bits (R80, R84). -/
theorem encode_baseInstrs {n : Nat} {f : Mode → Instr} (h : baseInstrs[n]? = some f) (s r k : Bool) :
    encode (f ⟨s, r, k⟩) = [BitVec.ofNat 8 (n + 1 + 32 * s.toNat + 64 * r.toNat + 128 * k.toNat)] := by
  have table : ∀ entry ∈ baseInstrs.zipIdx, ∀ s r k : Bool, encode (entry.1 ⟨s, r, k⟩) =
      [BitVec.ofNat 8 (entry.2 + 1 + 32 * s.toNat + 64 * r.toNat + 128 * k.toNat)] := by decide
  exact table (f, n) (List.mk_mem_zipIdx_iff_getElem?.mpr h) s r k

/-- Settles O2: the byte is the encoding of the mnemonic in that mode. -/
theorem baseOpcodesHaveEightModes : Obligations.BaseOpcodesHaveEightModes := by
  unfold Obligations.BaseOpcodesHaveEightModes
  intro n f s r k rest h
  have hdecode := decode_encode (f ⟨s, r, k⟩) rest
  rwa [encode_baseInstrs h] at hdecode

/-! ### Encoding what was decoded -/

/-- The bytes that were decoded, as many of them as the opcode byte asks for, are the encoding (R81). -/
theorem encode_decodeBytes (b b1 b2 : Byte) :
    encode (decodeBytes b b1 b2) = b :: [b1, b2].take (immediateCount b) := by
  by_cases hone : b = 0x80 ∨ b = 0xC0
  · rcases hone with rfl | rfl <;> rfl
  · by_cases htwo : b = 0xA0 ∨ b = 0xE0 ∨ b = 0x20 ∨ b = 0x40 ∨ b = 0x60
    · have hshort : shortBytes (joinBytes b1 b2) = [b1, b2] := by
        rw [shortBytes, hiByte_joinBytes, loByte_joinBytes]
      rcases htwo with rfl | rfl | rfl | rfl | rfl <;> exact congrArg (List.cons _) hshort
    · have hzero : immediateCount b = 0 := by rw [immediateCount, if_neg hone, if_neg htwo]
      have table : ∀ b : Byte, immediateCount b = 0 → encode (decodeBytes b 0 0) = [b] := by decide
      rw [decodeBytes_of_immediateCount_zero hzero, table b hzero, hzero, List.take_zero]

/-- The opcode byte of the instruction that a byte starts is that byte. -/
theorem opcode_decodeBytes (b b1 b2 : Byte) : (decodeBytes b b1 b2).opcode = b :=
  (List.cons.inj (encode_decodeBytes b b1 b2)).1

/-- Where a byte sequence decodes, it begins with the bytes that `decodeBytes` reads. -/
theorem decode_ok {bytes rest : List Byte} {i : Instr} (h : decode bytes = .ok (i, rest)) :
    ∃ b b1 b2, i = decodeBytes b b1 b2 ∧ bytes = b :: [b1, b2].take (immediateCount b) ++ rest := by
  unfold decode at h
  split at h
  · cases h
  · next ins tail =>
    split at h
    next hcount => cases h; exact ⟨ins, 0, 0, rfl, by rw [hcount]; rfl⟩
    next b1 _ hcount => cases h; exact ⟨ins, b1, 0, rfl, by rw [hcount]; rfl⟩
    next b1 b2 _ hcount => cases h; exact ⟨ins, b1, b2, rfl, by rw [hcount]; rfl⟩
    next => cases h

/-- Settles O5: the bytes read are the encoding of the instruction they give. -/
theorem encodeOfDecode : Obligations.EncodeOfDecode := by
  unfold Obligations.EncodeOfDecode
  intro bytes rest i h
  obtain ⟨b, b1, b2, rfl, rfl⟩ := decode_ok h
  rw [encode_decodeBytes]

/-- Settles O3: of three bytes the opcode byte's count of immediates is read, and they are the encoding. -/
theorem everyByteIsAnInstructionOfItsLength : Obligations.EveryByteIsAnInstructionOfItsLength := by
  unfold Obligations.EveryByteIsAnInstructionOfItsLength
  intro b b1 b2 rest
  have hbytes : b :: b1 :: b2 :: rest =
      encode (decodeBytes b b1 b2) ++ ([b1, b2].drop (immediateCount b) ++ rest) := by
    rw [encode_decodeBytes, List.cons_append, ← List.append_assoc, List.take_append_drop]; rfl
  refine ⟨decodeBytes b b1 b2, _, ?_, hbytes, ?_⟩
  · rw [hbytes, decode_encode]
  · rw [encode_decodeBytes, immediateCount]
    split_ifs <;> rfl

end Sys2Proof.Proofs
end

section
/-! What every step keeps, each as a property of states that all effects keep (`step_keeps`): the records, the parts of
the state that only the host writes, and the legal states. -/

open Sys2Proof Sys2Proof.Machine Sys2Proof.Claims

namespace Sys2Proof.Proofs

/-! ### The model's records -/

theorem kept_faultSeen : Kept fun t => t.faultSeen = true where
  ptr s k c h := by rwa [State.setStack_faultSeen]
  put s k v _ h := by rwa [State.setStack_faultSeen]
  inner s f h := by rwa [State.mapInner_faultSeen]
  finish _ _ h := h
  tell _ _ h := h
  seen _ _ := rfl
  free _ h := h
  host s _ h := by rwa [hostRun_faultSeen]

/-- Settles O59: no effect clears the record. -/
theorem faultRecordStays : Obligations.FaultRecordStays := by
  unfold Obligations.FaultRecordStays
  exact fun s t h hstep => step_keeps kept_faultSeen (fun _ _ _ h => h) h hstep

theorem kept_log (log : List Event) : Kept fun t => log <:+ t.log where
  ptr s k c h := by rwa [State.setStack_log]
  put s k v _ h := by rwa [State.setStack_log]
  inner s f h := by rwa [State.mapInner_log]
  finish _ _ h := h.trans (List.suffix_cons _ _)
  tell _ _ h := h.trans (List.suffix_cons _ _)
  seen _ h := h
  free _ h := h
  host s _ h := by
    obtain ⟨later, hlog, -⟩ := hostRun_log s.script s
    exact h.trans ⟨later, hlog.symm⟩

/-- Settles O60: every effect on the log puts an event in front. -/
theorem logOnlyGrows : Obligations.LogOnlyGrows := by
  unfold Obligations.LogOnlyGrows
  exact fun s t hstep => step_keeps (kept_log s.log) (fun _ _ _ h => h) (List.suffix_refl _) hstep

/-! ### What only the host writes -/

/-- A view of the memories that neither pops and pushes change, nor the host's writes to the places `allowed`. -/
structure Untouched {α : Type} (allowed : Space → Prop) (view : State → α) : Prop where
  memories : ∀ s t : State, t.mem = s.mem → t.wst = s.wst → t.rst = s.rst → t.dev = s.dev → view t = view s
  ptr : ∀ s k c, view (s.setStack k { s.stack k with ptr := c }) = view s
  put : ∀ s k v, (s.stack k).ptr ≠ 255 → view (s.setStack k ((s.stack k).put8 v)) = view s
  write : ∀ s sp v, allowed sp → view (s.hostWrite sp v) = view s

/-- The host's script writes only to the places `allowed`. -/
def WritesOnly (allowed : Space → Prop) (script : List HostAction) : Prop :=
  ∀ sp v, .write sp v ∈ script → allowed sp

/-- The host's turn takes its actions from the front of the script. -/
theorem hostRun_script (l : List HostAction) (s : State) : (hostRun l s).2.script <:+ l := by
  induction l generalizing s with
  | nil => exact List.suffix_refl _
  | cons a l ih =>
    cases a with
    | read sp | write sp v => exact (ih _).trans (List.suffix_cons _ l)
    | eval e | ret v | pause => exact List.suffix_cons _ l

section
variable {α : Type} {allowed : Space → Prop} {view : State → α}

theorem Untouched.of_memories (hV : Untouched allowed view) {x : α} {s t : State} (h : view s = x)
    (hmem : t.mem = s.mem) (hwst : t.wst = s.wst) (hrst : t.rst = s.rst) (hdev : t.dev = s.dev) : view t = x :=
  (hV.memories s t hmem hwst hrst hdev).trans h

theorem Untouched.hostRun (hV : Untouched allowed view) {l : List HostAction} {s : State}
    (hl : WritesOnly allowed l) : WritesOnly allowed (hostRun l s).2.script ∧ view (hostRun l s).2 = view s := by
  refine ⟨fun sp v h => hl sp v ((hostRun_script l s).subset h),
    hostRun_keeps (P := fun t => view t = view s) rfl ?_ ?_ ?_ ?_⟩
  · exact fun t sp v h => hV.of_memories h rfl rfl rfl rfl
  · exact fun t sp v hmem h => (hV.write t sp v (hl sp v hmem)).trans h
  · exact fun t l' _ h => hV.of_memories h rfl rfl rfl rfl
  · exact fun t e h => hV.of_memories h rfl rfl rfl rfl

theorem Untouched.kept (hV : Untouched allowed view) (x : α) :
    Kept fun t => WritesOnly allowed t.script ∧ view t = x where
  ptr s k c h := ⟨by simpa using h.1, (hV.ptr s k c).trans h.2⟩
  put s k v hptr h := ⟨by simpa using h.1, (hV.put s k v hptr).trans h.2⟩
  inner s f h := ⟨by simpa using h.1, hV.of_memories h.2 (by simp) (by simp) (by simp) (by simp)⟩
  finish s r h := ⟨h.1, hV.of_memories h.2 rfl rfl rfl rfl⟩
  tell s e h := ⟨h.1, hV.of_memories h.2 rfl rfl rfl rfl⟩
  seen s h := ⟨h.1, hV.of_memories h.2 rfl rfl rfl rfl⟩
  free s h := ⟨h.1, hV.of_memories h.2 rfl rfl rfl rfl⟩
  host s _ h := ⟨(hV.hostRun h.1).1, (hV.hostRun h.1).2.trans h.2⟩

/-- A step leaves the view as it is where stores to Ram do. -/
theorem Untouched.step (hV : Untouched allowed view) (hstore : ∀ s a v, view (s.memWrite1 a v) = view s)
    {s t : State} (hs : WritesOnly allowed s.script) (h : step s = .next t) : view t = view s :=
  (step_keeps (hV.kept (view s)) (fun u a v hu => ⟨hu.1, (hstore u a v).trans hu.2⟩) ⟨hs, rfl⟩ h).2

/-- An instruction that makes no store to Ram leaves the view as it is. -/
theorem Untouched.exec (hV : Untouched allowed view) {i : Instr} (hi : storesToRam i = false) {s t : State}
    (hs : WritesOnly allowed s.script) (h : exec i s = .next t) : view t = view s := by
  obtain ⟨t', ht', -, hview⟩ := exec_keeps (hV.kept (view s)) i (fun hstore => by simp [hi] at hstore) ⟨hs, rfl⟩
  cases ht'.symm.trans h
  exact hview

end

theorem untouched_dev : Untouched (fun sp => ∀ port, sp ≠ .dev port) State.dev where
  memories _ _ _ _ _ h := h
  ptr s k c := s.setStack_dev k _
  put s k v _ := s.setStack_dev k _
  write s sp v h := by
    cases sp with
    | dev port => exact absurd rfl (h port)
    | _ => rfl

/-- Settles O54: only a host write reaches the device page. -/
theorem onlyTheHostWritesDevices : Obligations.OnlyTheHostWritesDevices := by
  unfold Obligations.OnlyTheHostWritesDevices
  exact fun s t hs => untouched_dev.step (fun _ _ _ => rfl) fun sp v hmem port hsp => hs port v (hsp ▸ hmem)

theorem untouched_mem : Untouched (fun sp => ∀ p a, sp ≠ .page p a) State.mem where
  memories _ _ h _ _ _ := h
  ptr s k c := s.setStack_mem k _
  put s k v _ := s.setStack_mem k _
  write s sp v h := by
    cases sp with
    | page p a => exact absurd rfl (h p a)
    | _ => rfl

/-- Settles O56: of the effects only stores and host writes reach the buffer. -/
theorem onlyStoresWriteMemory : Obligations.OnlyStoresWriteMemory := by
  unfold Obligations.OnlyStoresWriteMemory
  exact fun i s t hi hs => untouched_mem.exec hi fun sp v hmem p a hsp => hs p a v (hsp ▸ hmem)

/-- Settles O55: the key of a store is below 65536. -/
theorem hiddenPagesAreOutOfReach : Obligations.HiddenPagesAreOutOfReach := by
  unfold Obligations.HiddenPagesAreOutOfReach
  intro s t hs hstep b hb
  have hV : Untouched (fun sp => ∀ p a, sp ≠ .page p a) fun u : State => u.mem.read b :=
    { memories := fun u t h _ _ _ => congrArg (Memory.read · b) h
      ptr := fun u k c => congrArg (Memory.read · b) (untouched_mem.ptr u k c)
      put := fun u k v h => congrArg (Memory.read · b) (untouched_mem.put u k v h)
      write := fun u sp v h => congrArg (Memory.read · b) (untouched_mem.write u sp v h) }
  refine hV.step (fun u a v => Memory.read_write_other _ _ ?_) (fun sp v hmem p a hsp => hs p a v (hsp ▸ hmem)) hstep
  have := a.isLt
  rw [ramKey_eq]; omega

/-- What becomes of one stack is seen on that stack alone. -/
theorem datum_setStack_eq {s : State} {j : StackId} {t : Stack} {i : Nat}
    (h : t.dat.read i = (s.stack j).dat.read i) (k : StackId) : (s.setStack j t).datum k i = s.datum k i := by
  by_cases hk : k = j
  · subst hk; rw [State.datum, State.stack_setStack_same, h, State.datum]
  · rw [State.datum, State.stack_setStack_other _ _ hk, State.datum]

theorem untouched_lastByte (k : StackId) :
    Untouched (fun sp => ∀ i, sp ≠ .wstDat i ∧ sp ≠ .rstDat i) fun s => s.datum k 255 where
  memories s t _ hwst hrst _ := by cases k <;> simp only [State.datum, State.stack_wst, State.stack_rst, hwst, hrst]
  ptr s j c := datum_setStack_eq (t := { s.stack j with ptr := c }) rfl k
  put s j v hptr := by
    have hne : 255 ≠ (s.stack j).ptr.toNat := by bv_omega
    exact datum_setStack_eq (Memory.read_write_other _ v hne) k
  write s sp v h := by
    cases sp with
    | wstDat i => exact absurd rfl (h i).1
    | rstDat i => exact absurd rfl (h i).2
    | _ => cases k <;> rfl

/-- Settles O57: a push stores below index 255. -/
theorem lastStackByteIsDead : Obligations.LastStackByteIsDead := by
  unfold Obligations.LastStackByteIsDead
  intro s t hs hstep k
  refine (untouched_lastByte k).step (fun _ _ _ => by cases k <;> rfl)
    (fun sp v hmem i => ⟨fun hsp => ?_, fun hsp => ?_⟩) hstep
  · exact (hs i v).1 (hsp ▸ hmem)
  · exact (hs i v).2 (hsp ▸ hmem)

/-! ### The legal states -/

/-- The four memories are in canonical form within their sizes. -/
structure MemoriesWf (s : State) : Prop where
  mem : s.mem.wf Config.bufferSize = true
  stack : ∀ k, (s.stack k).dat.wf Config.stackSize = true
  dev : s.dev.wf Config.devSize = true

theorem wf_iff (s : State) : s.wf = true ↔ MemoriesWf s ∧ outerWait s.acts = true := by
  simp only [State.wf, Bool.and_eq_true]
  constructor
  · rintro ⟨⟨⟨⟨hmem, hwst⟩, hrst⟩, hdev⟩, hacts⟩
    exact ⟨⟨hmem, fun k => by cases k <;> assumption, hdev⟩, hacts⟩
  · rintro ⟨⟨hmem, hstack, hdev⟩, hacts⟩
    exact ⟨⟨⟨⟨hmem, hstack .wst⟩, hstack .rst⟩, hdev⟩, hacts⟩

theorem MemoriesWf.congr {s t : State} (h : MemoriesWf s) (hmem : t.mem = s.mem) (hstack : ∀ k, t.stack k = s.stack k)
    (hdev : t.dev = s.dev) : MemoriesWf t :=
  ⟨hmem ▸ h.mem, fun k => hstack k ▸ h.stack k, hdev ▸ h.dev⟩

theorem MemoriesWf.setStack {s : State} (h : MemoriesWf s) (j : StackId) {t : Stack}
    (ht : t.dat.wf Config.stackSize = true) : MemoriesWf (s.setStack j t) := by
  refine ⟨by rw [State.setStack_mem]; exact h.mem, fun k => ?_, by rw [State.setStack_dev]; exact h.dev⟩
  by_cases hk : k = j
  · subst hk; rwa [State.stack_setStack_same]
  · rw [State.stack_setStack_other _ _ hk]; exact h.stack k

theorem pageKey_lt (p : Fin 16) (a : Short) : pageKey p a < Config.bufferSize := by
  have := a.isLt
  have := p.isLt
  simp only [pageKey, Config.bufferSize, Config.ramPages, Config.ramPageSize]; omega

theorem MemoriesWf.hostWrite {s : State} (h : MemoriesWf s) (sp : Space) (v : Byte) :
    MemoriesWf (s.hostWrite sp v) := by
  cases sp with
  | page p a => exact ⟨Memory.wf_write h.mem (pageKey_lt p a) v, h.stack, h.dev⟩
  | wstDat i => exact h.setStack .wst (Memory.wf_write (h.stack .wst) i.isLt v)
  | wstPtr => exact h.setStack .wst (h.stack .wst)
  | rstDat i => exact h.setStack .rst (Memory.wf_write (h.stack .rst) i.isLt v)
  | rstPtr => exact h.setStack .rst (h.stack .rst)
  | dev port => exact ⟨h.mem, h.stack, Memory.wf_write h.dev port.isLt v⟩

theorem MemoriesWf.hostRun {s : State} (h : MemoriesWf s) (l : List HostAction) : MemoriesWf (hostRun l s).2 :=
  hostRun_keeps h (fun _ _ _ h => h.congr rfl (fun k => by cases k <;> rfl) rfl) (fun _ sp v _ h => h.hostWrite sp v)
    (fun _ _ _ h => h.congr rfl (fun k => by cases k <;> rfl) rfl)
    (fun _ _ h => h.congr rfl (fun k => by cases k <;> rfl) rfl)

/-- Where the host acts, the activation it starts stands above activations that all wait. -/
theorem outerWait_hostRun {s : State} (hactive : s.hostActs) (h : outerWait s.acts = true) (l : List HostAction) :
    outerWait (hostRun l s).2.acts = true := by
  rcases hostRun_acts l s with ⟨-, e, hacts⟩ | ⟨-, hacts⟩
  · rw [hacts]
    cases hs : s.acts with
    | nil => rfl
    | cons a rest =>
      have ha : a.call.isSome = true := hactive a (by simp [hs])
      rw [hs] at h
      exact List.all_cons.trans (by rw [ha]; exact h)
  · rwa [hacts]

theorem kept_wf : Kept fun t => t.wf = true where
  ptr s k c h := by
    obtain ⟨hm, ha⟩ := (wf_iff s).mp h
    exact (wf_iff _).mpr ⟨hm.setStack k (hm.stack k), by rwa [State.setStack_acts]⟩
  put s k v _ h := by
    obtain ⟨hm, ha⟩ := (wf_iff s).mp h
    exact (wf_iff _).mpr
      ⟨hm.setStack k (Memory.wf_write (hm.stack k) (s.stack k).ptr.isLt v), by rwa [State.setStack_acts]⟩
  inner s f h := by
    obtain ⟨hm, ha⟩ := (wf_iff s).mp h
    exact (wf_iff _).mpr ⟨hm.congr (by simp) (by simp) (by simp), by rwa [outerWait, State.mapInner_acts_tail]⟩
  finish s r h := by
    obtain ⟨hm, ha⟩ := (wf_iff s).mp h
    refine (wf_iff _).mpr ⟨hm.congr rfl (fun k => by cases k <;> rfl) rfl, ?_⟩
    rw [outerWait, List.all_eq_true] at ha ⊢
    exact fun a hmem => ha a (List.mem_of_mem_tail hmem)
  tell s e h := h
  seen s h := h
  free s h := h
  host s hactive h := by
    obtain ⟨hm, ha⟩ := (wf_iff s).mp h
    exact (wf_iff _).mpr ⟨hm.hostRun _, outerWait_hostRun hactive ha _⟩

theorem storeKept_wf : StoreKept fun t => t.wf = true := by
  intro s a v h
  obtain ⟨hm, ha⟩ := (wf_iff s).mp h
  exact (wf_iff _).mpr ⟨⟨Memory.wf_write hm.mem (ramKey_lt a) v, hm.stack, hm.dev⟩, ha⟩

/-- Settles O49: every effect keeps the legal states; the host nests an activation only where it is active. -/
theorem stepKeepsLegal : Obligations.StepKeepsLegal := by
  unfold Obligations.StepKeepsLegal
  exact fun s t h hstep => step_keeps kept_wf storeKept_wf h hstep

/-- Settles O9: the state after reset has no memory listed and no activation. -/
theorem resetIsLegal : Obligations.ResetIsLegal := by
  unfold Obligations.ResetIsLegal
  exact ⟨(wf_iff _).mpr ⟨⟨rfl, fun k => by cases k <;> rfl, rfl⟩, rfl⟩, rfl⟩

/-- Settles O8: an address that nothing lists reads as 0. -/
theorem resetIsAllZero : Obligations.ResetIsAllZero := by
  unfold Obligations.ResetIsAllZero
  exact ⟨fun k => by cases k <;> rfl, fun k i => by cases k <;> rfl, Memory.read_nil, Memory.read_nil, rfl, rfl⟩

/-! ### The one stop -/

/-- Every instruction answers a next state (R88, R279). -/
theorem exec_next (i : Instr) (s : State) : ∃ t, exec i s = .next t := by
  have hkept : Kept fun _ => True :=
    { ptr := by simp, put := by simp, inner := by simp, finish := by simp, tell := by simp, seen := by simp
      free := by simp, host := by simp }
  obtain ⟨t, h, -⟩ := exec_keeps hkept i (fun _ _ _ _ _ => trivial) (s := s) trivial
  exact ⟨t, h⟩

/-- A turn of the host that ends in a return has one in its script. -/
theorem ret_mem_of_hostRun {l : List HostAction} {s t : State} {v : Byte}
    (h : hostRun l s = (.returned v, t)) : .ret v ∈ l := by
  induction l generalizing s with
  | nil => cases h
  | cons a l ih =>
    cases a with
    | read sp => exact List.mem_cons_of_mem _ (ih (hostRun_read sp l s ▸ h))
    | write sp w => exact List.mem_cons_of_mem _ (ih (hostRun_write sp w l s ▸ h))
    | eval e => cases h
    | ret w => cases h; exact List.mem_cons_self
    | pause => cases h

theorem hostIdle_next_or_stray (s : State) : (∃ t, hostIdle s = .next t) ∨
    hostIdle s = .fault .returnWithoutCall ∧ ∃ v, .ret v ∈ s.script := by
  unfold hostIdle
  split
  · next v t hrun => exact .inr ⟨rfl, v, ret_mem_of_hostRun hrun⟩
  all_goals exact .inl ⟨_, rfl⟩

/-- Settles O51: instructions and callbacks answer; between activations the host's turn does, or it ends in a return. -/
theorem onlyAStrayReturnStops : Obligations.OnlyAStrayReturnStops := by
  unfold Obligations.OnlyAStrayReturnStops
  refine ⟨exec_next, fun s => ?_⟩
  cases hacts : s.acts with
  | nil =>
    rw [step_idle hacts]
    exact (hostIdle_next_or_stray s).imp_right fun ⟨hfault, hret⟩ => ⟨hfault, rfl, hret⟩
  | cons a rest =>
    left
    obtain ⟨pc, started, - | c⟩ := a
    · cases hloop : loopEnd ⟨pc, started, none⟩ s with
      | some r => exact ⟨_, step_loopEnd hacts hloop⟩
      | none =>
        simp only [step, hacts, hloop]
        exact exec_next _ _
    · exact ⟨_, step_waiting hacts⟩

end Sys2Proof.Proofs
end

section
/-! Keep mode (40_primitives_decoder_loop.md R132, R133): its pops move the keep cursor alone, so of the effects on the
source stack only pushes remain, and a push stores at or above the old depth. -/

open Sys2Proof Sys2Proof.Machine Sys2Proof.Claims

namespace Sys2Proof.Proofs

/-! ### Instructions in keep mode -/

/-- In keep mode every instruction but DEI and DEO is one piece of pseudocode, run with the instruction's own modes
(`exec_runs` does not say with which). -/
theorem exec_runs_of_keep {i : Instr} (hkeep : (modeOf i).keep = true) (hdei : ∀ m, i ≠ .dei m)
    (hdeo : ∀ m, i ≠ .deo m) : ∃ p, (∀ s, exec i s = runMicro i (modeOf i) p s) ∧
      ∀ R, StackClosed R → StoreClosed R → Runs R p := by
  cases i with
  | brk | jci _ | jmi _ | jsi _ | lit _ | lit2 _ | litr _ | lit2r _ => cases hkeep
  | dei m => exact absurd rfl (hdei m)
  | deo m => exact absurd rfl (hdeo m)
  | pop m =>
    exact ⟨_, fun _ => rfl, fun R hR _ => (runs_popValue hR _).andThen hR fun _ => runs_done hR _⟩
  | inc m | sth m =>
    exact ⟨_, fun _ => rfl, fun R hR _ => (runs_popValue hR _).andThen hR fun _ => runs_pushValue hR _ _ _⟩
  | dup m =>
    exact ⟨_, fun _ => rfl, fun R hR _ => (runs_popValue hR _).andThen hR fun _ =>
      (runs_pushValue hR _ _ _).andThen hR fun _ => runs_pushValue hR _ _ _⟩
  | nip m | add m | sub m | mul m | and m | ora m | eor m =>
    exact ⟨_, fun _ => rfl, fun R hR _ => (runs_popValue hR _).andThen hR fun _ =>
      (runs_popValue hR _).andThen hR fun _ => runs_pushValue hR _ _ _⟩
  | equ m | neq m | gth m | lth m =>
    exact ⟨_, fun _ => rfl, fun R hR _ => (runs_popValue hR _).andThen hR fun _ =>
      (runs_popValue hR _).andThen hR fun _ => runs_push8 hR _ _⟩
  | swp m =>
    exact ⟨_, fun _ => rfl, fun R hR _ => (runs_popValue hR _).andThen hR fun _ =>
      (runs_popValue hR _).andThen hR fun _ => (runs_pushValue hR _ _ _).andThen hR fun _ =>
      runs_pushValue hR _ _ _⟩
  | ovr m =>
    exact ⟨_, fun _ => rfl, fun R hR _ => (runs_popValue hR _).andThen hR fun _ =>
      (runs_popValue hR _).andThen hR fun _ => (runs_pushValue hR _ _ _).andThen hR fun _ =>
      (runs_pushValue hR _ _ _).andThen hR fun _ => runs_pushValue hR _ _ _⟩
  | rot m =>
    exact ⟨_, fun _ => rfl, fun R hR _ => (runs_popValue hR _).andThen hR fun _ =>
      (runs_popValue hR _).andThen hR fun _ => (runs_popValue hR _).andThen hR fun _ =>
      (runs_pushValue hR _ _ _).andThen hR fun _ => (runs_pushValue hR _ _ _).andThen hR fun _ =>
      runs_pushValue hR _ _ _⟩
  | jmp m =>
    exact ⟨_, fun _ => rfl, fun R hR _ => (runs_popValue hR _).andThen hR fun _ => runs_jump hR _ _⟩
  | jsr m =>
    exact ⟨_, fun _ => rfl, fun R hR _ => (runs_popValue hR _).andThen hR fun _ =>
      (runs_getPc hR).andThen hR fun _ => (runs_push16 hR _ _).andThen hR fun _ => runs_jump hR _ _⟩
  | ldz m =>
    exact ⟨_, fun _ => rfl, fun R hR _ => (runs_pop8 hR _).andThen hR fun _ =>
      (runs_peek hR _ _).andThen hR fun _ => runs_pushValue hR _ _ _⟩
  | lda m =>
    exact ⟨_, fun _ => rfl, fun R hR _ => (runs_pop16 hR _).andThen hR fun _ =>
      (runs_peek hR _ _).andThen hR fun _ => runs_pushValue hR _ _ _⟩
  | ldr m =>
    exact ⟨_, fun _ => rfl, fun R hR _ => (runs_pop8 hR _).andThen hR fun _ =>
      (runs_getPc hR).andThen hR fun _ => (runs_peek hR _ _).andThen hR fun _ => runs_pushValue hR _ _ _⟩
  | stz m =>
    exact ⟨_, fun _ => rfl, fun R hR hS => (runs_pop8 hR _).andThen hR fun _ =>
      (runs_popValue hR _).andThen hR fun _ => runs_poke hR hS _ _ _⟩
  | sta m =>
    exact ⟨_, fun _ => rfl, fun R hR hS => (runs_pop16 hR _).andThen hR fun _ =>
      (runs_popValue hR _).andThen hR fun _ => runs_poke hR hS _ _ _⟩
  | str m =>
    exact ⟨_, fun _ => rfl, fun R hR hS => (runs_pop8 hR _).andThen hR fun _ =>
      (runs_popValue hR _).andThen hR fun _ => (runs_getPc hR).andThen hR fun _ => runs_poke hR hS _ _ _⟩
  | sft m =>
    exact ⟨_, fun _ => rfl, fun R hR _ => (runs_pop8 hR _).andThen hR fun _ =>
      (runs_popValue hR _).andThen hR fun _ => runs_pushValue hR _ _ _⟩
  | jcn m =>
    refine ⟨_, fun _ => rfl, fun R hR _ => (runs_popValue hR _).andThen hR fun _ =>
      (runs_pop8 hR _).andThen hR fun _ => ?_⟩
    split
    · exact runs_jump hR _ _
    · exact runs_done hR _
  | div m =>
    refine ⟨_, fun _ => rfl, fun R hR _ => (runs_popValue hR _).andThen hR fun _ =>
      (runs_popValue hR _).andThen hR fun _ => ?_⟩
    split
    · exact runs_raise hR _
    · exact runs_pushValue hR _ _ _

/-! ### What every effect but a pop outside keep mode keeps -/

/-- A property of states that every effect other than a lowered pointer keeps. -/
structure KeptByPushes (P : State → Prop) : Prop where
  put : ∀ s k v, (s.stack k).ptr ≠ 255 → P s → P (s.setStack k ((s.stack k).put8 v))
  store : StoreKept P
  inner : ∀ s f, P s → P (s.mapInner f)
  finish : ∀ s r, P s → P (s.endActivation r)
  tell : ∀ s e, P s → P (s.tell e)
  seen : ∀ s, P s → P { s with faultSeen := true }
  free : ∀ s, P s → P { s with freeCount := s.freeCount + 1 }
  host : ∀ s l, s.script = l → P s → P (hostRun l s).2

section
variable {P : State → Prop}

/-- The relation of pseudocode that runs in keep mode to `P`. -/
def InKeepMode (P : State → Prop) (l l' : Local) : Prop :=
  l.kc.isSome = true → l'.kc.isSome = true ∧ (P l.st → P l'.st)

theorem KeptByPushes.stackClosed (hP : KeptByPushes P) : StackClosed (InKeepMode P) where
  refl _ hkc := ⟨hkc, id⟩
  trans h1 h2 hkc := ⟨(h2 (h1 hkc).1).1, (h2 (h1 hkc).1).2 ∘ (h1 hkc).2⟩
  lower l k c _ hkc := by
    obtain ⟨c', hc'⟩ := Option.isSome_iff_exists.mp hkc
    simp only [Local.setCursor, hc']
    exact ⟨rfl, id⟩
  put l k v hptr hkc := ⟨hkc, hP.put _ k v hptr⟩
  pc l t hkc := ⟨hkc, hP.inner _ _⟩

theorem KeptByPushes.storeClosed (hP : KeptByPushes P) : StoreClosed (InKeepMode P) :=
  fun l a v hkc => ⟨hkc, hP.store l.st a v⟩

theorem KeptByPushes.callHost (hP : KeptByPushes P) {d : Decoder} {aw : Await} {k : Option Byte → State → State}
    (hk : ∀ b t, P t → P (k b t)) {s : State} (h : P s) : P (callHost d aw k s) := by
  have hrun := hP.host _ _ rfl (hP.inner s (fun a => { a with call := some ⟨d, aw⟩ }) h)
  unfold Machine.callHost
  rcases hostTurn_cases k (s.mapInner fun a => { a with call := some ⟨d, aw⟩ }) with
    ⟨t, e1, e2⟩ | ⟨t, e1, e2⟩ | ⟨v, t, e1, e2⟩ | ⟨t, e1, e2⟩
  all_goals rw [e1] at hrun; rw [e2]
  · exact hrun
  · exact hrun
  · exact hk _ _ (hP.inner _ _ hrun)
  · exact hk _ _ (hP.inner _ _ hrun)

theorem KeptByPushes.raiseFault (hP : KeptByPushes P) (d : Decoder) (f : VmFault) {s : State} (h : P s) :
    P (raiseFault d f s) :=
  hP.callHost (fun _ _ ht => hP.finish _ _ ht) (hP.seen _ (hP.tell _ _ h))

theorem KeptByPushes.deliverThen (hP : KeptByPushes P) {α : Type} {d : Decoder} (hkc : d.kc.isSome = true)
    {p : Micro α} {k : α → Local → State} (hp : Runs (InKeepMode P) p)
    (hk : ∀ a l, l.kc.isSome = true → P l.st → P (k a l)) {s : State} (h : P s) : P (deliverThen d p k s) := by
  have hrun := hp ⟨s, d.kc⟩
  unfold Machine.deliverThen
  cases hpl : p ⟨s, d.kc⟩ with
  | ok a l => rw [hpl] at hrun; exact hk a l (hrun hkc).1 ((hrun hkc).2 h)
  | raised f l => rw [hpl] at hrun; exact hP.raiseFault _ _ ((hrun hkc).2 h)

theorem KeptByPushes.inputByte (hP : KeptByPushes P) (b : Option Byte) {s : State} (h : P s) :
    P (inputByte b s).2 := by
  cases b with
  | none => exact hP.free _ h
  | some v => exact h

/-- The rest of a DEI or a DEO after a callback. -/
theorem KeptByPushes.resume (hP : KeptByPushes P) {d : Decoder} (hkc : d.kc.isSome = true) (aw : Await)
    (b : Option Byte) {s : State} (h : P s) : P (resume d aw b s) := by
  have low (hi : Byte) (b : Option Byte) {t : State} (ht : P t) : P (afterDeiLow d hi b t) :=
    hP.deliverThen hkc (runs_push16 hP.stackClosed _ _) (fun _ _ _ hl => hl) (hP.inputByte b ht)
  cases aw with
  | deiByte => exact hP.deliverThen hkc (runs_push8 hP.stackClosed _ _) (fun _ _ _ hl => hl) (hP.inputByte b h)
  | deiHigh port => exact hP.callHost (fun b _ => low _ b) (hP.tell _ _ (hP.inputByte b h))
  | deiLow hi => exact low hi b h
  | deoHigh port lo => exact hP.callHost (fun _ _ ht => ht) (hP.tell _ _ h)
  | deoLast => exact h
  | halt f => exact hP.finish _ _ h

/-- An instruction in keep mode keeps whatever no effect but a lowered pointer changes. -/
theorem exec_keeps_of_keep (hP : KeptByPushes P) {i : Instr} (hkeep : (modeOf i).keep = true) {s t : State}
    (h : P s) (hexec : exec i s = .next t) : P t := by
  have hR := hP.stackClosed
  have hkc : (startDecoder i.opcode (modeOf i) s).kc.isSome = true := by simp [startDecoder, hkeep]
  by_cases hdei : ∃ m, i = .dei m
  · obtain ⟨m, rfl⟩ := hdei
    cases hexec
    refine hP.deliverThen hkc (runs_pop8 hR _) (fun p l hl ht => ?_) h
    let d : Decoder := { startDecoder (Instr.dei m).opcode m s with kc := l.kc }
    dsimp only
    split
    · exact hP.callHost (fun b _ => hP.resume (d := d) hl (.deiHigh p) b) (hP.tell _ _ ht)
    · exact hP.callHost (fun b _ => hP.resume (d := d) hl .deiByte b) (hP.tell _ _ ht)
  by_cases hdeo : ∃ m, i = .deo m
  · obtain ⟨m, rfl⟩ := hdeo
    cases hexec
    refine hP.deliverThen hkc ((runs_pop8 hR _).andThen hR fun _ => (runs_popValue hR _).andThen hR fun _ =>
      runs_done hR _) (fun pv l hl ht => ?_) h
    let d : Decoder := { startDecoder (Instr.deo m).opcode m s with kc := l.kc }
    dsimp only
    split
    · exact hP.callHost (fun b _ => hP.resume (d := d) hl (.deoHigh pv.1 (loByte pv.2)) b) (hP.tell _ _ ht)
    · exact hP.callHost (fun _ _ hu => hu) (hP.tell _ _ ht)
  obtain ⟨p, he, hp⟩ := exec_runs_of_keep hkeep (not_exists.mp hdei) (not_exists.mp hdeo)
  rw [he] at hexec
  cases hexec
  exact hP.deliverThen hkc (hp _ hR hP.storeClosed) (fun _ _ _ hl => hl) h

end

/-! ### The source stack -/

/-- The host writes nothing, stack `k` is at least `depth` deep, and its bytes below `depth` are those of `data`. -/
structure HoldsBelow (k : StackId) (depth : Nat) (data : Nat → Nat) (t : State) : Prop where
  silent : WritesOnly (fun _ => False) t.script
  depth_le : depth ≤ t.depth k
  datum_eq : ∀ n, n < depth → t.datum k n = data n

section
variable {k : StackId} {depth : Nat} {data : Nat → Nat}

theorem HoldsBelow.congr {s t : State} (h : HoldsBelow k depth data s) (hscript : t.script = s.script)
    (hstack : t.stack k = s.stack k) : HoldsBelow k depth data t where
  silent := hscript ▸ h.silent
  depth_le := by rw [State.depth, hstack]; exact h.depth_le
  datum_eq n hn := by rw [State.datum, hstack]; exact h.datum_eq n hn

theorem HoldsBelow.put {s : State} (h : HoldsBelow k depth data s) (j : StackId) (v : Byte)
    (hptr : (s.stack j).ptr ≠ 255) : HoldsBelow k depth data (s.setStack j ((s.stack j).put8 v)) := by
  by_cases hj : k = j
  · subst hj
    have hroom : s.depth k + 1 ≤ 255 := by
      have := s.depth_lt k
      have : s.depth k ≠ 255 := fun h255 => hptr (BitVec.eq_of_toNat_eq h255)
      omega
    have hle := h.depth_le
    rw [put8_withByte]
    refine ⟨by rw [State.withByte_script]; exact h.silent, by rw [State.depth_withByte _ _ _ hroom]; omega,
      fun n hn => ?_⟩
    rw [State.datum_withByte_other _ _ _ (by omega), h.datum_eq n hn]
  · exact h.congr (State.setStack_script ..) (State.stack_setStack_other _ _ hj)

theorem keptByPushes_holdsBelow : KeptByPushes (HoldsBelow k depth data) where
  put s j v hptr h := h.put j v hptr
  store s a v h := h.congr rfl (by cases k <;> rfl)
  inner s f h := h.congr (State.mapInner_script s f) (State.mapInner_stack s f k)
  finish s r h := h.congr rfl (by cases k <;> rfl)
  tell s e h := h.congr rfl (by cases k <;> rfl)
  seen s h := h.congr rfl (by cases k <;> rfl)
  free s h := h.congr rfl (by cases k <;> rfl)
  host s l hl h := by
    have hstack : (hostRun l s).2.stack k = s.stack k :=
      hostRun_keeps (P := fun t => t.stack k = s.stack k) rfl (fun t _ _ ht => by cases k <;> exact ht)
        (fun t sp v hmem _ => (h.silent sp v (hl ▸ hmem)).elim) (fun t _ _ ht => by cases k <;> exact ht)
        (fun t _ ht => by cases k <;> exact ht)
    have h' : HoldsBelow k depth data { s with script := (hostRun l s).2.script } :=
      ⟨fun sp v hmem => h.silent sp v (hl ▸ (hostRun_script l s).subset hmem), by
        cases k <;> exact h.depth_le, by cases k <;> exact h.datum_eq⟩
    exact h'.congr rfl (hstack.trans (by cases k <;> rfl))

end

/-- Settles O58: what the source stack held is kept by every effect that is left in keep mode. -/
theorem keepModeKeepsOperands : Obligations.KeepModeKeepsOperands := by
  unfold Obligations.KeepModeKeepsOperands
  intro i s t hkeep hscript hexec
  have h : HoldsBelow (modeOf i).src (s.depth (modeOf i).src) (s.datum (modeOf i).src) s :=
    ⟨fun sp v hmem => hscript sp v hmem, le_rfl, fun _ _ => rfl⟩
  have ht := exec_keeps_of_keep keptByPushes_holdsBelow hkeep h hexec
  exact ⟨ht.depth_le, ht.datum_eq⟩

end Sys2Proof.Proofs
end

section
/-! What becomes of the live activations in a step (10_state.md R25, R34; 60_exceptions.md R280): the innermost goes on
or waits, or waits under a nested one, or ends, and then the log says how. -/

open Sys2Proof Sys2Proof.Machine Sys2Proof.Claims

namespace Sys2Proof.Proofs

/-! ### DEO up to its first callback, and an Underflow of any instruction -/

/-- The value a DEO sends: the item below the port (R241). -/
def deoValue (m : Mode) (s : State) : Short := BitVec.ofNat 16 (s.item m 1)

/-- The first `DeviceOut` of a DEO that starts in `s`, with what the decoder keeps across it (R33, R38 (b), R241). -/
def deoCallback (m : Mode) (s : State) : Callback where
  dec := ⟨(Instr.deo m).opcode, m, s.pc,
    if m.keep then some (BitVec.ofNat 8 (s.depth m.src - (1 + m.bytes))) else none⟩
  await := if m.short then .deoHigh (deiPort m s) (loByte (deoValue m s)) else .deoLast

/-- A DEO with its operands pops them and calls `DeviceOut`; the rest of it is what that callback returns to. -/
theorem exec_deo {m : Mode} {s : State} (h : 1 + m.bytes ≤ s.depth m.src) :
    exec (.deo m) s = .next (deviceOut (deoCallback m s).dec (deiPort m s)
      (if m.short then hiByte (deoValue m s) else loByte (deoValue m s)) (deoCallback m s).await
      (resume (deoCallback m s).dec (deoCallback m s).await) (s.popped m (1 + m.bytes))) := by
  have hpops : andThen (pop8 m.src) (fun p => andThen (popValue m) fun v => done (p, v))
      ⟨s, (startDecoder (Instr.deo m).opcode m s).kc⟩ =
      .ok (deiPort m s, deoValue m s) (popLocal m s (1 + m.bytes)) := by
    rw [start_popLocal, andThen_ok (pop8_popLocal (by omega)), andThen_ok (popValue_popLocal (by omega))]; rfl
  simp only [exec, execDeo, deliverThen, hpops]
  by_cases hshort : m.short = true
  · simp only [deoCallback, if_pos hshort, resume]; rfl
  · simp only [deoCallback, if_neg hshort, resume]; rfl

/-- Where the pops want more bytes than there are, one of them has no operand, and nothing but pops has been done. -/
theorem PopsThen.exists_underflow {α : Type} {m : Mode} {s : State} {p : Nat} {ns : List Nat} {x r : Micro α}
    (h : PopsThen m s p ns x r) (hp : p ≤ s.depth m.src) (hdepth : s.depth m.src < ns.sum + p) :
    ∃ q, x (popLocal m s p) = .raised .underflow (popLocal m s q) := by
  induction h with
  | rest => simp at hdepth; omega
  | @pop _ p n ns _ _ _ _ hx _ ih =>
    rw [List.sum_cons] at hdepth
    by_cases hn : n + p ≤ s.depth m.src
    · obtain ⟨q, hq⟩ := ih hn (by omega)
      exact ⟨q, (andThen_ok (hx.ok s p hn)).trans hq⟩
    · exact ⟨p, andThen_raised (hx.underflow s p (by omega))⟩

/-- An instruction with fewer operand bytes than it pops faults, with no effect but pops (R274 (a), (b)). -/
theorem exec_underflow {i : Instr} {s : State} (h : s.depth (modeOf i).src < popBytes i) :
    ∃ q d, d.ins = i.opcode ∧ d.pc1 = s.pc ∧
      exec i s = .next (raiseFault d .underflow (s.popped (modeOf i) q)) := by
  have hi : i ≠ .brk := by rintro rfl; simp [popBytes, popSizes] at h
  obtain ⟨α, x, r, k, hexec, hpops, -⟩ := exec_eq_pops_then s hi
  obtain ⟨q, hq⟩ := hpops.exists_underflow (Nat.zero_le _) (by rwa [Nat.add_zero])
  rw [← start_popLocal i.opcode] at hq
  refine ⟨q, { startDecoder i.opcode (modeOf i) s with kc := (popLocal (modeOf i) s q).kc }, rfl, rfl, ?_⟩
  rw [hexec, deliverThen, hq]; rfl

/-! ### The three ways a step leaves the activations -/

/-- After a step in which `a` above `rest` was the innermost activation: it has ended, and the log is as `Ended` says;
or it is there, changed; or a nested one has started above it. Where `fits` holds, what has become of `a` waits, if it
waits, in a call its own instruction makes. -/
inductive Aftermath (fits : Prop) (Ended : List Event → Prop) (rest : List Activation) (t : State) : Prop where
  | ended (hacts : t.acts = rest) (hlog : Ended t.log)
  | goesOn (b : Activation) (hacts : t.acts = b :: rest) (hfits : fits → callFits b = true)
  | nested (b : Activation) (entry : Short) (hacts : t.acts = ⟨entry, false, none⟩ :: b :: rest)
      (hfits : fits → callFits b = true)

theorem Aftermath.imp {fits : Prop} {Ended Ended' : List Event → Prop} {rest : List Activation} {t : State}
    (h : Aftermath fits Ended rest t) (himp : ∀ log, Ended log → Ended' log) : Aftermath fits Ended' rest t := by
  cases h with
  | ended hacts hlog => exact .ended hacts (himp _ hlog)
  | goesOn b hacts hfits => exact .goesOn b hacts hfits
  | nested b entry hacts hfits => exact .nested b entry hacts hfits

/-- The log of an activation that a fault has ended: since `before`, the `Halt` of the opcode byte at the address, then
only the host's reads, then the result (R272, R276). -/
def FaultTold (ins : Byte) (address : Short) (before log : List Event) : Prop :=
  ∃ f later earlier, log = .evalReturn (.fault f) :: later ++ .halt ins f.code address :: earlier ++ before ∧
    ∀ e ∈ later, ∃ sp v, e = .hostRead sp v

/-- A fault that a machine with this log takes is told after it. -/
theorem FaultTold.of_log_suffix {ins : Byte} {address : Short} {before log log' : List Event} (h : before <:+ log)
    (htold : FaultTold ins address log log') : FaultTold ins address before log' := by
  obtain ⟨earlier', rfl⟩ := h
  obtain ⟨f, later, earlier, rfl, hreads⟩ := htold
  exact ⟨f, later, earlier ++ earlier', by simp, hreads⟩

/-- How the log tells that callback `aw` was the last one of its activation: it was a `Halt`, or the rest of the
instruction faulted. -/
def CallEnded (d : Decoder) (aw : Await) (before log : List Event) : Prop :=
  (∃ f, aw = .halt f ∧ log.head? = some (.evalReturn (.fault f))) ∨ FaultTold d.ins (d.pc1 - 1) before log

section
variable {fits : Prop} {rest : List Activation} {a : Activation} {s : State} {d : Decoder}

theorem Aftermath.of_awake (hacts : s.acts = a :: rest) (hcall : a.call = none) {Ended : List Event → Prop} :
    Aftermath fits Ended rest s := .goesOn a hacts fun _ => by simp [callFits, hcall]

theorem readsSince_suffix {s t : State} (h : s.readsSince t) : s.log <:+ t.log := by
  obtain ⟨later, hlog, -⟩ := h
  exact ⟨later, hlog.symm⟩

/-- A callback: the host leaves the activation waiting in it, or it returns and the rest `k` follows. -/
theorem callHost_aftermath {Ended : List Event → Prop} {aw : Await} {k : Option Byte → State → State}
    (hacts : s.acts = a :: rest) (hfits : fits → callFits { a with call := some ⟨d, aw⟩ } = true)
    (hk : ∀ b t, t.acts = { a with call := none } :: rest → s.log <:+ t.log → Aftermath fits Ended rest (k b t)) :
    Aftermath fits Ended rest (callHost d aw k s) :=
  callHost_post hacts (fun _ e ht _ _ => .nested _ e ht hfits) (fun _ ht _ _ => .goesOn _ ht hfits)
    fun b t ht _ hreads => hk b t ht (readsSince_suffix hreads)

theorem raiseFault_aftermath (hacts : s.acts = a :: rest) (f : VmFault) :
    Aftermath fits (FaultTold d.ins (d.pc1 - 1) s.log) rest (raiseFault d f s) := by
  refine callHost_post (rest := rest) hacts (fun _ e ht _ _ => .nested _ e ht fun _ => rfl)
    (fun _ ht _ _ => .goesOn _ ht fun _ => rfl) fun b t ht _ hreads => .ended ?_ ?_
  · rw [State.endActivation_acts, ht, List.tail_cons]
  · obtain ⟨later, hlog, hall⟩ := hreads
    exact ⟨f, later, [], by rw [State.endActivation_log, hlog]; simp, hall⟩

/-! ### Pseudocode -/

/-- Pseudocode changes of the activations only the innermost one's program counter, and tells the host nothing. -/
def MovesPcOnly (l l' : Local) : Prop :=
  l'.st.log = l.st.log ∧ ∀ a rest, l.st.acts = a :: rest → ∃ pc, l'.st.acts = { a with pc := pc } :: rest

theorem movesPcOnly_refl {l l' : Local} (hlog : l'.st.log = l.st.log) (hacts : l'.st.acts = l.st.acts) :
    MovesPcOnly l l' := ⟨hlog, fun a _ h => ⟨a.pc, hacts.trans h⟩⟩

theorem stackClosed_movesPcOnly : StackClosed MovesPcOnly where
  refl _ := movesPcOnly_refl rfl rfl
  trans h1 h2 := by
    refine ⟨h2.1.trans h1.1, fun a rest h => ?_⟩
    obtain ⟨pc, hpc⟩ := h1.2 a rest h
    exact h2.2 { a with pc := pc } rest hpc
  lower l k c _ := by
    unfold Local.setCursor
    split
    · exact movesPcOnly_refl rfl rfl
    · exact movesPcOnly_refl (State.setStack_log ..) (State.setStack_acts ..)
  put l k v _ := movesPcOnly_refl (State.setStack_log ..) (State.setStack_acts ..)
  pc l t := ⟨State.mapInner_log .., fun a rest h => ⟨t, by rw [State.setPc, State.mapInner_of_acts h]⟩⟩

/-- An instruction, or the rest of one, that is pseudocode goes on or faults. -/
theorem deliver_aftermath {p : Micro Unit} (hp : Runs MovesPcOnly p) (hacts : s.acts = a :: rest)
    (hcall : a.call = none) : Aftermath fits (FaultTold d.ins (d.pc1 - 1) s.log) rest (deliver d p s) := by
  have hrun := hp ⟨s, d.kc⟩
  cases hpl : p ⟨s, d.kc⟩ with
  | ok u l =>
    rw [hpl] at hrun
    obtain ⟨pc, hpc⟩ := hrun.2 a rest hacts
    rw [deliver_ok hpl]
    exact .of_awake hpc hcall
  | raised f l =>
    rw [hpl] at hrun
    obtain ⟨pc, hpc⟩ := hrun.2 a rest hacts
    rw [deliver_error hpl]
    have hlog : l.st.log = s.log := hrun.1
    rw [← hlog]
    exact raiseFault_aftermath (d := { d with kc := l.kc }) hpc f

/-! ### Callbacks -/

theorem inputByte_acts (b : Option Byte) (s : State) : (inputByte b s).2.acts = s.acts := by cases b <;> rfl
theorem inputByte_log (b : Option Byte) (s : State) : (inputByte b s).2.log = s.log := by cases b <;> rfl

/-- The push of a DEI. -/
theorem deliver_inputByte_aftermath {before : List Event} (b : Option Byte) {p : Micro Unit}
    (hp : Runs MovesPcOnly p) (hacts : s.acts = a :: rest) (hcall : a.call = none) (hlog : before <:+ s.log) :
    Aftermath fits (FaultTold d.ins (d.pc1 - 1) before) rest (deliver d p (inputByte b s).2) := by
  refine (deliver_aftermath hp ((inputByte_acts b s).trans hacts) hcall).imp fun log h => ?_
  rw [inputByte_log] at h
  exact h.of_log_suffix hlog

/-- What a woken activation does when callback `aw` has returned. -/
theorem resume_aftermath {before : List Event} {aw : Await} (hacts : s.acts = a :: rest) (hcall : a.call = none)
    (hlog : before <:+ s.log) (hfits : fits → callFits { a with call := some ⟨d, aw⟩ } = true) (b : Option Byte) :
    Aftermath fits (CallEnded d aw before) rest (resume d aw b s) := by
  have low (hi : Byte) {t : State} {a' : Activation} (ht : t.acts = a' :: rest) (ha' : a'.call = none)
      (htlog : before <:+ t.log) (b : Option Byte) :
      Aftermath fits (FaultTold d.ins (d.pc1 - 1) before) rest (afterDeiLow d hi b t) :=
    deliver_inputByte_aftermath b (runs_push16 stackClosed_movesPcOnly _ _) ht ha' htlog
  cases aw with
  | deiByte =>
    exact (deliver_inputByte_aftermath b (runs_push8 stackClosed_movesPcOnly _ _) hacts hcall hlog).imp fun _ => .inr
  | deiLow hi => exact (low hi hacts hcall hlog b).imp fun _ => .inr
  | deiHigh port =>
    let asked : State := (inputByte b s).2.tell (.deviceIn (port + 1))
    have hacts' : asked.acts = a :: rest := (inputByte_acts b s).trans hacts
    have hlog' : before <:+ asked.log :=
      (hlog.trans (by rw [← inputByte_log b s])).trans (List.suffix_cons _ _)
    refine callHost_aftermath (s := asked) (aw := .deiLow (inputByte b s).1) hacts' hfits fun b' t ht htlog => ?_
    exact (low _ ht rfl (hlog'.trans htlog) b').imp fun _ => .inr
  | deoHigh port lo =>
    refine callHost_aftermath (s := s.tell _) (aw := .deoLast) hacts (fun h => ?_) fun _ _ ht _ => .of_awake ht rfl
    have hhigh := hfits h
    simp only [callFits, Bool.and_eq_true] at hhigh ⊢
    exact ⟨hhigh.1.1, hhigh.2⟩
  | deoLast => exact .of_awake hacts hcall
  | halt f => exact .ended (by rw [resume, State.endActivation_acts, hacts, List.tail_cons]) (.inl ⟨f, rfl, rfl⟩)

/-- A callback of an instruction and the rest of the instruction. -/
theorem callHost_resume_aftermath {before : List Event} {aw : Await} (hacts : s.acts = a :: rest)
    (hlog : before <:+ s.log) (hfits : fits → callFits { a with call := some ⟨d, aw⟩ } = true) :
    Aftermath fits (CallEnded d aw before) rest (callHost d aw (resume d aw) s) :=
  callHost_aftermath hacts hfits fun b _ ht htlog => resume_aftermath ht rfl (hlog.trans htlog) hfits b

end

/-! ### Instructions -/

section
variable {fits : Prop} {rest : List Activation} {pc1 : Short} {started : Bool} {s : State}

/-- DEI and DEO wait in calls of their own. -/
theorem callFits_deiCallback (m : Mode) : callFits ⟨s.pc, started, some (deiCallback m s)⟩ = true := by
  by_cases hshort : m.short = true <;> simp [callFits, deiCallback, hshort]

theorem callFits_deoCallback (m : Mode) : callFits ⟨s.pc, started, some (deoCallback m s)⟩ = true := by
  by_cases hshort : m.short = true <;> simp [callFits, deoCallback, hshort]

theorem callEnded_deiCallback {m : Mode} {log : List Event}
    (h : CallEnded (deiCallback m s).dec (deiCallback m s).await s.log log) :
    FaultTold (Instr.dei m).opcode (s.pc - 1) s.log log := by
  rcases h with ⟨f, hawait, -⟩ | htold
  · by_cases hshort : m.short = true <;> simp [deiCallback, hshort] at hawait
  · exact htold

theorem callEnded_deoCallback {m : Mode} {log : List Event}
    (h : CallEnded (deoCallback m s).dec (deoCallback m s).await s.log log) :
    FaultTold (Instr.deo m).opcode (s.pc - 1) s.log log := by
  rcases h with ⟨f, hawait, -⟩ | htold
  · by_cases hshort : m.short = true <;> simp [deoCallback, hshort] at hawait
  · exact htold

/-- An instruction other than BRK goes on, waits, or ends by a fault of its own. -/
theorem exec_aftermath {i : Instr} {t : State} (hi : i ≠ .brk) (hacts : s.acts = ⟨pc1, started, none⟩ :: rest)
    (hexec : exec i s = .next t) : Aftermath fits (FaultTold i.opcode (pc1 - 1) s.log) rest t := by
  obtain rfl : s.pc = pc1 := State.pc_of_acts hacts
  by_cases hpops : s.depth (modeOf i).src < popBytes i
  · obtain ⟨q, d, hins, hpc1, hfault⟩ := exec_underflow hpops
    cases hfault.symm.trans hexec
    rw [← hins, ← hpc1, ← State.popped_log s (modeOf i) q]
    exact raiseFault_aftermath ((State.popped_acts ..).trans hacts) _
  rw [not_lt] at hpops
  rcases exec_runs i with rfl | ⟨m, rfl⟩ | ⟨m, rfl⟩ | ⟨m, p, he, hp⟩
  · exact absurd rfl hi
  · have hdepth : 1 ≤ s.depth m.src := hpops
    rw [exec_dei hdepth] at hexec
    cases hexec
    exact (callHost_resume_aftermath (s := (s.popped m 1).tell _) ((State.popped_acts ..).trans hacts)
      (by rw [State.tell_log, State.popped_log]; exact List.suffix_cons _ _)
      fun _ => callFits_deiCallback m).imp fun _ => callEnded_deiCallback
  · have hdepth : 1 + m.bytes ≤ s.depth m.src := by simpa [popBytes, popSizes, modeOf] using hpops
    rw [exec_deo hdepth] at hexec
    cases hexec
    exact (callHost_resume_aftermath (s := (s.popped m _).tell _) ((State.popped_acts ..).trans hacts)
      (by rw [State.tell_log, State.popped_log]; exact List.suffix_cons _ _)
      fun _ => callFits_deoCallback m).imp fun _ => callEnded_deoCallback
  · rw [he] at hexec
    cases hexec
    have hruns : Runs MovesPcOnly p := hp _ stackClosed_movesPcOnly fun _ _ _ _ => movesPcOnly_refl rfl rfl
    exact deliver_aftermath (d := startDecoder i.opcode m s) hruns hacts rfl

end

/-! ### Steps -/

/-- How the log tells the end of the innermost activation `a` in a step from `s` (R37, R142, R143, R276). -/
inductive StepEnded (s : State) (a : Activation) (log : List Event) : Prop where
  | loopTop (r : EvalResult) (hcall : a.call = none) (hloop : loopEnd a s = some r)
      (hlog : log.head? = some (.evalReturn r))
  | broke (hcall : a.call = none) (hloop : loopEnd a s = none) (hop : s.memRead1 a.pc = 0)
      (hlog : log.head? = some (.evalReturn .broke))
  | fault (hcall : a.call = none) (hloop : loopEnd a s = none) (hlog : FaultTold (s.memRead1 a.pc) a.pc s.log log)
  | call (c : Callback) (hcall : a.call = some c) (hlog : CallEnded c.dec c.await s.log log)

/-- In a callback the host's turn is that of the call it waits in. -/
theorem hostTurn_eq_callHost {s : State} {pc : Short} {started : Bool} {d : Decoder} {aw : Await}
    {rest : List Activation} (hacts : s.acts = ⟨pc, started, some ⟨d, aw⟩⟩ :: rest)
    (k : Option Byte → State → State) : hostTurn k s = callHost d aw k s := by
  rw [callHost, State.mapInner_of_acts hacts, ← hacts]

theorem step_aftermath {s t : State} {a : Activation} {rest : List Activation} (hacts : s.acts = a :: rest)
    (hstep : step s = .next t) : Aftermath (callFits a = true) (StepEnded s a) rest t := by
  obtain ⟨pc, started, - | ⟨d, aw⟩⟩ := a
  · cases hloop : loopEnd ⟨pc, started, none⟩ s with
    | some r =>
      rw [step_loopEnd hacts hloop] at hstep
      cases hstep
      exact .ended rfl (.loopTop r rfl hloop rfl)
    | none =>
      let fetched : State := { s with acts := ⟨pc + 1, true, none⟩ :: rest }
      have hbegin : s.beginInstr = fetched := State.mapInner_of_acts hacts _
      simp only [step, hacts, hloop, hbegin] at hstep
      have hop : (s.fetch pc).opcode = s.memRead1 pc := opcode_decodeBytes ..
      by_cases hbrk : s.fetch pc = .brk
      · rw [hbrk] at hstep hop
        cases hstep
        exact .ended rfl (.broke rfl hloop hop.symm rfl)
      · refine (exec_aftermath (s := fetched) hbrk rfl hstep).imp fun log h => .fault rfl hloop ?_
        rwa [hop, BitVec.add_sub_cancel] at h
  · rw [step_waiting hacts, hostTurn_eq_callHost hacts] at hstep
    cases hstep
    exact (callHost_resume_aftermath hacts (List.suffix_refl _) id).imp fun _ => .call ⟨d, aw⟩ rfl

/-- Settles O52: none of the three ways a step leaves the activations touches an outer one. -/
theorem outerActivationsStay : Obligations.OuterActivationsStay := by
  unfold Obligations.OuterActivationsStay
  intro s t a rest hacts hstep
  cases step_aftermath hacts hstep with
  | ended hrest _ => exact .inl hrest
  | goesOn b hb _ => exact .inr (.inl ⟨b, hb⟩)
  | nested b entry hb _ => exact .inr (.inr ⟨b, entry, hb⟩)

/-- Settles O50: the innermost activation waits, if it waits, in a call that fits, and the outer ones stay. -/
theorem stepKeepsCallsFitting : Obligations.StepKeepsCallsFitting := by
  unfold Obligations.StepKeepsCallsFitting
  intro s t h hstep
  rw [State.callsFit] at h ⊢
  cases hacts : s.acts with
  | nil =>
    have hrun := hostRun_acts s.script s
    rw [step_idle hacts, hostIdle] at hstep
    rw [hacts] at hrun
    split at hstep
    · cases hstep
    all_goals
      rename_i heq
      rw [heq] at hrun
      cases hstep
      rcases hrun with ⟨-, e, ht⟩ | ⟨-, ht⟩ <;> rw [ht] <;> rfl
  | cons a rest =>
    rw [hacts, List.all_cons, Bool.and_eq_true] at h
    obtain ⟨ha, hrest⟩ := h
    cases step_aftermath hacts hstep with
    | ended ht _ => rwa [ht]
    | goesOn b ht hfits => rw [ht, List.all_cons, hfits ha, hrest]; rfl
    | nested b entry ht hfits => rw [ht, List.all_cons, List.all_cons, hfits ha, hrest]; rfl

theorem enabled_eq_true_iff (s : State) : s.enabled = true ↔ s.dev.read 0x0F ≠ 0 := by
  simp [State.enabled, Config.devEnable]

theorem enabled_eq_false_iff (s : State) : s.enabled = false ↔ s.dev.read 0x0F = 0 := by
  simp [State.enabled, Config.devEnable]

/-- The loop goes on exactly where the program counter is not 0 and the core is enabled (R140). -/
theorem loopEnd_eq_none_iff (a : Activation) (s : State) :
    loopEnd a s = none ↔ a.pc ≠ 0 ∧ s.dev.read 0x0F ≠ 0 := by
  rw [← enabled_eq_true_iff]
  unfold loopEnd
  split_ifs <;> simp_all

/-- The three results of the loop top and their causes (R37). -/
theorem loopEnd_eq_some {a : Activation} {s : State} {r : EvalResult} (h : loopEnd a s = some r) :
    (r = .notStarted ∧ a.started = false ∧ (a.pc = 0 ∨ s.dev.read 0x0F = 0)) ∨
    (r = .pcZero ∧ a.started = true ∧ a.pc = 0) ∨
    (r = .disabled ∧ a.started = true ∧ a.pc ≠ 0 ∧ s.dev.read 0x0F = 0) := by
  have henabled := enabled_eq_false_iff s
  unfold loopEnd at h
  split_ifs at h <;> simp_all

/-- Settles O53: the log of an ended activation, each of its forms with the cause that goes with it. -/
theorem activationsEndInFiveWays : Obligations.ActivationsEndInFiveWays := by
  unfold Obligations.ActivationsEndInFiveWays
  intro s t a rest hacts hstep ht
  cases step_aftermath hacts hstep with
  | goesOn b hb _ => exact absurd (hb.symm.trans ht) (List.cons_ne_self b rest)
  | nested b entry hb _ =>
    have hlength := congrArg List.length (hb.symm.trans ht)
    simp only [List.length_cons] at hlength
    omega
  | ended _ hlog =>
    cases hlog with
    | loopTop r hcall hloop hlog =>
      refine ⟨r, hlog, ?_⟩
      rcases loopEnd_eq_some hloop with ⟨rfl, h⟩ | ⟨rfl, h⟩ | ⟨rfl, h⟩
      · exact ⟨hcall, h⟩
      · exact ⟨hcall, h⟩
      · exact ⟨hcall, h⟩
    | broke hcall hloop hop hlog =>
      obtain ⟨hpc, hdev⟩ := (loopEnd_eq_none_iff a s).mp hloop
      exact ⟨.broke, hlog, hcall, hpc, hdev, hop⟩
    | fault hcall hloop hlog =>
      obtain ⟨hpc, hdev⟩ := (loopEnd_eq_none_iff a s).mp hloop
      obtain ⟨f, later, earlier, hlog, hreads⟩ := hlog
      refine ⟨.fault f, by rw [hlog]; rfl, .inr ⟨_, _, later, earlier, hlog, hreads, ?_⟩⟩
      rw [hcall]
      exact ⟨hpc, hdev, rfl, rfl⟩
    | call c hcall hlog =>
      obtain ⟨d, aw⟩ := c
      rcases hlog with ⟨f, haw, hlog⟩ | ⟨f, later, earlier, hlog, hreads⟩
      · obtain rfl : aw = .halt f := haw
        exact ⟨.fault f, hlog, .inl ⟨d, hcall⟩⟩
      · refine ⟨.fault f, by rw [hlog]; rfl, .inr ⟨_, _, later, earlier, hlog, hreads, ?_⟩⟩
        rw [hcall]
        exact ⟨rfl, rfl⟩

end Sys2Proof.Proofs
end

section
/-! The two-byte stack primitives and the last-in-first-out law (40_primitives_decoder_loop.md R121, R124, R128). -/

open Sys2Proof Sys2Proof.Machine Sys2Proof.Claims

namespace Sys2Proof.Proofs

/-! ### Short pops at any cursor -/

theorem pop16_of_cursor_le_one {k : StackId} {l : Local} (h : (l.cursor k).toNat ≤ 1) :
    pop16 k l = .raised .underflow l := by simp only [pop16, if_pos h]

theorem pop16_of_two_le_cursor {k : StackId} {l : Local} (h : 2 ≤ (l.cursor k).toNat) :
    pop16 k l = .ok
      (BitVec.ofNat 16 (256 * l.st.datum k ((l.cursor k).toNat - 2) + l.st.datum k ((l.cursor k).toNat - 1)))
      (l.setCursor k (l.cursor k - 2)) := by
  have hhigh : (l.cursor k - 2).toNat = (l.cursor k).toNat - 2 := by bv_omega
  have hlow : (l.cursor k - 1).toNat = (l.cursor k).toNat - 1 := by bv_omega
  rw [← joinBytes_ofNat (l.st.datum_lt ..) (l.st.datum_lt ..)]
  simp only [pop16, if_neg (Nat.not_le.mpr h), Stack.byte, State.datum, hhigh, hlow, BitVec.ofNat_toNat,
    BitVec.setWidth_eq]

/-- Settles O20: the push by `push16_ok` and `push16_overflow`, the pop by its two cases with the cursor of either
mode. -/
theorem shortPushAndPop : Obligations.ShortPushAndPop := by
  unfold Obligations.ShortPushAndPop
  intro l k v
  have hlt := l.st.depth_lt k
  refine ⟨fun h => push16_overflow (by omega), fun h => push16_ok (by omega), fun hkc => ?_, fun c hkc => ?_⟩
  · have hcursor := cursor_of_none hkc k
    have hnat : (l.cursor k).toNat = l.st.depth k := by rw [hcursor, BitVec.toNat_ofNat, Nat.mod_eq_of_lt hlt]
    refine ⟨fun h => pop16_of_cursor_le_one (by rwa [hnat]), fun h => ?_⟩
    rw [pop16_of_two_le_cursor (by rwa [hnat]), hnat, hcursor, ofNat8_sub_two h]
    simp only [Local.setCursor, hkc, State.shortBelow, Nat.sub_zero]
  · have hcursor := cursor_of_some hkc k
    refine ⟨fun h => pop16_of_cursor_le_one (by rwa [hcursor]), fun h => ?_⟩
    rw [pop16_of_two_le_cursor (by rwa [hcursor]), hcursor]
    simp only [Local.setCursor, hkc]

/-! ### Pops at the stored pointer -/

/-- The locals after the pointer of stack `k` has moved to `depth`. -/
def atDepth (l : Local) (k : StackId) (depth : Nat) : Local :=
  { l with st := l.st.setStack k ⟨(l.st.stack k).dat, BitVec.ofNat 8 depth⟩ }

theorem depth_atDepth (l : Local) (k : StackId) {n : Nat} (h : n < 256) : (atDepth l k n).st.depth k = n := by
  simp [atDepth, State.depth, Nat.mod_eq_of_lt h]

@[simp] theorem datum_atDepth (l : Local) (k : StackId) (n i : Nat) :
    (atDepth l k n).st.datum k i = l.st.datum k i := by
  simp [atDepth, State.datum]

theorem pop8_at_pointer {l : Local} {k : StackId} {n : Nat} (hkc : l.kc = none) (h : l.st.depth k = n + 1) :
    pop8 k l = .ok (BitVec.ofNat 8 (l.st.datum k n)) (atDepth l k n) := by
  obtain ⟨-, -, hpop, -⟩ := bytePushAndPop l k 0
  have hok := (hpop hkc).2 (by omega)
  rwa [h] at hok

theorem pop16_at_pointer {l : Local} {k : StackId} {n : Nat} (hkc : l.kc = none) (h : l.st.depth k = n + 2) :
    pop16 k l = .ok (BitVec.ofNat 16 (256 * l.st.datum k n + l.st.datum k (n + 1))) (atDepth l k n) := by
  obtain ⟨-, -, hpop, -⟩ := shortPushAndPop l k 0
  have hok := (hpop hkc).2 (by omega)
  rwa [State.shortBelow, h] at hok

/-! ### What a push has stored -/

/-- The byte on top of a stack in canonical form is the byte pushed. -/
theorem datum_withByte_top {s : State} {k : StackId} {n : Nat} (hwf : MemoriesWf s) (h : s.depth k = n) (v : Byte) :
    (s.withByte k v.toNat).datum k n = v.toNat := by
  rw [← h, State.datum_withByte_self (hwf.stack k), Nat.mod_eq_of_lt v.isLt]

theorem MemoriesWf.withByte {s : State} (hwf : MemoriesWf s) (k : StackId) (v : Nat) : MemoriesWf (s.withByte k v) :=
  hwf.setStack k (Memory.wf_write (hwf.stack k) (s.depth_lt k) _)

theorem withShort_eq (s : State) (k : StackId) (v : Short) :
    s.withShort k v.toNat = (s.withByte k (hiByte v).toNat).withByte k (loByte v).toNat := by
  rw [State.withShort, hiByte_toNat, loByte_toNat]

theorem datum_withShort_high {s : State} {k : StackId} {n : Nat} (hwf : MemoriesWf s) (h : s.depth k = n)
    (hroom : n + 2 ≤ 255) (v : Short) : (s.withShort k v.toNat).datum k n = (hiByte v).toNat := by
  have hone := s.depth_withByte k (hiByte v).toNat (by omega)
  rw [withShort_eq, State.datum_withByte_other _ _ _ (by omega), datum_withByte_top hwf h]

theorem datum_withShort_low {s : State} {k : StackId} {n : Nat} (hwf : MemoriesWf s) (h : s.depth k = n)
    (hroom : n + 2 ≤ 255) (v : Short) : (s.withShort k v.toNat).datum k (n + 1) = (loByte v).toNat := by
  have hone := s.depth_withByte k (hiByte v).toNat (by omega)
  rw [withShort_eq, datum_withByte_top (hwf.withByte k _) (hone.trans (by rw [h]))]

/-- Settles O21: the pops read where the push has just stored, and end at the old pointer. -/
theorem stacksAreLastInFirstOut : Obligations.StacksAreLastInFirstOut := by
  unfold Obligations.StacksAreLastInFirstOut
  intro l k hlegal hkc
  obtain ⟨hwf, -⟩ := (wf_iff l.st).mp hlegal
  have hlt := l.st.depth_lt k
  refine ⟨fun v hroom => ?_, fun v hroom => ?_, fun v hroom => ?_⟩
  · let pushed : Local := { l with st := l.st.withByte k v.toNat }
    have hpop := pop8_at_pointer (l := pushed) hkc (l.st.depth_withByte k v.toNat hroom)
    rw [datum_withByte_top hwf rfl, BitVec.ofNat_toNat, BitVec.setWidth_eq] at hpop
    exact ⟨_, (andThen_ok (push8_ok hroom)).trans hpop, depth_atDepth _ k hlt⟩
  · let pushed : Local := { l with st := l.st.withShort k v.toNat }
    have hpop := pop16_at_pointer (l := pushed) hkc (l.st.depth_withShort k v.toNat hroom)
    rw [datum_withShort_high hwf rfl hroom, datum_withShort_low hwf rfl hroom, ← joinBytes_toNat, joinBytes_hi_lo,
      BitVec.ofNat_toNat, BitVec.setWidth_eq] at hpop
    exact ⟨_, (andThen_ok (push16_ok hroom)).trans hpop, depth_atDepth _ k hlt⟩
  · let pushed : Local := { l with st := l.st.withShort k v.toNat }
    have hlow := pop8_at_pointer (l := pushed) (n := l.st.depth k + 1) hkc (l.st.depth_withShort k v.toNat hroom)
    rw [datum_withShort_low hwf rfl hroom, BitVec.ofNat_toNat, BitVec.setWidth_eq] at hlow
    let popped : Local := atDepth pushed k (l.st.depth k + 1)
    have hhigh := pop8_at_pointer (l := popped) hkc (depth_atDepth pushed k (by omega))
    rw [datum_atDepth, datum_withShort_high hwf rfl hroom, BitVec.ofNat_toNat, BitVec.setWidth_eq] at hhigh
    refine ⟨atDepth popped k (l.st.depth k), ?_, depth_atDepth popped k hlt⟩
    rw [andThen_ok (push16_ok hroom), andThen_ok hlow, andThen_ok hhigh, done_run]

end Sys2Proof.Proofs
end

section
/-! The whole next state of every instruction without a callback, where it has its operands and room: pops, and then
what the instruction does with the items popped. -/

open Sys2Proof Sys2Proof.Machine Sys2Proof.Claims

namespace Sys2Proof.Proofs

/-! ### Pops, then the rest -/

theorem eq_ofNat_of_toNat_eq {w n : Nat} {v : BitVec w} (h : v.toNat = n) : v = BitVec.ofNat w n := by
  subst h; simp

theorem sum_pair (m : Mode) : [m.bytes, m.bytes].sum = 2 * m.bytes := by simp [Nat.two_mul]

theorem sum_triple (m : Mode) : [m.bytes, m.bytes, m.bytes].sum = 3 * m.bytes := by
  rw [List.sum_cons, sum_pair]; omega

/-- An instruction that makes its pops and then ends without a fault. -/
theorem runMicro_of_pops {i : Instr} {m : Mode} {s : State} {x r : Micro Unit} {ns : List Nat} {p : Nat} {t : State}
    (hpops : PopsThen m s 0 ns x r) (hsum : ns.sum = p) (hdepth : p ≤ s.depth m.src)
    (hrest : r (popLocal m s p) = .ok () ⟨t, (popLocal m s p).kc⟩) : runMicro i m x s = .next t := by
  subst hsum
  exact runMicro_ok ((hpops.run hdepth).trans hrest)

/-- An instruction that makes its pops and then raises a fault. -/
theorem runMicro_raise_after_pops {i : Instr} {m : Mode} {s : State} {x r : Micro Unit} {ns : List Nat} {p : Nat}
    {f : VmFault} (hpops : PopsThen m s 0 ns x r) (hsum : ns.sum = p) (hdepth : p ≤ s.depth m.src)
    (hscript : s.script = []) (hrest : r (popLocal m s p) = .raised f (popLocal m s p)) :
    runMicro i m x s = .next ((s.popped m p).afterFault i.opcode f) := by
  subst hsum
  exact congrArg _ (deliverThen_afterFault (by simpa) (by simp) (.of_run (hpops.run hdepth) (.of_raised hrest)))

section
variable {m : Mode} {s : State} {p n : Nat}

/-- One item pushed to the source stack after the pops. -/
theorem pushValue_after_pops {v : Short} (hv : v.toNat = n) (hn : n < 2 ^ m.width) (hroom : s.room m p m.bytes) :
    pushValue m m.src v (popLocal m s p) =
      .ok () ⟨(s.popped m p).withItem m m.src n, (popLocal m s p).kc⟩ := by
  subst hv
  exact pushValue_popLocal hroom hn

/-- One byte pushed to the source stack after the pops. -/
theorem push8_after_pops {v : Byte} (hv : v.toNat = n) (hroom : s.room m p 1) :
    push8 m.src v (popLocal m s p) = .ok () ⟨(s.popped m p).withByte m.src n, (popLocal m s p).kc⟩ := by
  subst hv
  exact push8_ok (by rw [popLocal_st, State.depth_popped]; exact hroom)

end

/-- Items pushed in order, where there is room for them all. -/
theorem pushItems_ok {m : Mode} {k : StackId} {v : Nat} {vs : List Nat} {l : Local}
    (hitems : ∀ w ∈ v :: vs, w < 2 ^ m.width) (hroom : l.st.depth k + (v :: vs).length * m.bytes ≤ 255) :
    pushItems m k v vs l = .ok () ⟨withItems l.st m k (v :: vs), l.kc⟩ := by
  induction vs generalizing v l with
  | nil =>
    have hv : v < 2 ^ m.width := hitems v (by simp)
    have hnat : (BitVec.ofNat 16 v).toNat = v := ofNat16_toNat (lt_short_of_width hv)
    have hpush := pushValue_ok (m := m) (k := k) (v := BitVec.ofNat 16 v) (l := l) (by simpa using hroom)
      (by rwa [hnat])
    rw [hnat] at hpush
    exact hpush
  | cons w ws ih =>
    obtain ⟨hv, hws⟩ := List.forall_mem_cons.mp hitems
    have hnat : (BitVec.ofNat 16 v).toNat = v := ofNat16_toNat (lt_short_of_width hv)
    rw [List.length_cons, Nat.succ_mul] at hroom
    have hpush := pushValue_ok (m := m) (k := k) (v := BitVec.ofNat 16 v) (l := l) (by omega) (by rwa [hnat])
    rw [hnat] at hpush
    have hdepth := l.st.depth_withItem m k v (by omega)
    exact (andThen_ok hpush).trans (ih hws (by rw [hdepth]; omega))

@[simp] theorem withItems_acts (s : State) (m : Mode) (k : StackId) (vs : List Nat) :
    (withItems s m k vs).acts = s.acts := by
  induction vs generalizing s with
  | nil => rfl
  | cons v vs ih => exact (ih _).trans (s.withItem_acts m k v)

@[simp] theorem withItems_log (s : State) (m : Mode) (k : StackId) (vs : List Nat) :
    (withItems s m k vs).log = s.log := by
  induction vs generalizing s with
  | nil => rfl
  | cons v vs ih => exact (ih _).trans (s.withItem_log m k v)

@[simp] theorem withItems_faultSeen (s : State) (m : Mode) (k : StackId) (vs : List Nat) :
    (withItems s m k vs).faultSeen = s.faultSeen := by
  induction vs generalizing s with
  | nil => rfl
  | cons v vs ih => exact (ih _).trans (s.withItem_faultSeen m k v)

/-- An instruction that pops `p` bytes and then pushes items. -/
theorem runMicro_pushItems {i : Instr} {m : Mode} {s : State} {x : Micro Unit} {ns : List Nat} {p q v : Nat}
    {vs : List Nat} (hpops : PopsThen m s 0 ns x (pushItems m m.src v vs)) (hsum : ns.sum = p)
    (hitems : ∀ w ∈ v :: vs, w < 2 ^ m.width) (hlength : (v :: vs).length * m.bytes = q) (hdepth : p ≤ s.depth m.src)
    (hroom : s.room m p q) : runMicro i m x s = .next (withItems (s.popped m p) m m.src (v :: vs)) := by
  subst hlength
  exact runMicro_of_pops hpops hsum hdepth (pushItems_ok hitems (by rw [popLocal_st, State.depth_popped]; exact hroom))

/-! ### Shuffles -/

/-- Settles O27: INC pushes a sum; POP pushes nothing; the others push back items they have popped. -/
theorem shuffleResults : Obligations.ShuffleResults := by
  unfold Obligations.ShuffleResults
  intro s m
  refine ⟨fun hdepth hroom => ?_, fun hdepth => ?_, fun hdepth hroom => ?_, fun hdepth hroom => ?_,
    fun hdepth hroom => ?_, fun hdepth hroom => ?_, fun hdepth hroom => ?_⟩
  · exact runMicro_of_pops (.pop (isPop_popValue m) .rest) List.sum_singleton hdepth
      (pushValue_after_pops (aluInc_toNat (s.item_lt m 0)) (mod_width_lt m _) hroom)
  · exact runMicro_of_pops (.pop (isPop_popValue m) .rest) List.sum_singleton hdepth (done_run () _)
  · exact runMicro_pushItems (vs := []) (.pop (isPop_popValue m) (.pop (isPop_popValue m) .rest)) (sum_pair m)
      (by simp [State.item_lt]) (Nat.one_mul _) hdepth hroom
  · exact runMicro_pushItems (vs := [_]) (.pop (isPop_popValue m) (.pop (isPop_popValue m) .rest)) (sum_pair m)
      (by simp [State.item_lt]) rfl hdepth hroom
  · rw [Nat.two_mul]
    exact runMicro_pushItems (vs := [_, _])
      (.pop (isPop_popValue m) (.pop (isPop_popValue m) (.pop (isPop_popValue m) .rest))) (sum_triple m)
      (by simp [State.item_lt]) rfl hdepth hroom
  · exact runMicro_pushItems (vs := [_]) (.pop (isPop_popValue m) .rest) List.sum_singleton (by simp [State.item_lt])
      rfl hdepth hroom
  · exact runMicro_pushItems (vs := [_, _]) (.pop (isPop_popValue m) (.pop (isPop_popValue m) .rest)) (sum_pair m)
      (by simp [State.item_lt]) rfl hdepth hroom

/-! ### Two operands, one result -/

section
variable {i : Instr} {m : Mode} {s : State} {n : Nat}

theorem item_lt_short (s : State) (m : Mode) (o : Nat) : s.item m o < 65536 := lt_short_of_width (s.item_lt m o)

/-- The shape of the two-operand instructions. -/
theorem runMicro_combineWith {f : Short → Short → Short} (hdepth : 2 * m.bytes ≤ s.depth m.src)
    (hroom : s.room m (2 * m.bytes) m.bytes)
    (hf : (f (BitVec.ofNat 16 (s.item m m.bytes)) (BitVec.ofNat 16 (s.item m 0))).toNat = n) (hn : n < 2 ^ m.width) :
    runMicro i m (combineWith m f) s = .next ((s.popped m (2 * m.bytes)).withItem m m.src n) :=
  runMicro_of_pops (.pop (isPop_popValue m) (.pop (isPop_popValue m) .rest)) (sum_pair m) hdepth
    (pushValue_after_pops hf hn hroom)

/-- The shape of the comparisons. -/
theorem runMicro_compareWith {f : Short → Short → Byte} (hdepth : 2 * m.bytes ≤ s.depth m.src)
    (hroom : s.room m (2 * m.bytes) 1)
    (hf : (f (BitVec.ofNat 16 (s.item m m.bytes)) (BitVec.ofNat 16 (s.item m 0))).toNat = n) :
    runMicro i m (compareWith m f) s = .next ((s.popped m (2 * m.bytes)).withByte m.src n) :=
  runMicro_of_pops (.pop (isPop_popValue m) (.pop (isPop_popValue m) .rest)) (sum_pair m) hdepth
    (push8_after_pops hf hroom)

end

/-- Settles O28: the byte pushed is the comparison of the two items as numbers. -/
theorem comparisonResults : Obligations.ComparisonResults := by
  unfold Obligations.ComparisonResults
  intro s m hdepth hroom
  have hdeep := item_lt_short s m m.bytes
  have htop := item_lt_short s m 0
  exact ⟨runMicro_compareWith hdepth hroom (cmpEqu_toNat hdeep htop),
    runMicro_compareWith hdepth hroom (cmpNeq_toNat hdeep htop),
    runMicro_compareWith hdepth hroom (cmpGth_toNat hdeep htop),
    runMicro_compareWith hdepth hroom (cmpLth_toNat hdeep htop)⟩

theorem aluSub_lt (m : Mode) (a b : Short) : (aluSub m a b).toNat < 2 ^ m.width := by
  rw [aluSub, truncTo_toNat]; exact mod_width_lt m _

/-- Settles O39: the item pushed is the sum, the difference or the product of the two items modulo the width. -/
theorem arithmeticResults : Obligations.ArithmeticResults := by
  unfold Obligations.ArithmeticResults
  intro s m hdepth hroom
  have hdeep := s.item_lt m m.bytes
  have htop := s.item_lt m 0
  exact ⟨runMicro_combineWith hdepth hroom (aluAdd_toNat hdeep htop) (mod_width_lt m _),
    runMicro_combineWith hdepth hroom (aluSub_toNat hdeep htop) (aluSub_toNat hdeep htop ▸ aluSub_lt m _ _),
    runMicro_combineWith hdepth hroom (aluMul_toNat hdeep htop) (mod_width_lt m _)⟩

/-- Settles O41: the item pushed combines the two items bit by bit. -/
theorem bitwiseResults : Obligations.BitwiseResults := by
  unfold Obligations.BitwiseResults
  intro s m hdepth hroom
  have hdeep := item_lt_short s m m.bytes
  have htop := item_lt_short s m 0
  exact ⟨runMicro_combineWith hdepth hroom (aluAnd_toNat hdeep htop) (Nat.and_lt_two_pow _ (s.item_lt m 0)),
    runMicro_combineWith hdepth hroom (aluOra_toNat hdeep htop) (Nat.or_lt_two_pow (s.item_lt m _) (s.item_lt m 0)),
    runMicro_combineWith hdepth hroom (aluEor_toNat hdeep htop) (Nat.xor_lt_two_pow (s.item_lt m _) (s.item_lt m 0))⟩

/-- The divisor that DIV tests is the top item. -/
theorem ofNat_item_eq_zero_iff (s : State) (m : Mode) (o : Nat) :
    BitVec.ofNat 16 (s.item m o) = 0 ↔ s.item m o = 0 := by
  rw [← BitVec.toNat_inj, item_toNat]; rfl

/-- Settles O40: the divisor is not 0, so DIV goes on to push the quotient. -/
theorem divisionResult : Obligations.DivisionResult := by
  unfold Obligations.DivisionResult
  intro s m hdepth hdivisor hroom
  have hne : BitVec.ofNat 16 (s.item m 0) ≠ 0 := (ofNat_item_eq_zero_iff s m 0).not.mpr hdivisor
  refine runMicro_of_pops (.pop (isPop_popValue m) (.pop (isPop_popValue m) .rest)) (sum_pair m) hdepth ?_
  exact (congrFun (if_neg hne) _).trans (pushValue_after_pops
    (aluDiv_toNat (item_lt_short s m _) (item_lt_short s m 0))
    (Nat.lt_of_le_of_lt (Nat.div_le_self _ _) (s.item_lt m _)) hroom)

/-- Settles O45: the divisor is 0, so DIV raises the fault after its pops. -/
theorem divisionByZero : Obligations.DivisionByZero := by
  unfold Obligations.DivisionByZero
  intro s m hscript hdepth hdivisor
  have hzero : BitVec.ofNat 16 (s.item m 0) = 0 := (ofNat_item_eq_zero_iff s m 0).mpr hdivisor
  exact runMicro_raise_after_pops (.pop (isPop_popValue m) (.pop (isPop_popValue m) .rest)) (sum_pair m) hdepth hscript
    (congrFun (if_pos hzero) _)

/-- Settles O42: the control byte is on top of the item that is shifted. -/
theorem shiftResult : Obligations.ShiftResult := by
  unfold Obligations.ShiftResult
  intro s m hdepth hroom
  exact runMicro_of_pops (.pop (isPop_pop8 m) (.pop (isPop_popValue m) .rest)) (by simp) hdepth
    (pushValue_after_pops (aluSft_toNat (s.item_lt m 1) (s.byteBelow_lt m.src 0)) (mod_width_lt m _) hroom)

/-! ### Jumps, calls and stash -/

section
variable {s : State} {pc1 : Short} {started : Bool} {call : Option Callback} {rest : List Activation}
  (hacts : s.acts = ⟨pc1, started, call⟩ :: rest)
include hacts

theorem setPc_popped (m : Mode) (p : Nat) (t : Short) :
    (s.popped m p).setPc t = { s.popped m p with acts := ⟨t, started, call⟩ :: rest } :=
  State.setPc_of_acts ((State.popped_acts ..).trans hacts) t

/-- The target of a jump to the popped item (R134). -/
theorem jumpTarget_item (m : Mode) (o : Nat) : jumpTarget m s.pc (BitVec.ofNat 16 (s.item m o)) =
    BitVec.ofNat 16 (if m.short then s.item m o else relativeTo pc1.toNat (s.item m o)) := by
  rw [State.pc_of_acts hacts]
  exact eq_ofNat_of_toNat_eq (jumpTarget_toNat pc1 (s.item_lt m o))

theorem exec_jmp {m : Mode} (hdepth : m.bytes ≤ s.depth m.src) : exec (.jmp m) s = .next { s.popped m m.bytes with
    acts := ⟨BitVec.ofNat 16 (if m.short then s.item m 0 else relativeTo pc1.toNat (s.item m 0)), started, call⟩ ::
      rest } := by
  rw [← jumpTarget_item hacts, ← setPc_popped hacts, ← State.popped_pc s m m.bytes]
  exact runMicro_of_pops (.pop (isPop_popValue m) .rest) List.sum_singleton hdepth (jump_run ..)

theorem exec_jcn {m : Mode} (hdepth : m.bytes + 1 ≤ s.depth m.src) :
    exec (.jcn m) s = .next { s.popped m (m.bytes + 1) with
      acts := ⟨BitVec.ofNat 16 (if s.byteBelow m.src m.bytes = 0 then pc1.toNat
        else if m.short then s.item m 0 else relativeTo pc1.toNat (s.item m 0)), started, call⟩ :: rest } := by
  have hcondition := isTrue_ofNat (s.byteBelow_lt m.src m.bytes)
  have hrun {t : State} (hrest : (if isTrue (BitVec.ofNat 8 (s.byteBelow m.src m.bytes)) then
      jump m (BitVec.ofNat 16 (s.item m 0)) else done ()) (popLocal m s (m.bytes + 1)) =
      .ok () ⟨t, (popLocal m s (m.bytes + 1)).kc⟩) :
      exec (.jcn m) s = .next t :=
    runMicro_of_pops (.pop (isPop_popValue m) (.pop (isPop_pop8 m) .rest)) (by simp) hdepth hrest
  by_cases hzero : s.byteBelow m.src m.bytes = 0
  · have hstay : (if s.byteBelow m.src m.bytes = 0 then pc1.toNat
        else if m.short then s.item m 0 else relativeTo pc1.toNat (s.item m 0)) = s.pc.toNat := by
      rw [if_pos hzero, State.pc_of_acts hacts]
    rw [hstay, ← setPc_popped hacts, BitVec.ofNat_toNat, BitVec.setWidth_eq,
      ← State.popped_pc s m (m.bytes + 1), setPc_pc]
    exact hrun (by rw [if_neg (by rw [hcondition]; simp [hzero])]; exact done_run ..)
  · rw [if_neg hzero, ← jumpTarget_item hacts, ← setPc_popped hacts, ← State.popped_pc s m (m.bytes + 1)]
    exact hrun (by rw [if_pos (by rw [hcondition]; simp [hzero])]; exact jump_run ..)

theorem exec_jsr {m : Mode} (hdepth : m.bytes ≤ s.depth m.src) (hroom : s.depth m.dst + 2 ≤ 255) :
    exec (.jsr m) s = .next { (s.popped m m.bytes).withShort m.dst pc1.toNat with
      acts := ⟨BitVec.ofNat 16 (if m.short then s.item m 0 else relativeTo pc1.toNat (s.item m 0)), started, call⟩ ::
        rest } := by
  have hpc : (s.popped m m.bytes).pc = pc1 := (State.popped_pc ..).trans (State.pc_of_acts hacts)
  have hacts' : ((s.popped m m.bytes).withShort m.dst pc1.toNat).acts = ⟨pc1, started, call⟩ :: rest := by
    rw [State.withShort_acts, State.popped_acts, hacts]
  rw [← jumpTarget_item hacts, ← State.setPc_of_acts hacts', ← State.popped_pc s m m.bytes,
    ← State.withShort_pc (s.popped m m.bytes) m.dst pc1.toNat]
  refine runMicro_of_pops (.pop (isPop_popValue m) .rest) List.sum_singleton hdepth
    ((andThen_ok (getPc_run _)).trans ?_)
  rw [andThen_ok (push16_ok (by rwa [popLocal_st, State.depth_dst_popped])), jump_run, popLocal_st, hpc]

end

/-- Settles O29: `exec_jmp` and `exec_jcn`. -/
theorem jumpResults : Obligations.JumpResults := by
  unfold Obligations.JumpResults
  exact fun s m pc1 started call rest hacts => ⟨exec_jmp hacts, exec_jcn hacts⟩

/-- Settles O30: `exec_jsr`; STH pushes the popped item to the other stack. -/
theorem callAndStashResults : Obligations.CallAndStashResults := by
  unfold Obligations.CallAndStashResults
  intro s m pc1 started call rest hacts hdepth
  refine ⟨exec_jsr hacts hdepth, fun hroom => ?_⟩
  have hpush := pushValue_ok (m := m) (k := m.dst) (v := BitVec.ofNat 16 (s.item m 0)) (l := popLocal m s m.bytes)
    (by rwa [popLocal_st, State.depth_dst_popped]) (by rw [item_toNat]; exact s.item_lt m 0)
  rw [item_toNat] at hpush
  exact runMicro_of_pops (.pop (isPop_popValue m) .rest) List.sum_singleton hdepth hpush

/-- Settles O24: JCI's byte is popped before the jump, JSI's return address is pushed before it. -/
theorem immediateConditionalJumpAndCall : Obligations.ImmediateConditionalJumpAndCall := by
  unfold Obligations.ImmediateConditionalJumpAndCall
  intro s off pc1 started call rest hacts
  have hpc : s.pc = pc1 := State.pc_of_acts hacts
  refine ⟨fun hdepth => ?_, fun hroom => ?_⟩
  · have htarget : (if isTrue (BitVec.ofNat 8 (s.byteBelow .wst 0)) then immediateTarget pc1 off
        else afterImmediate2 pc1) = pcPlus pc1 (if s.byteBelow .wst 0 ≠ 0 then 2 + off.toNat else 2) := by
      rw [isTrue_ofNat (s.byteBelow_lt .wst 0), immediateTarget_eq_pcPlus, afterImmediate2]
      by_cases hzero : s.byteBelow .wst 0 = 0
      · simp [hzero, pcPlus_eq]
      · simp [hzero]
    rw [← htarget, ← setPc_popped hacts, ← hpc, ← State.popped_pc s .plain 1]
    exact runMicro_of_pops (.pop (isPop_pop8 .plain) .rest) List.sum_singleton hdepth (putPc_run ..)
  · have hacts' : (s.withShort .rst (pcPlus pc1 2).toNat).acts = ⟨pc1, started, call⟩ :: rest := by
      rw [State.withShort_acts, hacts]
    have hreturn : afterImmediate2 s.pc = pcPlus pc1 2 := by rw [hpc, pcPlus_eq]; rfl
    have hstart : popLocal .plain s 0 = ⟨s, none⟩ := (start_popLocal 0 .plain s).symm
    rw [← State.setPc_of_acts hacts', ← immediateTarget_eq_pcPlus, ← hreturn, ← hpc]
    refine runMicro_of_pops (p := 0) .rest rfl (Nat.zero_le _) ?_
    rw [hstart, andThen_ok (getPc_run _)]
    exact andThen_ok (push16_ok hroom)

/-- Settles O25: each is the literal of one width for one stack. -/
theorem literalsArePushed : Obligations.LiteralsArePushed := by
  unfold Obligations.LiteralsArePushed
  exact fun s b v pc1 started call rest hacts => ⟨exec_byteLiteral_ok (k := .wst) hacts,
    exec_shortLiteral_ok (k := .wst) hacts, exec_byteLiteral_ok (k := .rst) hacts,
    exec_shortLiteral_ok (k := .rst) hacts⟩

end Sys2Proof.Proofs
end

section
/-! Loads and stores (45_memory_ops.md): the whole next state, the frame of a store, and its fetch (20_memory.md
R68). -/

open Sys2Proof Sys2Proof.Machine Sys2Proof.Claims

namespace Sys2Proof.Proofs

/-! ### Loads -/

theorem relativeTo_lt (pc1 o : Nat) : relativeTo pc1 o < 65536 := by unfold relativeTo; omega

section
variable {m : Mode} {s : State} {p : Nat}

/-- A load's rest, after its pops: the item at the address is pushed. -/
theorem peek_push_after_pops {ea : Short} {a : Nat} (ha : ea.toNat = a) (hroom : s.room m p m.bytes) :
    andThen (peek m ea) (fun v => pushValue m m.src v) (popLocal m s p) =
      .ok () ⟨(s.popped m p).withItem m m.src (s.ramItem m a), (popLocal m s p).kc⟩ := by
  subst ha
  have hlt := s.ramItem_lt m ea.toNat
  rw [andThen_ok (peek_ramItem ..), popLocal_st, State.ramItem_popped]
  exact pushValue_after_pops (ofNat16_toNat (lt_short_of_width hlt)) hlt hroom

/-- A store's rest, after its pops: the item popped is stored at the address. -/
theorem poke_after_pops (ea : Short) (o : Nat) :
    poke m ea (BitVec.ofNat 16 (s.item m o)) (popLocal m s p) =
      .ok () ⟨(s.popped m p).withRamItem m ea.toNat (s.item m o), (popLocal m s p).kc⟩ := by
  rw [poke_withRamItem, popLocal_st, item_toNat]

end

theorem eaAbsolute_shortBelow (s : State) (k : StackId) :
    (eaAbsolute (BitVec.ofNat 16 (s.shortBelow k 0))).toNat = s.shortBelow k 0 := ofNat16_toNat (s.shortBelow_lt k 0)

theorem eaRelative_byteBelow (s : State) (k : StackId) (pc1 : Short) :
    (eaRelative pc1 (BitVec.ofNat 8 (s.byteBelow k 0))).toNat = relativeTo pc1.toNat (s.byteBelow k 0) :=
  eaRelative_toNat pc1 (s.byteBelow_lt k 0)

/-- Settles O31: the address popped is the one the item is read at. -/
theorem loadResults : Obligations.LoadResults := by
  unfold Obligations.LoadResults
  intro s m pc1 started call rest hacts
  have hpc : (s.popped m 1).pc = pc1 := (State.popped_pc ..).trans (State.pc_of_acts hacts)
  refine ⟨fun hdepth hroom => ?_, fun hdepth hroom => ?_, fun hdepth hroom => ?_⟩
  · exact runMicro_of_pops (.pop (isPop_pop8 m) .rest) List.sum_singleton hdepth
      (peek_push_after_pops (eaZero_toNat (s.byteBelow_lt _ _)) hroom)
  · refine runMicro_of_pops (.pop (isPop_pop8 m) .rest) List.sum_singleton hdepth
      ((andThen_ok (getPc_run _)).trans ?_)
    rw [popLocal_st, hpc]
    exact peek_push_after_pops (eaRelative_byteBelow s m.src pc1) hroom
  · exact runMicro_of_pops (.pop (isPop_pop16 m) .rest) List.sum_singleton hdepth
      (peek_push_after_pops (eaAbsolute_shortBelow s m.src) hroom)

/-! ### Stores -/

@[simp] theorem withRamItem_acts (s : State) (m : Mode) (a v : Nat) : (s.withRamItem m a v).acts = s.acts := by
  unfold State.withRamItem; split <;> rfl
@[simp] theorem withRamItem_log (s : State) (m : Mode) (a v : Nat) : (s.withRamItem m a v).log = s.log := by
  unfold State.withRamItem; split <;> rfl
@[simp] theorem withRamItem_faultSeen (s : State) (m : Mode) (a v : Nat) :
    (s.withRamItem m a v).faultSeen = s.faultSeen := by
  unfold State.withRamItem; split <;> rfl

/-- Instruction `i` is a store in modes `m` whose address `ea` takes `p` bytes on top of the source stack of `s`
(R226). -/
def StoresAt (s : State) (m : Mode) (i : Instr) (ea : Short) (p : Nat) : Prop :=
  i = .stz m ∧ ea = eaZero (BitVec.ofNat 8 (s.byteBelow m.src 0)) ∧ p = 1 ∨
    i = .str m ∧ ea = eaRelative s.pc (BitVec.ofNat 8 (s.byteBelow m.src 0)) ∧ p = 1 ∨
    i = .sta m ∧ ea = eaAbsolute (BitVec.ofNat 16 (s.shortBelow m.src 0)) ∧ p = 2

/-- A store with its operands stores the item below the address, and changes nothing else but the pointer. -/
theorem exec_store {s : State} {m : Mode} {i : Instr} {ea : Short} {p : Nat} (h : StoresAt s m i ea p)
    (hdepth : p + m.bytes ≤ s.depth m.src) :
    exec i s = .next ((s.popped m (p + m.bytes)).withRamItem m ea.toNat (s.item m p)) := by
  rcases h with ⟨rfl, rfl, rfl⟩ | ⟨rfl, rfl, rfl⟩ | ⟨rfl, rfl, rfl⟩
  · exact runMicro_of_pops (.pop (isPop_pop8 m) (.pop (isPop_popValue m) .rest)) (by simp) hdepth (poke_after_pops _ _)
  · refine runMicro_of_pops (.pop (isPop_pop8 m) (.pop (isPop_popValue m) .rest)) (by simp) hdepth
      ((andThen_ok (getPc_run _)).trans ?_)
    rw [popLocal_st, State.popped_pc]
    exact poke_after_pops _ _
  · exact runMicro_of_pops (.pop (isPop_pop16 m) (.pop (isPop_popValue m) .rest)) (by simp) hdepth (poke_after_pops _ _)

/-- Settles O32: `exec_store` with the address as a number. -/
theorem storeResults : Obligations.StoreResults := by
  unfold Obligations.StoreResults
  intro s m pc1 started call rest hacts
  obtain rfl : s.pc = pc1 := State.pc_of_acts hacts
  refine ⟨fun hdepth => ?_, fun hdepth => ?_, fun hdepth => ?_⟩
  · rw [exec_store (.inl ⟨rfl, rfl, rfl⟩) hdepth, eaZero_toNat (s.byteBelow_lt _ _)]
  · rw [exec_store (.inr (.inl ⟨rfl, rfl, rfl⟩)) hdepth, eaRelative_byteBelow]
  · rw [exec_store (.inr (.inr ⟨rfl, rfl, rfl⟩)) hdepth, eaAbsolute_shortBelow]

/-- Settles O33: what a memory in canonical form reads after the write that `exec_store` makes. -/
theorem storesLeaveOtherBytes : Obligations.StoresLeaveOtherBytes := by
  unfold Obligations.StoresLeaveOtherBytes
  intro s t m i ea p hwf h hdepth hexec
  rw [exec_store h hdepth] at hexec
  cases hexec
  have hmem : (s.popped m (p + m.bytes)).mem.wf Config.bufferSize = true := by
    rw [State.popped_mem]; exact mem_wf_of_wf hwf
  obtain ⟨hother, hstored⟩ := State.withRamItem_reads hmem ea.isLt (s.item_lt m p)
  refine ⟨fun a ha hnext => ?_, hstored⟩
  rw [ramKey_eq] at ha
  have hsecond : m.short = true → a ≠ (ea.toNat + 1) % 65536 := fun hshort ha' =>
    hnext hshort (by rw [ramKey_eq, BitVec.toNat_add, ha']; rfl)
  rw [hother a ha hsecond, State.popped_mem]

/-! ### A stored opcode byte is fetched -/

/-- Offset 0 is the byte after the opcode byte. -/
theorem eaRelative_zero (pc1 : Short) : eaRelative pc1 (BitVec.ofNat 8 0) = pc1 := by
  exact BitVec.add_zero pc1

/-- A byte-mode store is a write of one byte. -/
theorem withRamItem_byte {m : Mode} (hbyte : m.short = false) (s : State) (a : Short) (v : Nat) :
    s.withRamItem m a.toNat v = s.memWrite1 a (BitVec.ofNat 8 v) := by
  rw [State.withRamItem, hbyte, if_neg Bool.false_ne_true, State.memWrite1, ramKey_eq]

/-- Settles O34: `exec_store` leaves the activation at `pc1`, where the next step reads the stored byte. -/
theorem storesAreFetched : Obligations.StoresAreFetched := by
  unfold Obligations.StoresAreFetched
  intro s t r k pc1 started rest hwf hacts hpc henabled hdepth hoffset hexec
  let m : Mode := ⟨false, r, k⟩
  let v : Byte := BitVec.ofNat 8 (s.byteBelow m.src 1)
  have hea : eaRelative s.pc (BitVec.ofNat 8 (s.byteBelow m.src 0)) = pc1 := by
    rw [hoffset, State.pc_of_acts hacts, eaRelative_zero]
  have hstored : exec (.str m) s = .next ((s.popped m 2).memWrite1 pc1 v) := by
    rw [exec_store (m := m) (p := 1) (.inr (.inl ⟨rfl, rfl, rfl⟩)) hdepth, hea, withRamItem_byte rfl]; rfl
  cases hstored.symm.trans hexec
  have hmem : (s.popped m 2).mem.wf Config.bufferSize = true := by rw [State.popped_mem]; exact mem_wf_of_wf hwf
  have hread (c : Short) (hc : c ≠ pc1) : ((s.popped m 2).memWrite1 pc1 v).memRead1 c = s.memRead1 c := by
    rw [memRead1_memWrite1_other _ _ hc, State.memRead1, State.popped_mem, State.memRead1]
  have hruns : runsAt ((s.popped m 2).memWrite1 pc1 v) pc1 started rest := by
    refine ⟨(State.popped_acts ..).trans hacts, hpc, ?_⟩
    rw [State.enabled, State.memWrite1_dev, State.popped_dev]
    exact henabled
  rw [step_running hruns, State.fetch, memRead1_memWrite1_same hmem, hread _ (by bv_omega), hread _ (by bv_omega)]

end Sys2Proof.Proofs
end

section
/-! Devices (46_device.md): a DEI or DEO makes its calls, and ends when the host has returned from the last of them. -/

open Sys2Proof Sys2Proof.Machine Sys2Proof.Claims

namespace Sys2Proof.Proofs

/-! ### Ports and values as numbers -/

theorem nextPort_ofNat {n : Nat} (h : n < 256) : nextPort (BitVec.ofNat 8 n) = BitVec.ofNat 8 ((n + 1) % 256) := by
  rw [nextPort, BitVec.toNat_ofNat, Nat.mod_eq_of_lt h]

theorem nextPort_deiPort (m : Mode) (s : State) :
    nextPort (deiPort m s) = BitVec.ofNat 8 ((s.byteBelow m.src 0 + 1) % 256) := nextPort_ofNat (s.byteBelow_lt _ _)

theorem loByte_deoValue (m : Mode) (s : State) : loByte (deoValue m s) = BitVec.ofNat 8 (s.item m 1 % 256) :=
  eq_ofNat_of_toNat_eq (by rw [loByte_toNat, deoValue, item_toNat])

theorem hiByte_deoValue (m : Mode) (s : State) : hiByte (deoValue m s) = BitVec.ofNat 8 (s.item m 1 / 256) :=
  eq_ofNat_of_toNat_eq (by rw [hiByte_toNat, deoValue, item_toNat])

/-! ### DEI -/

section
variable {s : State} {m : Mode} {pc1 : Short} {started : Bool} {rest : List Activation}
  (hacts : s.acts = ⟨pc1, started, none⟩ :: rest)
include hacts

/-- The machine that has popped the operands and told the host of the first call: the caller is still awake. -/
theorem acts_tell_popped (p : Nat) (e : Event) : ((s.popped m p).tell e).acts = ⟨pc1, started, none⟩ :: rest :=
  (State.popped_acts ..).trans hacts

theorem exec_dei_byte_ret {v : Byte} {l : List HostAction} (hdepth : 1 ≤ s.depth m.src) (hroom : s.room m 1 m.bytes)
    (hbyte : m.short = false) (hs : s.script = .ret v :: l) : exec (.dei m) s = .next ({ s.popped m 1 with
      script := l, log := .deviceIn (deiPort m s) :: s.log }.withByte m.src v.toNat) := by
  have hawait : (deiCallback m s).await = .deiByte := by simp [deiCallback, hbyte]
  have hroom' : (s.popped m 1).depth m.src + 1 ≤ 255 := by
    rw [State.depth_popped]; simpa [State.room, Mode.bytes, hbyte] using hroom
  rw [exec_dei hdepth, hawait, deviceIn,
    callHost_awake_ret (acts_tell_popped hacts ..) ((State.popped_script ..).trans hs),
    ← State.popped_log s m 1]
  exact congrArg _ (afterDeiByte_some hroom')

theorem exec_dei_short_ret {v w : Byte} {l : List HostAction} (hdepth : 1 ≤ s.depth m.src)
    (hroom : s.room m 1 m.bytes) (hshort : m.short = true) (hs : s.script = .ret v :: .ret w :: l) :
    exec (.dei m) s = .next ({ s.popped m 1 with
      script := l
      log := .deviceIn (nextPort (deiPort m s)) :: .deviceIn (deiPort m s) :: s.log }.withShort m.src
        (256 * v.toNat + w.toNat)) := by
  have hawait : (deiCallback m s).await = .deiHigh (deiPort m s) := by simp [deiCallback, hshort]
  have hroom' : (s.popped m 1).depth m.src < 254 := by
    rw [State.room, Mode.bytes, if_pos hshort] at hroom
    rw [State.depth_popped]; omega
  let asked : State := { (s.popped m 1).tell (.deviceIn (deiPort m s)) with script := .ret w :: l }
  rw [exec_dei hdepth, hawait, deviceIn,
    callHost_awake_ret (acts_tell_popped hacts ..) ((State.popped_script ..).trans hs),
    resume, afterDeiHigh_some,
    callHost_awake_ret (s := asked.tell _) (acts_tell_popped hacts 1 (.deviceIn (deiPort m s))) rfl,
    ← State.popped_log s m 1]
  exact congrArg _ (afterDeiLow_some hroom')

theorem exec_dei_byte_silent (hdepth : 1 ≤ s.depth m.src) (hroom : s.room m 1 m.bytes) (hbyte : m.short = false)
    (hs : s.script = []) : ∃ (v : Byte) (n : Nat), exec (.dei m) s = .next ({ s.popped m 1 with
      freeCount := n, log := .deviceIn (deiPort m s) :: s.log }.withByte m.src v.toNat) := by
  have hawait : (deiCallback m s).await = .deiByte := by simp [deiCallback, hbyte]
  have hroom' : (s.popped m 1).depth m.src + 1 ≤ 255 := by
    rw [State.depth_popped]; simpa [State.room, Mode.bytes, hbyte] using hroom
  refine ⟨Config.deviceByte (s.popped m 1).freeCount, (s.popped m 1).freeCount + 1, ?_⟩
  rw [exec_dei hdepth, hawait, deviceIn,
    callHost_awake_silent (acts_tell_popped hacts ..) ((State.popped_script ..).trans hs),
    ← State.popped_log s m 1]
  exact congrArg _ (afterDeiByte_none.trans (afterDeiByte_some hroom'))

theorem exec_dei_short_silent (hdepth : 1 ≤ s.depth m.src) (hroom : s.room m 1 m.bytes) (hshort : m.short = true)
    (hs : s.script = []) : ∃ (v w : Byte) (n : Nat), exec (.dei m) s = .next ({ s.popped m 1 with
      freeCount := n
      log := .deviceIn (nextPort (deiPort m s)) :: .deviceIn (deiPort m s) :: s.log }.withShort m.src
        (256 * v.toNat + w.toNat)) := by
  have hawait : (deiCallback m s).await = .deiHigh (deiPort m s) := by simp [deiCallback, hshort]
  have hroom' : (s.popped m 1).depth m.src < 254 := by
    rw [State.room, Mode.bytes, if_pos hshort] at hroom
    rw [State.depth_popped]; omega
  have hsilent : ((s.popped m 1).tell (.deviceIn (deiPort m s))).script = [] := (State.popped_script ..).trans hs
  obtain ⟨v, w, n, hdone⟩ := afterDeiHigh_silent (d := (deiCallback m s).dec) (port := deiPort m s)
    (acts_tell_popped (m := m) hacts 1 (.deviceIn (deiPort m s))) hsilent hroom'
  refine ⟨v, w, n, ?_⟩
  rw [exec_dei hdepth, hawait, deviceIn, callHost_awake_silent (acts_tell_popped hacts ..) hsilent,
    ← State.popped_log s m 1]
  exact congrArg _ hdone

end

/-- Settles O35: each call returns to an awake DEI, and the last return pushes. -/
theorem deviceInputResults : Obligations.DeviceInputResults := by
  unfold Obligations.DeviceInputResults
  intro s m pc1 started rest v w l hacts hdepth hroom
  refine ⟨exec_dei_byte_ret hacts hdepth hroom, fun hshort hs => ?_⟩
  rw [exec_dei_short_ret hacts hdepth hroom hshort hs, nextPort_deiPort]; rfl

/-- Settles O36: the free bytes stand for what the host did not say. -/
theorem deviceInputOfASilentHost : Obligations.DeviceInputOfASilentHost := by
  unfold Obligations.DeviceInputOfASilentHost
  intro s m pc1 started rest hacts hdepth hroom hs
  refine ⟨fun hbyte => exec_dei_byte_silent hacts hdepth hroom hbyte hs, fun hshort => ?_⟩
  rw [← nextPort_deiPort]
  exact exec_dei_short_silent hacts hdepth hroom hshort hs

/-! ### DEO -/

/-- The host returns from the callback at once, by its script's `ret` or because the script has ended; `l` is what it
does after that. -/
def ReturnsAtOnce (script l : List HostAction) : Prop := (∃ v, script = .ret v :: l) ∨ script = [] ∧ l = []

section
variable {s : State} {m : Mode} {pc1 : Short} {started : Bool} {rest : List Activation}
  (hacts : s.acts = ⟨pc1, started, none⟩ :: rest)
include hacts

theorem callHost_awake_returns {d : Decoder} {aw : Await} {k : Option Byte → State → State} {l : List HostAction}
    (hs : ReturnsAtOnce s.script l) : ∃ b, callHost d aw k s = k b { s with script := l } := by
  rcases hs with ⟨v, hs⟩ | ⟨hs, rfl⟩
  · exact ⟨some v, callHost_awake_ret hacts hs⟩
  · exact ⟨none, by rw [callHost_awake_silent hacts hs, ← hs]⟩

theorem exec_deo_byte {l : List HostAction} (hdepth : 1 + m.bytes ≤ s.depth m.src) (hbyte : m.short = false)
    (hs : ReturnsAtOnce s.script l) : exec (.deo m) s = .next { s.popped m (1 + m.bytes) with
      script := l, log := .deviceOut (deiPort m s) (loByte (deoValue m s)) :: s.log } := by
  have hawait : (deoCallback m s).await = .deoLast := by simp [deoCallback, hbyte]
  obtain ⟨b, hcall⟩ := callHost_awake_returns (d := (deoCallback m s).dec) (aw := .deoLast) (k := afterDeoLast)
    (acts_tell_popped (m := m) hacts (1 + m.bytes) (.deviceOut (deiPort m s) (loByte (deoValue m s))))
    (by rwa [State.tell_script, State.popped_script])
  rw [exec_deo hdepth, hawait, deviceOut, hbyte, if_neg Bool.false_ne_true, resume, hcall,
    ← State.popped_log s m (1 + m.bytes)]
  rfl

theorem exec_deo_short {l l' : List HostAction} (hdepth : 1 + m.bytes ≤ s.depth m.src) (hshort : m.short = true)
    (hs : ReturnsAtOnce s.script l) (hs' : ReturnsAtOnce l l') :
    exec (.deo m) s = .next { s.popped m (1 + m.bytes) with
      script := l'
      log := .deviceOut (nextPort (deiPort m s)) (loByte (deoValue m s)) ::
        .deviceOut (deiPort m s) (hiByte (deoValue m s)) :: s.log } := by
  have hawait : (deoCallback m s).await = .deoHigh (deiPort m s) (loByte (deoValue m s)) := by
    simp [deoCallback, hshort]
  have hacts' := acts_tell_popped (m := m) hacts (1 + m.bytes) (.deviceOut (deiPort m s) (hiByte (deoValue m s)))
  obtain ⟨b, hcall⟩ := callHost_awake_returns (d := (deoCallback m s).dec)
    (aw := .deoHigh (deiPort m s) (loByte (deoValue m s)))
    (k := afterDeoHigh (deoCallback m s).dec (deiPort m s) (loByte (deoValue m s))) hacts'
    (by rwa [State.tell_script, State.popped_script])
  let sent : State := { (s.popped m (1 + m.bytes)).tell (.deviceOut (deiPort m s) (hiByte (deoValue m s))) with
    script := l }
  obtain ⟨b', hcall'⟩ := callHost_awake_returns (d := (deoCallback m s).dec) (aw := .deoLast) (k := afterDeoLast)
    (s := sent.tell (.deviceOut (nextPort (deiPort m s)) (loByte (deoValue m s)))) hacts' hs'
  rw [exec_deo hdepth, hawait, deviceOut, if_pos hshort, resume, hcall, afterDeoHigh_eq, hcall',
    ← State.popped_log s m (1 + m.bytes)]
  rfl

end

/-- Settles O37: each call returns to an awake DEO, and the last return ends it. -/
theorem deviceOutputResults : Obligations.DeviceOutputResults := by
  unfold Obligations.DeviceOutputResults
  intro s m pc1 started rest v w l hacts hdepth
  refine ⟨fun hbyte hs => ?_, fun hshort hs => ?_⟩
  · have hbytes : 1 + m.bytes = 2 := by simp [Mode.bytes, hbyte]
    have hitem : s.item m 1 = s.byteBelow m.src 1 := by simp [State.item, hbyte]
    rw [exec_deo_byte hacts hdepth hbyte (hs.imp_left fun h => ⟨v, h⟩), hbytes, loByte_deoValue, hitem,
      Nat.mod_eq_of_lt (s.byteBelow_lt _ _)]
    rfl
  · have hbytes : 1 + m.bytes = 3 := by simp [Mode.bytes, hshort]
    have hitem : s.item m 1 = s.shortBelow m.src 1 := by simp [State.item, hshort]
    obtain ⟨l₁, hs₁, hs₂⟩ : ∃ l₁, ReturnsAtOnce s.script l₁ ∧ ReturnsAtOnce l₁ l := by
      rcases hs with hs | ⟨hs, hl⟩
      · exact ⟨.ret w :: l, .inl ⟨v, hs⟩, .inl ⟨w, rfl⟩⟩
      · exact ⟨[], .inr ⟨hs, rfl⟩, .inr ⟨rfl, hl⟩⟩
    rw [exec_deo_short hacts hdepth hshort hs₁ hs₂, hbytes, nextPort_deiPort, loByte_deoValue, hiByte_deoValue, hitem]
    rfl

/-- Settles O17: the operands are popped and the call is told before the host calls `Eval`. -/
theorem nestedActivationStartsInDeviceOut : Obligations.NestedActivationStartsInDeviceOut := by
  unfold Obligations.NestedActivationStartsInDeviceOut
  intro s m pc1 started rest entry l hacts hbyte hdepth hs
  obtain rfl : s.pc = pc1 := State.pc_of_acts hacts
  have hbytes : 1 + m.bytes = 2 := by simp [Mode.bytes, hbyte]
  have hitem : s.item m 1 = s.byteBelow m.src 1 := by simp [State.item, hbyte]
  have hvalue : loByte (deoValue m s) = BitVec.ofNat 8 (s.byteBelow m.src 1) := by
    rw [loByte_deoValue, hitem, Nat.mod_eq_of_lt (s.byteBelow_lt _ _)]
  have hawait : (deoCallback m s).await = .deoLast := by simp [deoCallback, hbyte]
  refine ⟨(deoCallback m s).dec.kc, ?_⟩
  rw [exec_deo (by omega), hawait, deviceOut, hbyte, if_neg Bool.false_ne_true,
    callHost_eval (s := (s.popped m _).tell _) ((State.popped_script ..).trans hs) (acts_tell_popped hacts ..), hbytes,
    hvalue, ← State.popped_log s m 2]
  rfl

end Sys2Proof.Proofs
end

section
/-! Faults (60_exceptions.md; 40_primitives_decoder_loop.md R137): how one is taken, which one an instruction takes, and
that it has not changed the buffer. -/

open Sys2Proof Sys2Proof.Machine Sys2Proof.Claims

namespace Sys2Proof.Proofs

/-! ### Taking a fault -/

/-- Settles O43: `raiseFault` is a callback, whose host returns, or has nothing to do, or calls `Eval`. -/
theorem faultEntry : Obligations.FaultEntry := by
  unfold Obligations.FaultEntry
  refine ⟨rfl, rfl, rfl, fun s d f a rest v entry l hacts => ⟨fun hs => ?_, fun hs => ?_⟩⟩
  · let told : State := { s.tell (.halt d.ins f.code (d.pc1 - 1)) with faultSeen := true }
    rcases hs with hs | ⟨hs, rfl⟩
    · rw [raiseFault, callHost_ret (s := told) hs hacts]; rfl
    · rw [raiseFault_silent hs, hacts, ← hs]; rfl
  · let told : State := { s.tell (.halt d.ins f.code (d.pc1 - 1)) with faultSeen := true }
    rw [raiseFault, callHost_eval (s := told) hs hacts]; rfl

/-! ### Pseudocode that ends without a fault -/

/-- From `l`, the pseudocode `x` ends without a fault; the fault record is as before, and of the activations only the
innermost one's program counter has changed. -/
def Completes (l : Local) (x : Micro Unit) : Prop :=
  ∃ l', x l = .ok () l' ∧ l'.st.faultSeen = l.st.faultSeen ∧ MovesPcOnly l l'

section
variable {l : Local} {k : StackId}

/-- Pseudocode that changes neither the record nor the activations nor the log. -/
theorem Completes.of_ok {x : Micro Unit} {t : State} {kc : Option Byte} (hx : x l = .ok () ⟨t, kc⟩)
    (hseen : t.faultSeen = l.st.faultSeen) (hlog : t.log = l.st.log) (hacts : t.acts = l.st.acts) : Completes l x :=
  ⟨_, hx, hseen, movesPcOnly_refl hlog hacts⟩

/-- A statement that reads, then the rest. -/
theorem Completes.after_read {α : Type} {x : Micro α} {a : α} {rest : α → Micro Unit} (hx : x l = .ok a l)
    (h : Completes l (rest a)) : Completes l (andThen x rest) := by
  obtain ⟨l', hl', h⟩ := h
  exact ⟨l', (andThen_ok hx).trans hl', h⟩

theorem Completes.andThen {x : Micro Unit} {rest : Unit → Micro Unit} (hx : Completes l x)
    (h : ∀ l', x l = .ok () l' → Completes l' (rest ())) : Completes l (andThen x rest) := by
  obtain ⟨l', hl', hseen, hmoves⟩ := hx
  obtain ⟨l'', hl'', hseen', hmoves'⟩ := h l' hl'
  exact ⟨l'', (andThen_ok hl').trans hl'', hseen'.trans hseen, stackClosed_movesPcOnly.trans hmoves hmoves'⟩

theorem completes_putPc (t : Short) : Completes l (putPc t) :=
  ⟨_, putPc_run t l, State.mapInner_faultSeen .., stackClosed_movesPcOnly.pc l t⟩

theorem completes_jump (m : Mode) (a : Short) : Completes l (jump m a) := .after_read (getPc_run l) (completes_putPc _)

theorem completes_done : Completes l (done ()) := .of_ok (done_run () l) rfl rfl rfl

theorem completes_push8 {v : Byte} (h : l.st.depth k + 1 ≤ 255) : Completes l (push8 k v) :=
  .of_ok (push8_ok h) (State.withByte_faultSeen ..) (State.withByte_log ..) (State.withByte_acts ..)

theorem completes_push16 {v : Short} (h : l.st.depth k + 2 ≤ 255) : Completes l (push16 k v) :=
  .of_ok (push16_ok h) (State.withShort_faultSeen ..) (State.withShort_log ..) (State.withShort_acts ..)

theorem completes_pushValue {m : Mode} {v : Short} (h : l.st.depth k + m.bytes ≤ 255) :
    Completes l (pushValue m k v) := by
  unfold pushValue
  unfold Mode.bytes at h
  split
  · rw [if_pos ‹_›] at h; exact completes_push16 h
  · rw [if_neg ‹_›] at h; exact completes_push8 h

theorem completes_poke (m : Mode) (a v : Short) : Completes l (poke m a v) :=
  .of_ok (poke_withRamItem m a v l) (withRamItem_faultSeen ..) (withRamItem_log ..) (withRamItem_acts ..)

theorem pushItems_completes {m : Mode} {v : Nat} {vs : List Nat} (hitems : ∀ w ∈ v :: vs, w < 2 ^ m.width)
    (h : l.st.depth k + (v :: vs).length * m.bytes ≤ 255) : Completes l (pushItems m k v vs) :=
  .of_ok (pushItems_ok hitems h) (withItems_faultSeen ..) (withItems_log ..) (withItems_acts ..)

theorem literalByte_completes {v : Byte} (h : l.st.depth k + 1 ≤ 255) : Completes l (literalByte k v) :=
  .after_read (getPc_run l) ((completes_putPc _).andThen fun _ hl' => by
    cases hl'; exact completes_push8 (by rwa [State.setPc, depth_mapInner]))

theorem literalShort_completes {v : Short} (h : l.st.depth k + 2 ≤ 255) : Completes l (literalShort k v) :=
  .after_read (getPc_run l) ((completes_putPc _).andThen fun _ hl' => by
    cases hl'; exact completes_push16 (by rwa [State.setPc, depth_mapInner]))

end

/-! ### No fault in the closed form, no fault -/

/-- Where the closed form gives no fault, the pops have their operands, DIV's divisor is not 0, and the pushes have
room. -/
theorem of_closedFault_eq_none {i : Instr} {s : State} (h : closedFault i s = none) :
    popBytes i ≤ s.depth (modeOf i).src ∧ zeroDivisor i s = false ∧
      s.room (modeOf i) (popBytes i) (pushSrc i) ∧ s.depth (modeOf i).dst + pushDst i ≤ 255 := by
  unfold closedFault at h
  split_ifs at h with hdepth hdivisor hroom
  exact ⟨Nat.not_lt.mp hdepth, by simpa using hdivisor, hroom⟩

/-- An instruction without a fault in the closed form makes its pops and completes (BRK, DEI and DEO apart). -/
theorem exec_pops_then_completes {i : Instr} {s : State} (h : closedFault i s = none) (hbrk : i ≠ .brk)
    (hdei : ∀ m, i ≠ .dei m) (hdeo : ∀ m, i ≠ .deo m) :
    ∃ x r, exec i s = runMicro i (modeOf i) x s ∧ PopsThen (modeOf i) s 0 (popSizes i) x r ∧
      Completes (popLocal (modeOf i) s (popBytes i)) r := by
  obtain ⟨-, hdivisor, hroom, hdst⟩ := of_closedFault_eq_none h
  have hsrc : (popLocal (modeOf i) s (popBytes i)).st.depth (modeOf i).src + pushSrc i ≤ 255 := by
    rw [popLocal_st, State.depth_popped]; exact hroom
  rw [← State.depth_dst_popped s (modeOf i) (popBytes i), ← popLocal_st] at hdst
  cases i with
  | brk => exact absurd rfl hbrk
  | dei m => exact absurd rfl (hdei m)
  | deo m => exact absurd rfl (hdeo m)
  | jci off =>
    exact ⟨_, _, rfl, .pop (isPop_pop8 .plain) .rest, .after_read (getPc_run _) (completes_putPc _)⟩
  | jmi off => exact ⟨_, _, rfl, .rest, .after_read (getPc_run _) (completes_putPc _)⟩
  | jsi off =>
    exact ⟨_, _, rfl, .rest, .after_read (getPc_run _) ((completes_push16 hdst).andThen fun _ _ => completes_putPc _)⟩
  | lit v | litr v => exact ⟨_, _, rfl, .rest, literalByte_completes hsrc⟩
  | lit2 v | lit2r v => exact ⟨_, _, rfl, .rest, literalShort_completes hsrc⟩
  | inc m => exact ⟨_, _, rfl, .pop (isPop_popValue m) .rest, completes_pushValue hsrc⟩
  | sth m => exact ⟨_, _, rfl, .pop (isPop_popValue m) .rest, completes_pushValue hdst⟩
  | pop m => exact ⟨_, _, rfl, .pop (isPop_popValue m) .rest, completes_done⟩
  | jmp m => exact ⟨_, _, rfl, .pop (isPop_popValue m) .rest, completes_jump m _⟩
  | jsr m =>
    exact ⟨_, _, rfl, .pop (isPop_popValue m) .rest,
      .after_read (getPc_run _) ((completes_push16 hdst).andThen fun _ _ => completes_jump m _)⟩
  | jcn m =>
    refine ⟨_, _, rfl, .pop (isPop_popValue m) (.pop (isPop_pop8 m) .rest), ?_⟩
    split
    · exact completes_jump m _
    · exact completes_done
  | nip m | add m | sub m | mul m | and m | ora m | eor m =>
    exact ⟨_, _, rfl, .pop (isPop_popValue m) (.pop (isPop_popValue m) .rest), completes_pushValue hsrc⟩
  | div m =>
    refine ⟨_, _, rfl, .pop (isPop_popValue m) (.pop (isPop_popValue m) .rest), ?_⟩
    have hne : BitVec.ofNat 16 (s.item m 0) ≠ 0 := by
      rw [Ne, ofNat_item_eq_zero_iff]; simpa [zeroDivisor] using hdivisor
    rw [if_neg hne]
    exact completes_pushValue hsrc
  | equ m | neq m | gth m | lth m =>
    exact ⟨_, _, rfl, .pop (isPop_popValue m) (.pop (isPop_popValue m) .rest), completes_push8 hsrc⟩
  | sft m => exact ⟨_, _, rfl, .pop (isPop_pop8 m) (.pop (isPop_popValue m) .rest), completes_pushValue hsrc⟩
  | stz m => exact ⟨_, _, rfl, .pop (isPop_pop8 m) (.pop (isPop_popValue m) .rest), completes_poke m _ _⟩
  | str m =>
    exact ⟨_, _, rfl, .pop (isPop_pop8 m) (.pop (isPop_popValue m) .rest),
      .after_read (getPc_run _) (completes_poke m _ _)⟩
  | sta m => exact ⟨_, _, rfl, .pop (isPop_pop16 m) (.pop (isPop_popValue m) .rest), completes_poke m _ _⟩
  | ldz m =>
    exact ⟨_, _, rfl, .pop (isPop_pop8 m) .rest, .after_read (peek_ramItem ..) (completes_pushValue hsrc)⟩
  | ldr m =>
    exact ⟨_, _, rfl, .pop (isPop_pop8 m) .rest,
      .after_read (getPc_run _) (.after_read (peek_ramItem ..) (completes_pushValue hsrc))⟩
  | lda m =>
    exact ⟨_, _, rfl, .pop (isPop_pop16 m) .rest, .after_read (peek_ramItem ..) (completes_pushValue hsrc)⟩
  | dup m =>
    exact ⟨_, _, rfl, .pop (isPop_popValue m) .rest,
      pushItems_completes (vs := [_]) (by simp [State.item_lt]) hsrc⟩
  | swp m =>
    exact ⟨_, _, rfl, .pop (isPop_popValue m) (.pop (isPop_popValue m) .rest),
      pushItems_completes (vs := [_]) (by simp [State.item_lt]) hsrc⟩
  | ovr m =>
    exact ⟨_, _, rfl, .pop (isPop_popValue m) (.pop (isPop_popValue m) .rest),
      pushItems_completes (vs := [_, _]) (by simp [State.item_lt]) hsrc⟩
  | rot m =>
    exact ⟨_, _, rfl, .pop (isPop_popValue m) (.pop (isPop_popValue m) (.pop (isPop_popValue m) .rest)),
      pushItems_completes (vs := [_, _]) (by simp [State.item_lt]) hsrc⟩

/-- Of several items to be pushed, the last that has room is followed by one that has none. -/
theorem exists_last_push {s : State} {m : Mode} {p n : Nat} (h : ¬ s.room m p (n * m.bytes)) :
    ∃ j, j < n ∧ s.room m p (j * m.bytes) ∧ ¬ s.room m p ((j + 1) * m.bytes) := by
  induction n with
  | zero =>
    have hlt := s.depth_lt m.src
    refine absurd ?_ h
    rw [State.room, Nat.zero_mul]
    split <;> omega
  | succ n ih =>
    by_cases hn : s.room m p (n * m.bytes)
    · exact ⟨n, Nat.lt_succ_self n, hn, h⟩
    · obtain ⟨j, hj, hroom, hnext⟩ := ih hn
      exact ⟨j, Nat.lt_succ_of_lt hj, hroom, hnext⟩

section
variable {i : Instr} {s : State} {pc1 : Short} {started : Bool} {rest : List Activation}
  (hacts : s.acts = ⟨pc1, started, none⟩ :: rest) (hscript : s.script = [])
include hacts hscript

/-- Where the closed form gives no fault, none is recorded and no activation but a BRK's has ended. -/
theorem exec_of_no_fault (h : closedFault i s = none) : ∃ t, exec i s = .next t ∧ t.faultSeen = s.faultSeen ∧
    (i = .brk ∧ t.acts = rest ∨ i ≠ .brk ∧ ∃ pc, t.acts = ⟨pc, started, none⟩ :: rest) := by
  obtain ⟨hpops, -, hroom, -⟩ := of_closedFault_eq_none h
  by_cases hbrk : i = .brk
  · subst hbrk
    exact ⟨_, rfl, rfl, .inl ⟨rfl, by rw [State.endActivation_acts, hacts, List.tail_cons]⟩⟩
  by_cases hdei : ∃ m, i = .dei m
  · obtain ⟨m, rfl⟩ := hdei
    have hdepth : 1 ≤ s.depth m.src := hpops
    obtain ⟨hbyte, hshort⟩ := deviceInputOfASilentHost s m pc1 started rest hacts hdepth hroom hscript
    by_cases hm : m.short = true
    · obtain ⟨v, w, n, hexec⟩ := hshort hm
      exact ⟨_, hexec, by simp, .inr ⟨hbrk, pc1, by simp [hacts]⟩⟩
    · obtain ⟨v, n, hexec⟩ := hbyte (by simpa using hm)
      exact ⟨_, hexec, by simp, .inr ⟨hbrk, pc1, by simp [hacts]⟩⟩
  by_cases hdeo : ∃ m, i = .deo m
  · obtain ⟨m, rfl⟩ := hdeo
    have hdepth : 1 + m.bytes ≤ s.depth m.src := by simpa [popBytes, popSizes, modeOf] using hpops
    obtain ⟨hbyte, hshort⟩ := deviceOutputResults s m pc1 started rest 0 0 [] hacts hdepth
    by_cases hm : m.short = true
    · exact ⟨_, hshort hm (.inr ⟨hscript, rfl⟩), by simp, .inr ⟨hbrk, pc1, by simp [hacts]⟩⟩
    · exact ⟨_, hbyte (by simpa using hm) (.inr ⟨hscript, rfl⟩), by simp, .inr ⟨hbrk, pc1, by simp [hacts]⟩⟩
  obtain ⟨x, r, hexec, hpopsThen, l, hl, hseen, -, hmoves⟩ :=
    exec_pops_then_completes h hbrk (not_exists.mp hdei) (not_exists.mp hdeo)
  obtain ⟨pc, hpc⟩ := hmoves _ rest ((State.popped_acts ..).trans hacts)
  exact ⟨l.st, hexec.trans (runMicro_ok ((hpopsThen.run hpops).trans hl)),
    hseen.trans (State.popped_faultSeen ..), .inr ⟨hbrk, pc, hpc⟩⟩

/-! ### The fault of the closed form is taken -/

/-- What a fault `f` of instruction `i` leaves of the activation, the record and the log. -/
def FaultOutcome (i : Instr) (s : State) (pc1 : Short) (rest : List Activation) (f : VmFault) (t : State) : Prop :=
  t.acts = rest ∧ t.faultSeen = true ∧ ∃ calls : List Event, (∀ e ∈ calls, ∃ p, e = .deviceIn p) ∧
    t.log = .evalReturn (.fault f) :: .halt i.opcode f.code (pc1 - 1) :: calls ++ s.log

omit hscript in
/-- A fault taken in a state with the same activations, which has told the host of calls of `DeviceIn` at most. -/
theorem faultOutcome_afterFault {u : State} {calls : List Event} (f : VmFault) (hu : u.acts = s.acts)
    (hcalls : ∀ e ∈ calls, ∃ p, e = .deviceIn p) (hlog : u.log = calls ++ s.log) :
    FaultOutcome i s pc1 rest f (u.afterFault i.opcode f) := by
  have hpc : u.pc = pc1 := State.pc_of_acts (hu.trans hacts)
  refine ⟨?_, rfl, calls, hcalls, ?_⟩
  · rw [State.afterFault, hu, hacts, List.tail_cons]
  · rw [State.afterFault, hpc, hlog]; rfl

omit hscript in
theorem faultOutcome_popped (f : VmFault) (m : Mode) (p : Nat) :
    FaultOutcome i s pc1 rest f ((s.popped m p).afterFault i.opcode f) :=
  faultOutcome_afterFault hacts (calls := []) f (State.popped_acts ..) (by simp) (State.popped_log ..)

/-- An Overflow of an instruction with several pushes, one of which has no room. -/
theorem exec_overflow_of_several {m : Mode} {p : Nat} {vs : List Nat}
    (hi : i = .swp m ∧ p = 2 * m.bytes ∧ vs = [s.item m 0, s.item m m.bytes] ∨
      i = .rot m ∧ p = 3 * m.bytes ∧ vs = [s.item m m.bytes, s.item m 0, s.item m (2 * m.bytes)] ∨
      i = .dup m ∧ p = m.bytes ∧ vs = [s.item m 0, s.item m 0] ∨
      i = .ovr m ∧ p = 2 * m.bytes ∧ vs = [s.item m m.bytes, s.item m 0, s.item m m.bytes])
    (hdepth : p ≤ s.depth m.src) (hroom : ¬ s.room m p (vs.length * m.bytes)) :
    ∃ t, exec i s = .next t ∧ FaultOutcome i s pc1 rest .overflow t := by
  obtain ⟨several, -, -⟩ := faultKeepsEarlierPushes
  obtain ⟨j, hj, hfits, hnext⟩ := exists_last_push hroom
  refine ⟨_, several s m i p vs j hscript hi hdepth hj hfits hnext, ?_⟩
  exact faultOutcome_afterFault hacts (calls := []) .overflow (by simp) (by simp) (by simp)

theorem exec_of_overflow (h : closedFault i s = some .overflow) :
    ∃ t, exec i s = .next t ∧ FaultOutcome i s pc1 rest .overflow t := by
  obtain ⟨hpops, -, hfull⟩ := closedFault_eq_overflow_iff.mp h
  have hsrc (hdst : pushDst i = 0) : ¬ s.room (modeOf i) (popBytes i) (pushSrc i) := by
    rw [State.room, ← State.depth_popped, ← popLocal_st]; exact no_room_src h hdst
  by_cases honce : PushesOnce i
  · exact ⟨_, exec_overflow_of_pushesOnce hscript honce h, faultOutcome_popped hacts _ _ _⟩
  obtain ⟨m, hm⟩ : ∃ m, i = .swp m ∨ i = .rot m ∨ i = .dup m ∨ i = .ovr m ∨ i = .dei m := by
    by_contra hne
    exact honce fun m => by
      refine ⟨?_, ?_, ?_, ?_, ?_⟩ <;> rintro rfl <;> exact hne ⟨m, by simp⟩
  have hpair : popBytes (.swp m) = 2 * m.bytes := sum_pair m
  have htriple : popBytes (.rot m) = 3 * m.bytes := sum_triple m
  have hone : popBytes (.dup m) = m.bytes := List.sum_singleton
  have hpair' : popBytes (.ovr m) = 2 * m.bytes := sum_pair m
  rcases hm with rfl | rfl | rfl | rfl | rfl
  · rw [hpair] at hpops hsrc
    exact exec_overflow_of_several hacts hscript (.inl ⟨rfl, rfl, rfl⟩) hpops (hsrc rfl)
  · rw [htriple] at hpops hsrc
    exact exec_overflow_of_several hacts hscript (.inr (.inl ⟨rfl, rfl, rfl⟩)) hpops (hsrc rfl)
  · rw [hone] at hpops hsrc
    exact exec_overflow_of_several hacts hscript (.inr (.inr (.inl ⟨rfl, rfl, rfl⟩))) hpops (hsrc rfl)
  · rw [hpair'] at hpops hsrc
    exact exec_overflow_of_several hacts hscript (.inr (.inr (.inr ⟨rfl, rfl, rfl⟩))) hpops (hsrc rfl)
  · obtain ⟨n, hexec⟩ := exec_dei_overflow hscript h
    refine ⟨_, hexec, faultOutcome_afterFault hacts (calls :=
      (if m.short then [Event.deviceIn (nextPort (deiPort m s))] else []) ++ [Event.deviceIn (deiPort m s)])
      .overflow (State.popped_acts ..) (fun e he => ?_) (by simp)⟩
    rcases List.mem_append.mp he with he | he
    · split at he
      · exact ⟨_, List.mem_singleton.mp he⟩
      · cases he
    · exact ⟨_, List.mem_singleton.mp he⟩

theorem exec_of_fault {f : VmFault} (h : closedFault i s = some f) :
    ∃ t, exec i s = .next t ∧ FaultOutcome i s pc1 rest f t := by
  have hcases := h
  unfold closedFault at hcases
  split_ifs at hcases with hdepth hdivisor hroom
  · cases hcases
    obtain ⟨q, d, hins, hpc1, hexec⟩ := exec_underflow hdepth
    have hfault : raiseFault d .underflow (s.popped (modeOf i) q) =
        (s.popped (modeOf i) q).afterFault i.opcode .underflow := by
      rw [raiseFault_silent ((State.popped_script ..).trans hscript), State.afterFault, hins, hpc1, State.popped_pc]
    exact ⟨_, hexec.trans (congrArg _ hfault), faultOutcome_popped hacts _ _ _⟩
  · cases hcases
    cases i with
    | div m =>
      have hpops : 2 * m.bytes ≤ s.depth m.src := by rw [← sum_pair]; exact Nat.not_lt.mp hdepth
      exact ⟨_, divisionByZero s m hscript hpops (by simpa [zeroDivisor] using hdivisor),
        faultOutcome_popped hacts _ _ _⟩
    | _ => cases hdivisor
  · cases hcases
    exact exec_of_overflow hacts hscript h

end

/-- Settles O44: by the cases of the closed form, the fault and its outcome, or the absence of one. -/
theorem closedFormOfFaults : Obligations.ClosedFormOfFaults := by
  unfold Obligations.ClosedFormOfFaults
  intro i s pc1 started rest hacts hscript
  cases h : closedFault i s with
  | some f => exact exec_of_fault hacts hscript h
  | none => exact exec_of_no_fault hacts hscript h

/-! ### The buffer -/

/-- A store has an address, and pops its bytes and the item's. -/
theorem storesAt_of_storesToRam {i : Instr} (h : storesToRam i = true) (s : State) :
    ∃ m ea p, StoresAt s m i ea p ∧ modeOf i = m ∧ popBytes i = p + m.bytes := by
  cases i with
  | stz m => exact ⟨m, _, 1, .inl ⟨rfl, rfl, rfl⟩, rfl, by simp [popBytes, popSizes, modeOf]⟩
  | str m => exact ⟨m, _, 1, .inr (.inl ⟨rfl, rfl, rfl⟩), rfl, by simp [popBytes, popSizes, modeOf]⟩
  | sta m => exact ⟨m, _, 2, .inr (.inr ⟨rfl, rfl, rfl⟩), rfl, by simp [popBytes, popSizes, modeOf]⟩
  | _ => cases h

/-- Settles O48: only a store changes the buffer, and a store that faults has done so for want of operands. -/
theorem faultsLeaveMemory : Obligations.FaultsLeaveMemory := by
  unfold Obligations.FaultsLeaveMemory
  intro i s t hscript hseen hexec hfault
  by_cases hstore : storesToRam i = true
  · obtain ⟨m, ea, p, hat, hmode, hpops⟩ := storesAt_of_storesToRam hstore s
    by_cases hdepth : s.depth m.src < p + m.bytes
    · obtain ⟨q, d, -, -, hunderflow⟩ := exec_underflow (i := i) (s := s) (by rwa [hmode, hpops])
      cases hunderflow.symm.trans hexec
      rw [raiseFault_silent ((State.popped_script ..).trans hscript)]
      exact State.popped_mem ..
    · rw [exec_store hat (Nat.not_lt.mp hdepth)] at hexec
      cases hexec
      rw [withRamItem_faultSeen, State.popped_faultSeen, hseen] at hfault
      cases hfault
  · exact onlyStoresWriteMemory i s t (by simpa using hstore) (by simp [hscript]) hexec

end Sys2Proof.Proofs
end

section
/-! The loop top, the host's writes, and the boot (10_state.md R36, R37; 70_reset_and_hazards.md R302). -/

open Sys2Proof Sys2Proof.Machine Sys2Proof.Claims

namespace Sys2Proof.Proofs

/-! ### The loop top -/

theorem loopEnd_pc_zero (started : Bool) (s : State) :
    loopEnd ⟨0, started, none⟩ s = some (if started then .pcZero else .notStarted) := rfl

theorem loopEnd_not_enabled {pc : Short} (started : Bool) {s : State} (hpc : pc ≠ 0) (hdev : s.dev.read 0x0F = 0) :
    loopEnd ⟨pc, started, none⟩ s = some (if started then .disabled else .notStarted) := by
  have hdisabled := (enabled_eq_false_iff s).mpr hdev
  simp only [loopEnd, if_neg hpc, hdisabled, Bool.false_eq_true, if_false]

/-- Settles O12: the result of the loop top is handed back. -/
theorem loopTopEndsTheActivation : Obligations.LoopTopEndsTheActivation := by
  unfold Obligations.LoopTopEndsTheActivation
  intro s pc started rest hacts
  refine ⟨?_, fun hpc hdev => step_loopEnd hacts (loopEnd_not_enabled started hpc hdev)⟩
  rintro rfl
  exact step_loopEnd hacts (loopEnd_pc_zero started s)

/-! ### One write of the host's reaches one place -/

/-- Each byte of each page has a key of its own (R32). -/
theorem pageKey_inj {p q : Fin 16} {a b : Short} (h : pageKey p a = pageKey q b) : p = q ∧ a = b := by
  have := a.isLt
  have := b.isLt
  simp only [pageKey, Config.ramPageSize] at h
  exact ⟨Fin.ext (by omega), BitVec.eq_of_toNat_eq (by omega)⟩

theorem hostRead_hostWrite_same {s : State} (hwf : MemoriesWf s) (sp : Space) (v : Byte) :
    (s.hostWrite sp v).hostRead sp = v := by
  cases sp with
  | page p a => exact Memory.read_write_self hwf.mem _ v
  | wstDat i => exact Memory.read_write_self (hwf.stack .wst) _ v
  | rstDat i => exact Memory.read_write_self (hwf.stack .rst) _ v
  | dev port => exact Memory.read_write_self hwf.dev _ v
  | wstPtr | rstPtr => rfl

theorem hostRead_hostWrite_other (s : State) {sp other : Space} (v : Byte) (h : other ≠ sp) :
    (s.hostWrite sp v).hostRead other = s.hostRead other := by
  have hindex {i j : Byte} (hij : j ≠ i) : j.toNat ≠ i.toNat := fun hnat => hij (BitVec.eq_of_toNat_eq hnat)
  cases sp with
  | page p a =>
    cases other with
    | page q b =>
      refine Memory.read_write_other _ v fun hkey => h ?_
      obtain ⟨rfl, rfl⟩ := pageKey_inj hkey
      rfl
    | _ => rfl
  | wstDat i =>
    cases other with
    | wstDat j => exact Memory.read_write_other _ v (hindex fun hij => h (hij ▸ rfl))
    | _ => rfl
  | rstDat i =>
    cases other with
    | rstDat j => exact Memory.read_write_other _ v (hindex fun hij => h (hij ▸ rfl))
    | _ => rfl
  | dev port =>
    cases other with
    | dev port' => exact Memory.read_write_other _ v (hindex fun hij => h (hij ▸ rfl))
    | _ => rfl
  | wstPtr =>
    cases other with
    | wstPtr => exact absurd rfl h
    | _ => rfl
  | rstPtr =>
    cases other with
    | rstPtr => exact absurd rfl h
    | _ => rfl

/-- Settles O14: a read of the same place, and of every other one. -/
theorem hostWriteReachesOnePlace : Obligations.HostWriteReachesOnePlace := by
  unfold Obligations.HostWriteReachesOnePlace
  intro s sp v hlegal
  obtain ⟨hwf, -⟩ := (wf_iff s).mp hlegal
  exact ⟨hostRead_hostWrite_same hwf sp v, fun other => hostRead_hostWrite_other s v⟩

/-! ### The boot -/

theorem loadImage_isAccess (image : List Byte) (a : Short) : (loadImage image a).all HostAction.isAccess = true := by
  induction image generalizing a with
  | nil => rfl
  | cons b image ih => exact (List.all_cons ..).trans (ih (a + 1))

/-- Loading an image writes page 0 and nothing else. -/
structure OnlyMemDiffers (s t : State) : Prop where
  wst : t.wst = s.wst
  rst : t.rst = s.rst
  dev : t.dev = s.dev
  acts : t.acts = s.acts

theorem afterAccesses_loadImage_onlyMem (image : List Byte) (a : Short) (s : State) :
    OnlyMemDiffers s (s.afterAccesses (loadImage image a)) := by
  induction image generalizing a s with
  | nil => exact ⟨rfl, rfl, rfl, rfl⟩
  | cons b image ih =>
    obtain ⟨hwst, hrst, hdev, hacts⟩ := ih (a + 1) (s.hostWrite (.page 0 a) b)
    exact ⟨hwst, hrst, hdev, hacts⟩

/-- An image that does not run over the end of the page stands at its bytes' addresses; no other byte has changed. -/
theorem afterAccesses_loadImage_read {image : List Byte} {a : Short} {s : State}
    (hwf : s.mem.wf Config.bufferSize = true) (hfit : a.toNat + image.length ≤ 65536) :
    (∀ i, (h : i < image.length) → (s.afterAccesses (loadImage image a)).mem.read (a.toNat + i) = image[i]) ∧
      ∀ k, k < a.toNat ∨ a.toNat + image.length ≤ k →
        (s.afterAccesses (loadImage image a)).mem.read k = s.mem.read k := by
  induction image generalizing a s with
  | nil => exact ⟨fun i h => absurd h (Nat.not_lt_zero i), fun k _ => rfl⟩
  | cons b image ih =>
    rw [List.length_cons] at hfit
    let written : State := s.hostWrite (.page 0 a) b
    let loaded : State := written.afterAccesses (loadImage image (a + 1))
    have hmem : written.mem = s.mem.write a.toNat b := by rw [← ramKey_eq a]; rfl
    have hwf' : written.mem.wf Config.bufferSize = true := Memory.wf_write hwf (pageKey_lt 0 a) b
    obtain ⟨hin, hout⟩ : (∀ i, (h : i < image.length) → loaded.mem.read (a.toNat + 1 + i) = image[i]) ∧
        ∀ k, k < a.toNat + 1 ∨ a.toNat + 1 + image.length ≤ k → loaded.mem.read k = written.mem.read k := by
      by_cases hempty : image = []
      · subst hempty
        exact ⟨fun i h => absurd h (Nat.not_lt_zero i), fun k _ => rfl⟩
      · have hpos := List.length_pos_of_ne_nil hempty
        have hnext : (a + 1).toNat = a.toNat + 1 := by bv_omega
        rw [← hnext]
        exact ih hwf' (by rw [hnext]; omega)
    refine ⟨fun i h => ?_, fun k hk => ?_⟩
    · cases i with
      | zero => exact (hout a.toNat (.inl (by omega))).trans (by rw [hmem]; exact Memory.read_write_self hwf _ b)
      | succ i =>
        have hi := hin i (by simpa using h)
        rwa [Nat.add_assoc, Nat.add_comm 1 i] at hi
    · rw [List.length_cons] at hk
      exact (hout k (by omega)).trans (by rw [hmem]; exact Memory.read_write_other _ b (by omega))

/-- The machine that the boot of `rom` starts, from `s` with no activation. -/
def booted (rom : List Byte) (s : State) : State :=
  { (s.afterAccesses (loadImage rom Config.resetVector)).hostWrite (.dev 0x0F) 1 with
    script := [], acts := [⟨Config.resetVector, false, none⟩] }

theorem step_boot {s : State} {rom : List Byte} (hacts : s.acts = [])
    (hscript : s.script = loadImage rom Config.resetVector ++
      [.write (.dev 0x0F) 1, .eval Config.resetVector]) : step s = .next (booted rom s) := by
  refine step_hostRun (hostIsActive_idle hacts) (stop := .called) ?_ (.inl rfl)
  rw [hscript, hostRun_accesses (loadImage_isAccess ..), hostRun_write, hostRun_eval, State.hostWrite_acts,
    (afterAccesses_loadImage_onlyMem ..).acts, hacts]
  rfl

/-- Settles O15: the script's accesses write the image and the enable byte over the zeros of reset. -/
theorem bootStartsTheRom : Obligations.BootStartsTheRom := by
  unfold Obligations.BootStartsTheRom
  refine ⟨fun rom h => if_neg (Nat.not_le.mpr h), fun rom h => ⟨_, _, if_pos h, step_boot rfl rfl, ?_⟩⟩
  let s : State := { State.reset with script := loadImage rom Config.resetVector ++
    [.write (.dev 0x0F) 1, .eval Config.resetVector] }
  have hvector : Config.resetVector.toNat = 0x0100 := rfl
  obtain ⟨hin, hout⟩ := afterAccesses_loadImage_read (image := rom) (a := Config.resetVector) (s := s) rfl
    (by rw [hvector]; omega)
  rw [hvector] at hin hout
  obtain ⟨hwst, hrst, hdev, -⟩ := afterAccesses_loadImage_onlyMem rom Config.resetVector s
  refine ⟨hin, hout, ?_, hwst, hrst, rfl⟩
  have hdev' : (booted rom s).dev = [(0x0F, 1)] := by
    have : (booted rom s).dev = (s.afterAccesses (loadImage rom Config.resetVector)).dev.write 0x0F 1 := rfl
    rw [this, hdev]; rfl
  rw [State.enabled, hdev']; rfl

end Sys2Proof.Proofs
end
